-- ==== Sys2Proof/Word.lean ====
section
/-! DEFINITION. Digit strings (spec/00_scope.md, rule R9).

The block carries binary strings whose widths are fields of its configuration, written left to right with index 0
leftmost. They are lists of digits, not machine words: no rule adds or shifts them as words, and their widths are
data of the running configuration. -/

namespace Sys2Proof

/-- A bit string (R9): the digit at index 0 is the leftmost and the first in stream order (R62). -/
abbrev Bits := List Bool

/-- `zeros(k)` of R9. -/
def zeros (k : Nat) : Bits := List.replicate k false

/-- `ones(k)` of R9. -/
def ones (k : Nat) : Bits := List.replicate k true

end Sys2Proof
end

