-- ==== Sys2Proof/Config.lean ====
section
/-! DEFINITION. The configuration record (spec/00_scope.md, rules R6 and R7) and the three named configurations.

Every width and size of the block is a field here. The predicate `cfg_valid` (R8) is in
`Sys2Proof/Machine/PassControl.lean`, beside the check that START makes with it (R303).
No value of this hardware is left undefined after an instruction that goes on, so there is no free value here. -/

namespace Sys2Proof

/-- `Cfg` of R6. The names follow the table of R6; `none` for a capacity means unbounded (D22, U13). -/
structure Cfg where
  /-- `N`, width of a Line. -/
  lineW : Nat
  /-- `W`, width of an output row. -/
  rowW : Nat
  /-- `F`, width of the tag. -/
  tagW : Nat
  /-- `B`, width of a dictionary index. -/
  idxW : Nat
  /-- `DICT_CAP`, largest number of dictionary entries kept. -/
  dictCap : Nat
  /-- `L`, width of the run-length count field. -/
  runW : Nat
  /-- `OFF_BM`, width of the BitmaskDelta offset field. -/
  offBm : Nat
  /-- `MASK_W`, width of the BitmaskDelta mask field. -/
  maskW : Nat
  /-- `OFF_FM1`. -/
  offFm1 : Nat
  /-- `OFF_FM2`. -/
  offFm2 : Nat
  /-- `OFF_FM4`. -/
  offFm4 : Nat
  /-- `POS_W`, width of each PairMismatch position field. -/
  posW : Nat
  /-- `STRAT_EN`: bit `t` set means the catalogue entry with tag `t` is enabled. -/
  stratEn : BitVec 8
  /-- `MAX_LINES`, capacity of the line memory. -/
  maxLines : Option Nat
  /-- `MAX_ROWS`, capacity of the row memory. -/
  maxRows : Option Nat
deriving DecidableEq, Repr

/-- Bit `t` of `STRAT_EN` (R6); no tag above 7 is ever enabled (R104). -/
def Cfg.enabled (c : Cfg) (t : Nat) : Bool := c.stratEn.getLsbD t

/-- `TOY` of R7. -/
def Cfg.toy : Cfg :=
  ⟨4, 4, 2, 2, 4, 2, 1, 1, 2, 2, 1, 2, 0b00000111#8, none, none⟩

/-- `SMALL` of R7. -/
def Cfg.small : Cfg :=
  ⟨16, 16, 3, 2, 4, 2, 4, 4, 4, 4, 4, 4, 0b11111111#8, none, none⟩

/-- `REF` of R7. -/
def Cfg.ref : Cfg :=
  ⟨32, 32, 3, 4, 16, 3, 5, 4, 5, 5, 5, 5, 0b11111111#8, none, none⟩

end Sys2Proof
end

