-- ==== Sys2Proof/Syntax.lean ====
section
/-! DEFINITION. The instruction set: one constructor per row of spec/opcode_table.json (spec/30_encoding.md, rules
R93 and R96 to R101).

Numeric fields are unsigned integers (R102), so they are naturals; a line and a mask are digit patterns "used as
they stand" (R102), so they are digit strings. That a field fits its width is checked in
`Sys2Proof/WellFormed.lean`. -/

namespace Sys2Proof

/-- One entry of the strategy catalogue (R3, R93). Its tag is its position in `catalogue` (R92), not an attribute. -/
inductive Strategy where
  /-- Literal. -/
  | lit
  /-- RunLength. -/
  | rle
  /-- DictionaryDirect. -/
  | dir
  /-- BitmaskDelta. -/
  | bmd
  /-- FixedMismatch(1). -/
  | fm1
  /-- FixedMismatch(2). -/
  | fm2
  /-- FixedMismatch(4). -/
  | fm4
  /-- PairMismatch. -/
  | pmm
deriving DecidableEq, Repr

/-- One instruction of the wire format: an EncodedInstruction with its payload cut into fields. -/
inductive Instr where
  /-- LIT (R96): the Line itself. -/
  | lit (line : Bits)
  /-- RLE (R97): the number of additional identical lines. -/
  | rle (count : Nat)
  /-- DIR (R98): an index into the dictionary memory. -/
  | dir (index : Nat)
  /-- BMD (R99): the Line index of the mask's digit 0, the mask, a dictionary index. -/
  | bmd (offset : Nat) (mask : Bits) (index : Nat)
  /-- FM1 (R100, k = 1): the Line index of the flipped digit, a dictionary index. -/
  | fm1 (offset : Nat) (index : Nat)
  /-- FM2 (R100, k = 2). -/
  | fm2 (offset : Nat) (index : Nat)
  /-- FM4 (R100, k = 4). -/
  | fm4 (offset : Nat) (index : Nat)
  /-- PMM (R101): two Line indices and a dictionary index. -/
  | pmm (pos1 : Nat) (pos2 : Nat) (index : Nat)
deriving DecidableEq, Repr

/-- The catalogue entry an instruction belongs to. -/
def Instr.strategy : Instr → Strategy
  | .lit _ => .lit
  | .rle _ => .rle
  | .dir _ => .dir
  | .bmd _ _ _ => .bmd
  | .fm1 _ _ => .fm1
  | .fm2 _ _ => .fm2
  | .fm4 _ _ => .fm4
  | .pmm _ _ _ => .pmm

end Sys2Proof
end

