-- ==== Sys2Proof/Decode.lean ====
section
/-! DEFINITION. The catalogue table, field assembly, the decoder and the encoder of one instruction
(spec/30_encoding.md; spec/45_bitstream_unpacker.md rules R282 to R285).

`catalogue` is the one table the tag map lives in (R94, R382): tags, payload lengths and legality are all read
from it. -/

namespace Sys2Proof

/-- The catalogue, in tag order (R92, R93): "the list's position is the wire-format tag". The order of the entries
after the third is the spec's decision D6. -/
def catalogue : List Strategy := [.lit, .rle, .dir, .bmd, .fm1, .fm2, .fm4, .pmm]

/-- The tag of a catalogue entry: its zero-based position (R92). -/
def tagOf (st : Strategy) : Nat := catalogue.idxOf st

/-- The payload length `PL` of a catalogue entry (R93, R95). -/
def payloadLen (c : Cfg) : Strategy → Nat
  | .lit => c.lineW
  | .rle => c.runW
  | .dir => c.idxW
  | .bmd => c.offBm + c.maskW + c.idxW
  | .fm1 => c.offFm1 + c.idxW
  | .fm2 => c.offFm2 + c.idxW
  | .fm4 => c.offFm4 + c.idxW
  | .pmm => 2 * c.posW + c.idxW

/-- `PL(t)` of a tag (R13, R95). A number that is no tag has no payload; no rule asks for one. -/
def payloadLenAt (c : Cfg) (t : Nat) : Nat :=
  match catalogue[t]? with
  | some st => payloadLen c st
  | none => 0

/-- The catalogue entry of a legal tag (R104): `t < 8` and bit `t` of `STRAT_EN` set. -/
def legalEntry (c : Cfg) (t : Nat) : Option Strategy :=
  if c.enabled t then catalogue[t]? else none

/-! ### Field assembly -/

/-- `enc_k(v)` (R10): `k` digits, most significant first. -/
def enc : Nat → Nat → Bits
  | 0, _ => []
  | k + 1, v => v.testBit k :: enc k v

/-- `val(s)` (R10): the unsigned value of a digit string. -/
def val : Bits → Nat
  | [] => 0
  | d :: ds => d.toNat * 2 ^ ds.length + val ds

/-- `s[i +: k]` (R9). -/
def slice (s : Bits) (i k : Nat) : Bits := (s.drop i).take k

/-! ### Decoding -/

/-- What the unpacker finds at its cursor. -/
inductive Decoded where
  /-- A legal tag and a whole payload (R285), with the digits that follow it. -/
  | instr (i : Instr) (rest : Bits)
  /-- Fewer than `F` digits remain: the walk ends (R282). -/
  | exhausted
  /-- A zero tag followed by fewer digits than a Literal needs: row padding (R105, R284). -/
  | padding
  /-- A tag without an enabled catalogue entry (R104, R283), with the number of digits after it. -/
  | unknownTag (tag : Nat) (rem : Nat)
  /-- A legal non-zero tag followed by fewer digits than its payload (R284), with their number. -/
  | truncated (tag : Nat) (rem : Nat)
deriving DecidableEq, Repr

/-- Cut a payload into the fields of its format (R96 to R102). -/
def decodeFields (c : Cfg) (st : Strategy) (p : Bits) : Instr :=
  match st with
  | .lit => .lit p
  | .rle => .rle (val p)
  | .dir => .dir (val p)
  | .bmd => .bmd (val (slice p 0 c.offBm)) (slice p c.offBm c.maskW) (val (slice p (c.offBm + c.maskW) c.idxW))
  | .fm1 => .fm1 (val (slice p 0 c.offFm1)) (val (slice p c.offFm1 c.idxW))
  | .fm2 => .fm2 (val (slice p 0 c.offFm2)) (val (slice p c.offFm2 c.idxW))
  | .fm4 => .fm4 (val (slice p 0 c.offFm4)) (val (slice p c.offFm4 c.idxW))
  | .pmm => .pmm (val (slice p 0 c.posW)) (val (slice p c.posW c.posW)) (val (slice p (2 * c.posW) c.idxW))

/-- The unpacker's reading of the digits from its cursor on (R282 to R285), total on every digit string. -/
def decode (c : Cfg) (ds : Bits) : Decoded :=
  if ds.length < c.tagW then .exhausted
  else
    let t := val (ds.take c.tagW)
    let body := ds.drop c.tagW
    match legalEntry c t with
    | none => .unknownTag t body.length
    | some st =>
      if body.length < payloadLen c st then
        if t = 0 then .padding else .truncated t body.length
      else .instr (decodeFields c st (body.take (payloadLen c st))) (body.drop (payloadLen c st))

/-! ### Encoding -/

/-- The payload digits of an instruction (R96 to R101). -/
def encodePayload (c : Cfg) : Instr → Bits
  | .lit line => line
  | .rle count => enc c.runW count
  | .dir index => enc c.idxW index
  | .bmd offset mask index => enc c.offBm offset ++ mask ++ enc c.idxW index
  | .fm1 offset index => enc c.offFm1 offset ++ enc c.idxW index
  | .fm2 offset index => enc c.offFm2 offset ++ enc c.idxW index
  | .fm4 offset index => enc c.offFm4 offset ++ enc c.idxW index
  | .pmm pos1 pos2 index => enc c.posW pos1 ++ enc c.posW pos2 ++ enc c.idxW index

/-- The digits of one instruction: the tag in `F` digits, then the payload (R90). -/
def encode (c : Cfg) (i : Instr) : Bits := enc c.tagW (tagOf i.strategy) ++ encodePayload c i

/-- The number of digits of an instruction, known from its tag alone (R90, R91). -/
def instrLen (c : Cfg) (i : Instr) : Nat := c.tagW + payloadLen c i.strategy

/-! ### The numbering of spec/opcode_table.json

The table numbers the tag as an unsigned integer in bits `F-1 .. 0` and gives the payload no bits. The model takes
the payload as the next word, its digit string held in a register as R10 says (string index `i` of a `k`-digit
string is register bit `k-1-i`), counting on from bit `F` (DESIGN CHOICE, log 10). -/

/-- The digits of the instruction whose table bits are `w`, of which the low `nbits` are given and the rest are 0. -/
def tableDigits (c : Cfg) (nbits w : Nat) : Bits :=
  let v := w % 2 ^ nbits
  let t := v % 2 ^ c.tagW
  enc c.tagW t ++ enc (payloadLenAt c t) (v / 2 ^ c.tagW)

/-- The instruction the decoder reads from a table word, in the configuration the table is written in (`REF`). -/
def decodeTableWord (nbits w : Nat) : Option Instr :=
  match decode Cfg.ref (tableDigits Cfg.ref nbits w) with
  | .instr i _ => some i
  | _ => none

end Sys2Proof
end

