-- ==== Sys2Proof/Machine/State.lean ====
section
/-! DEFINITION. The state of the block (spec/10_state.md), what the host puts on its ports (spec/46_pass_control.md),
and the reasons a step can stop.

Each memory is a list whose length is its valid count (U9 of spec/93_implementation_defined.md), so the seven status
counters of R25 are views of State (Sys2Proof/Machine/Ops.lean) and nothing beyond a count can be read. -/

namespace Sys2Proof.Machine

/-- `mode` (R22). -/
inductive Mode where
  /-- COMPRESS. -/
  | compress
  /-- DECOMPRESS. -/
  | decompress
deriving DecidableEq, Repr

/-- `phase` (R23). -/
inductive Phase where
  /-- IDLE: waiting for a command. -/
  | idle
  /-- LOAD: taking input beats. -/
  | load
  /-- BUILD: the dictionary builder runs. -/
  | build
  /-- ENCODE: the encoder walks the input. -/
  | encode
  /-- PACK: the packer makes rows. -/
  | pack
  /-- DECODE: the unpacker walks the rows and the decoder runs instructions. -/
  | decode
  /-- EMIT: the output stage sends beats. -/
  | emit
  /-- DONE: the pass has ended with a result. -/
  | done
  /-- FAULT: the pass has ended without a result. -/
  | fault
deriving DecidableEq, Repr

/-- The fault kinds of R331; `none` is code 0. -/
inductive FaultKind where
  /-- No fault. -/
  | none
  /-- Code 1, raised by R303 and R136. -/
  | invalidConfig
  /-- Code 2, raised by R138. -/
  | outOfRange
  /-- Code 3, reserved for a text-level host adapter; no rule of the block raises it (R183, R335). -/
  | nonBinary
  /-- Code 4, raised by R283 and R284. -/
  | streamCorruption
  /-- Code 5, raised by R173, R174 and R182. -/
  | badField
  /-- Code 6, raised by R167. -/
  | noPriorLine
  /-- Code 7, raised by R305 and R308. -/
  | badFraming
  /-- Code 8, raised by R162, R223, R262, R305 and R308. -/
  | capacityExceeded
deriving DecidableEq, Repr

/-- `fault_info` (R24, R332): the record `(where, tag, aux)`. -/
structure FaultInfo where
  /-- `where`. -/
  loc : Nat
  /-- `tag`. -/
  tag : Nat
  /-- `aux`. -/
  aux : Nat
deriving DecidableEq, Repr

/-- One InstructionEntry of ETAB (R28). -/
structure Entry where
  /-- The distinct Line. -/
  value : Bits
  /-- The index of its first occurrence. -/
  first : Nat
  /-- How often it occurs. -/
  count : Nat
deriving DecidableEq, Repr

/-- One EncodedInstruction of IQ (R29). -/
structure EncInstr where
  /-- The tag. -/
  tag : Nat
  /-- The payload, `PL(tag)` digits. -/
  payload : Bits
deriving DecidableEq, Repr

/-- The beat kinds of R311. -/
inductive BeatKind where
  /-- LINE, code 0. -/
  | line
  /-- ROW, code 1. -/
  | row
  /-- SEP, code 2. -/
  | sep
  /-- DICT, code 3. -/
  | dict
  /-- END, code 4. -/
  | fin
deriving DecidableEq, Repr

/-- A beat (R311): its kind and the digits on the data bus, digit 0 the leftmost bus digit. -/
structure Beat where
  /-- The kind. -/
  kind : BeatKind
  /-- The bus digits. -/
  data : Bits
deriving DecidableEq, Repr

/-- The commands of R300. START comes with the configuration the host holds stable until the pass ends (R373), which
the block samples here: a configuration that changes during a pass cannot be expressed (R383, U12). -/
inductive Command where
  /-- START(m). -/
  | start (m : Mode) (c : Cfg)
  /-- CLEAR. -/
  | clear
deriving DecidableEq, Repr

/-- What the host puts on the ports for one step (R300, R312, R370). -/
structure Tick where
  /-- `rst` sampled high. -/
  rst : Bool := false
  /-- The command port, if a command is issued. -/
  cmd : Option Command := none
  /-- The input stream: `some b` is `in_valid` high with beat `b`. -/
  inBeat : Option Beat := none
  /-- `out_ready`. -/
  outReady : Bool := false
deriving DecidableEq, Repr

/-- A host that does nothing. -/
def Tick.idle : Tick := {}

/-- `part` of the LOAD loop of a DECOMPRESS pass (R308). -/
inductive LoadPart where
  /-- ROWS: before the separator. -/
  | rows
  /-- LISTING: after it. -/
  | listing
deriving DecidableEq, Repr

/-- The seven memories (R26 to R29, R60). -/
structure Memory where
  /-- LMEM, the line memory. -/
  lmem : List Bits
  /-- ETAB, the entry table, in order of first occurrence; kept after BUILD by the model's choice (log 19). -/
  etab : List Entry
  /-- DMEM, the dictionary memory. -/
  dmem : List Bits
  /-- IQ, the instruction queue, in emission order. -/
  iq : List EncInstr
  /-- FLAT, the flat bitstream. -/
  flat : Bits
  /-- RMEM, the row memory. -/
  rmem : List Bits
  /-- OMEM, the output line memory. -/
  omem : List Bits
deriving DecidableEq, Repr

/-- Every memory with its count 0. -/
def Memory.empty : Memory := ⟨[], [], [], [], [], [], []⟩

/-- The state of the block, and of the host's side of its ports. -/
structure State where
  /-- `Cfg` of the pass (R6, R20): sampled by START, constant until the next one. -/
  cfg : Cfg
  /-- `mode` (R22). -/
  mode : Mode
  /-- `phase` (R23). -/
  phase : Phase
  /-- `fault_code` (R24). -/
  faultCode : FaultKind
  /-- `fault_info` (R24). -/
  faultInfo : FaultInfo
  /-- The memories (R26 to R29). -/
  mem : Memory
  /-- `pos` (R30, R31). -/
  pos : Nat
  /-- `rle_valid` (R30, R33, R34). -/
  rleValid : Bool
  /-- `rle_last` (R30, R34): meaningful only when `rleValid`. -/
  rleLast : Bits
  /-- `best_valid` (R30, R33). -/
  bestValid : Bool
  /-- `best_tag` (R30): meaningful only when `bestValid`. -/
  bestTag : Nat
  /-- `best_payload` (R30). -/
  bestPayload : Bits
  /-- `best_consumed` (R30). -/
  bestConsumed : Nat
  /-- `cur` (R30, R32). -/
  cur : Nat
  /-- `part` (R308). -/
  loadPart : LoadPart
  /-- Input beats taken in this pass (R305, R308, R332). -/
  beatsTaken : Nat
  /-- Output beats of this pass the host has taken (R313). -/
  emitted : Nat
  /-- The model's own: the host's ticks still to come, one a step; empty means a host that does nothing. -/
  inputs : List Tick
  /-- The model's own: the beats the host has taken from the output stream, oldest first. -/
  sent : List Beat
deriving DecidableEq, Repr

/-- The one reason a step of the block stops without a next state. The fault kinds of R331 are no such reasons: taking
one is a next state with phase FAULT (R340). -/
inductive Fault where
  /-- Raised by the encoder's step when no enabled strategy is applicable at `pos`, where the spec gives no effect ("After
  the loop best_valid = 1", R222). Every valid `Cfg` enables LIT, so no pass reaches it. Safe: the model stops. -/
  | noCandidate
deriving DecidableEq, Repr

/-- Why an instruction would have no meaning here. -/
inductive Refusal where
  /-- An instruction of the table without a meaning yet, raised by an arm of `exec` only; no arm of this model raises
  it. Safe: the model stops. -/
  | notModelled (mnemonic : String)
deriving DecidableEq, Repr

/-- The state after reset (R36). `cfg`, `rleLast`, `bestTag`, `bestPayload` and `bestConsumed` have no reset value in the
spec: DESIGN CHOICE, logs 1 and 2; the last five fields are the model's own (logs 4 and 8). -/
def State.reset : State where
  cfg := Cfg.ref
  mode := .compress
  phase := .idle
  faultCode := .none
  faultInfo := ⟨0, 0, 0⟩
  mem := Memory.empty
  pos := 0
  rleValid := false
  rleLast := []
  bestValid := false
  bestTag := 0
  bestPayload := []
  bestConsumed := 0
  cur := 0
  loadPart := .rows
  beatsTaken := 0
  emitted := 0
  inputs := []
  sent := []

end Sys2Proof.Machine
end

