-- ==== Sys2Proof/Machine/Operands.lean ====
section
/-! DEFINITION. The operand transforms on Lines (spec/00_scope.md, rule R11), and the widths of bus and row elements
(R311, R263). -/

namespace Sys2Proof.Machine

/-- `xor(a, b)` of two strings of equal length (R11). -/
def xorBits (a b : Bits) : Bits := List.zipWith xor a b

/-- `place(n, s, m)` (R11): `m` laid over a zero Line of `n` digits so that `m[0]` lands at index `s`. -/
def place (n s : Nat) (m : Bits) : Bits := zeros s ++ m ++ zeros (n - s - m.length)

/-- `flip(e, i)` (R11): the digit at index `i` inverted. -/
def flip : Bits → Nat → Bits
  | [], _ => []
  | d :: ds, 0 => (!d) :: ds
  | d :: ds, i + 1 => d :: flip ds i

/-- A digit string completed with zeros on the right to `k` digits (R263). -/
def padTo (k : Nat) (ds : Bits) : Bits := ds ++ zeros (k - ds.length)

/-- The data bus is `max(N, W)` digits wide (R311). -/
def busWidth (c : Cfg) : Nat := max c.lineW c.rowW

/-- The element of `k` digits on the leftmost bus digits (R311); a digit the bus does not carry reads 0 (log 11). -/
def busElement (k : Nat) (ds : Bits) : Bits := (padTo k ds).take k

/-- A beat with its element on the leftmost bus digits and 0 on the others (R311). -/
def busBeat (c : Cfg) (k : BeatKind) (elem : Bits) : Beat := ⟨k, padTo (busWidth c) elem⟩

/-- The code of a beat kind (R311). -/
def kindCode : BeatKind → Nat
  | .line => 0
  | .row => 1
  | .sep => 2
  | .dict => 3
  | .fin => 4

/-- The value `fault_code` takes (R331). -/
def faultCodeOf : FaultKind → Nat
  | .none => 0
  | .invalidConfig => 1
  | .outOfRange => 2
  | .nonBinary => 3
  | .streamCorruption => 4
  | .badField => 5
  | .noPriorLine => 6
  | .badFraming => 7
  | .capacityExceeded => 8

/-- The result of a strategy's compress half (R161): the payload and how many Lines it stands for. -/
structure CompressionResult where
  /-- `payload`. -/
  payload : Bits
  /-- `linesConsumed`. -/
  consumed : Nat
deriving DecidableEq, Repr

end Sys2Proof.Machine
end

