-- ==== Sys2Proof/Machine/Ops.lean ====
section
/-! DEFINITION. The named operations over the state: the status counters, fault entry and the way out of FAULT, the
append of the decoder, and the lookup `get` (spec/10_state.md, spec/60_exceptions.md, spec/41_catalog_strategies.md). -/

namespace Sys2Proof.Machine

/-! ### The status counters (R25), each the length of its memory -/

/-- `n_lines`. -/
def State.nLines (s : State) : Nat := s.mem.lmem.length
/-- `n_entries`. -/
def State.nEntries (s : State) : Nat := s.mem.etab.length
/-- `dict_size`. -/
def State.dictSize (s : State) : Nat := s.mem.dmem.length
/-- `n_instr`. -/
def State.nInstr (s : State) : Nat := s.mem.iq.length
/-- `n_bits`. -/
def State.nBits (s : State) : Nat := s.mem.flat.length
/-- `n_rows`. -/
def State.nRows (s : State) : Nat := s.mem.rmem.length
/-- `n_out`. -/
def State.nOut (s : State) : Nat := s.mem.omem.length

/-- The test `n == MAX` of the capacity checks (R162, R223, R305, R308); an unbounded capacity is never reached (D22). -/
def atCapacity (cap : Option Nat) (n : Nat) : Bool := cap == some n

/-! ### The canonical form of the memories

The list form has no other junk than wrong widths and over-long memories: an element outside a count cannot be
written down. -/

/-- Every element has the width its space gives it (R26 to R29, R60, R67), an IQ record has a legal tag and a payload of
`PL(tag)` digits, and the dictionary is within `DICT_CAP` (R27). -/
def Memory.wf (c : Cfg) (m : Memory) : Bool :=
  m.lmem.all (fun x => x.length == c.lineW) && m.etab.all (fun e => e.value.length == c.lineW)
    && m.dmem.all (fun x => x.length == c.lineW) && decide (m.dmem.length ≤ c.dictCap)
    && m.iq.all (fun e => (legalEntry c e.tag).isSome && e.payload.length == payloadLenAt c e.tag)
    && m.rmem.all (fun x => x.length == c.rowW) && m.omem.all (fun x => x.length == c.lineW)

/-! ### Taking a fault and leaving FAULT -/

/-- Fault entry, `raise K(where, tag, aux)` (R340): "at once and as its only effect". Every fault of the block is taken
here. -/
def raise (k : FaultKind) (loc tag aux : Nat) (s : State) : State :=
  { s with faultCode := k, faultInfo := ⟨loc, tag, aux⟩, phase := .fault }

/-- The state reset leaves (R36, R370), also the effect of an accepted CLEAR (R372): the only way out of FAULT (R342).
The host's side of the ports is not the block's to reset ("beats already sent are not taken back", R370), and `Cfg` is no
state (R20; log 13). -/
def initialised (s : State) : State :=
  { State.reset with cfg := s.cfg, inputs := s.inputs, sent := s.sent }

/-! ### The decoder's memory operations -/

/-- Lines put at the end of OMEM. -/
def putOut (ys : List Bits) (s : State) : State := { s with mem := { s.mem with omem := s.mem.omem ++ ys } }

/-- The primitive `append(y)` (R162), raising for the instruction with tag `t`. -/
def append (t : Nat) (y : Bits) (s : State) : State :=
  if atCapacity s.cfg.maxLines s.nOut then raise .capacityExceeded s.cur t s.nOut s else putOut [y] s

/-- `k` appends of the same Line, stopping at the first fault (R167, R242). -/
def appendCopies (t : Nat) (y : Bits) : Nat → State → State
  | 0, s => s
  | k + 1, s =>
    if atCapacity s.cfg.maxLines s.nOut then append t y s
    else appendCopies t y k (append t y s)

/-- The lookup `get(j)` (R138) for the instruction with tag `t`: `use` runs on the entry, or `OutOfRange` is raised. -/
def withEntry (t j : Nat) (s : State) (use : Bits → State) : State :=
  match s.mem.dmem[j]? with
  | none => raise .outOfRange s.cur t j s
  | some e => use e

/-- The lookup `indexOf(x)` (R137): the smallest index that holds `x`. -/
def indexOf (dmem : List Bits) (x : Bits) : Option Nat :=
  if dmem.contains x then some (dmem.idxOf x) else none

/-- The unpacker's advance after DISPATCH has returned (R285): a fault leaves `cur` at the instruction. -/
def advanceCur (len : Nat) (s : State) : State :=
  if s.phase = .fault then s else { s with cur := s.cur + len }

/-! ### The host's ports -/

/-- What the host puts on the ports in this step. -/
def State.tick (s : State) : Tick := s.inputs.headD Tick.idle

/-- The state as the units see it: the tick of this step is used up. -/
def State.popTick (s : State) : State := { s with inputs := s.inputs.tail }

end Sys2Proof.Machine
end

