-- ==== Sys2Proof/Machine/Builder.lean ====
section
/-! DEFINITION. The dictionary builder unit FDB (spec/40_dictionary_builder.md): BUILD and the LOAD step. Its lookups
`indexOf` and `get` are in Ops.lean. -/

namespace Sys2Proof.Machine

/-- One Line of the counting scan (R131): its entry is bumped, or a new entry is appended with `i` as first index. -/
def countLine (i : Nat) (x : Bits) : List Entry → List Entry
  | [] => [⟨x, i, 1⟩]
  | e :: es => if e.value = x then { e with count := e.count + 1 } :: es else e :: countLine i x es

/-- The counting scan over the Lines from index `i` on (R131). -/
def countFrom (i : Nat) : List Bits → List Entry → List Entry
  | [], es => es
  | x :: xs, es => countFrom (i + 1) xs (countLine i x es)

/-- The entry table of an input (R131). -/
def countLines (lines : List Bits) : List Entry := countFrom 0 lines []

/-- Entry `a` comes before entry `b` (R132): more occurrences, or as many and an earlier first one. -/
def ranksBefore (a b : Entry) : Bool :=
  decide (b.count < a.count) || (a.count == b.count && decide (a.first < b.first))

/-- Put an entry in its place in a ranked list. -/
def insertRanked (e : Entry) : List Entry → List Entry
  | [] => [e]
  | f :: fs => if ranksBefore e f then e :: f :: fs else f :: insertRanked e fs

/-- `RANK` (R132). The order is a strict total order, so the method does not matter. -/
def rank : List Entry → List Entry
  | [] => []
  | e :: es => insertRanked e (rank es)

/-- The dictionary of an entry table (R133): the values of the first `DICT_CAP` ranked entries. -/
def topValues (cap : Nat) (es : List Entry) : List Bits := ((rank es).take cap).map Entry.value

/-- BUILD (R130 to R133), the whole of phase BUILD (R304). Only the values go to DMEM (R133). The records of ETAB, counts and
first indices with them, then stay in ETAB until START, CLEAR or reset, although R133 says that they are not kept past
BUILD: DESIGN CHOICE, log 19. -/
def build (s : State) : State :=
  let es := countLines s.mem.lmem
  { s with mem := { s.mem with etab := es, dmem := topValues s.cfg.dictCap es }, phase := .encode }

/-- The LOAD step for one Line of the listing (R136). -/
def loadEntry (x : Bits) (s : State) : State :=
  if s.dictSize = s.cfg.dictCap then raise .invalidConfig s.dictSize 0 0 s
  else { s with mem := { s.mem with dmem := s.mem.dmem ++ [x] } }

end Sys2Proof.Machine
end

