-- ==== Sys2Proof/Machine/Direct.lean ====
section
/-! DEFINITION. DIR, tag 2, DictionaryDirect (spec/41_catalog_strategies.md, R168 to R170). -/

namespace Sys2Proof.Machine

/-- DIR compress (R169). -/
def compressDir (s : State) : Option CompressionResult :=
  match s.mem.lmem[s.pos]? with
  | none => none
  | some x =>
    match indexOf s.mem.dmem x with
    | none => none
    | some j => some ⟨enc s.cfg.idxW j, 1⟩

/-- DIR decompress (R170). -/
def execDir (index : Nat) (s : State) : Host.Outcome State Fault Refusal :=
  .next (withEntry (tagOf .dir) index s fun e => append (tagOf .dir) e s)

end Sys2Proof.Machine
end

