-- ==== Sys2Proof/Machine/Literal.lean ====
section
/-! DEFINITION. LIT, tag 0, Literal (spec/41_catalog_strategies.md, R163 and R164). -/

namespace Sys2Proof.Machine

/-- LIT compress (R163): always applicable where there is a Line. -/
def compressLit (s : State) : Option CompressionResult :=
  match s.mem.lmem[s.pos]? with
  | none => none
  | some x => some ⟨x, 1⟩

/-- LIT decompress (R164). -/
def execLit (line : Bits) (s : State) : Host.Outcome State Fault Refusal :=
  .next (append (tagOf .lit) line s)

end Sys2Proof.Machine
end

