-- ==== Sys2Proof/Machine/Bitmask.lean ====
section
/-! DEFINITION. BMD, tag 3, BitmaskDelta (spec/41_catalog_strategies.md, R171 to R173), and the search order tags 2 to 7
share (R168). -/

namespace Sys2Proof.Machine

/-- The search of R168: dictionary entries in ascending index order, the first that matches wins. -/
def searchEntries (dmem : List Bits) (f : Nat → Bits → Option CompressionResult) : Option CompressionResult :=
  dmem.zipIdx.findSome? fun ej => f ej.2 ej.1

/-- The mask values of R171 in scan order: `2^M - 1` down to 1. -/
def maskValues (m : Nat) : List Nat := (List.range (2 ^ m - 1)).reverse.map (· + 1)

/-- The scan of one entry (R171): mask values downward, for each the offsets at which the mask fits, upward. -/
def scanMasks (c : Cfg) (x e : Bits) : Option (Nat × Bits) :=
  (maskValues c.maskW).findSome? fun m =>
    (List.range (c.lineW + 1 - c.maskW)).findSome? fun s =>
      if xorBits e (place c.lineW s (enc c.maskW m)) = x then some (s, enc c.maskW m) else none

/-- BMD compress (R171), the exhaustive search. -/
def compressBmd (s : State) : Option CompressionResult :=
  match s.mem.lmem[s.pos]? with
  | none => none
  | some x =>
    searchEntries s.mem.dmem fun j e =>
      (scanMasks s.cfg x e).map fun sm => ⟨enc s.cfg.offBm sm.1 ++ sm.2 ++ enc s.cfg.idxW j, 1⟩

/-- BMD decompress (R173): field range, then lookup, then append. -/
def execBmd (offset : Nat) (mask : Bits) (index : Nat) (s : State) : Host.Outcome State Fault Refusal :=
  if s.cfg.lineW < offset + s.cfg.maskW then .next (raise .badField s.cur (tagOf .bmd) offset s)
  else .next (withEntry (tagOf .bmd) index s fun e =>
    append (tagOf .bmd) (xorBits e (place s.cfg.lineW offset mask)) s)

end Sys2Proof.Machine
end

