-- ==== Sys2Proof/Machine/Mismatch.lean ====
section
/-! DEFINITION. FM1, FM2 and FM4, tags 4 to 6, FixedMismatch(k) (spec/41_catalog_strategies.md, R174 to R180). -/

namespace Sys2Proof.Machine

/-- The scan of one entry (R174): the offsets at which `k` digits fit, upward. -/
def scanOffsets (c : Cfg) (k : Nat) (x e : Bits) : Option Nat :=
  (List.range (c.lineW + 1 - k)).findSome? fun s =>
    if xorBits e (place c.lineW s (ones k)) = x then some s else none

/-- `fm_compress(k, OFF, pos)` (R174). -/
def compressFm (k off : Nat) (s : State) : Option CompressionResult :=
  match s.mem.lmem[s.pos]? with
  | none => none
  | some x =>
    searchEntries s.mem.dmem fun j e =>
      (scanOffsets s.cfg k x e).map fun o => ⟨enc off o ++ enc s.cfg.idxW j, 1⟩

/-- `fm_decompress(k, OFF, t, payload)` (R174) on its fields: field range, then lookup, then append. -/
def execFm (k t offset index : Nat) (s : State) : State :=
  if s.cfg.lineW < offset + k then raise .badField s.cur t offset s
  else withEntry t index s fun e => append t (xorBits e (place s.cfg.lineW offset (ones k))) s

/-- FM1 compress (R175). -/
def compressFm1 (s : State) : Option CompressionResult := compressFm 1 s.cfg.offFm1 s

/-- FM2 compress (R177). -/
def compressFm2 (s : State) : Option CompressionResult := compressFm 2 s.cfg.offFm2 s

/-- FM4 compress (R179). -/
def compressFm4 (s : State) : Option CompressionResult := compressFm 4 s.cfg.offFm4 s

/-- FM1 decompress (R176). -/
def execFm1 (offset index : Nat) (s : State) : Host.Outcome State Fault Refusal :=
  .next (execFm 1 (tagOf .fm1) offset index s)

/-- FM2 decompress (R178). -/
def execFm2 (offset index : Nat) (s : State) : Host.Outcome State Fault Refusal :=
  .next (execFm 2 (tagOf .fm2) offset index s)

/-- FM4 decompress (R180). -/
def execFm4 (offset index : Nat) (s : State) : Host.Outcome State Fault Refusal :=
  .next (execFm 4 (tagOf .fm4) offset index s)

end Sys2Proof.Machine
end

