-- ==== Sys2Proof/Machine/Pair.lean ====
section
/-! DEFINITION. PMM, tag 7, PairMismatch (spec/41_catalog_strategies.md, R181 and R182). -/

namespace Sys2Proof.Machine

/-- The scan of one entry (R181): position 1 outer, position 2 inner, both upward, the positions different. -/
def scanPairs (c : Cfg) (x e : Bits) : Option (Nat × Nat) :=
  (List.range c.lineW).findSome? fun p1 =>
    (List.range c.lineW).findSome? fun p2 =>
      if p2 ≠ p1 ∧ flip (flip e p1) p2 = x then some (p1, p2) else none

/-- PMM compress (R181). -/
def compressPmm (s : State) : Option CompressionResult :=
  match s.mem.lmem[s.pos]? with
  | none => none
  | some x =>
    searchEntries s.mem.dmem fun j e =>
      (scanPairs s.cfg x e).map fun p => ⟨enc s.cfg.posW p.1 ++ enc s.cfg.posW p.2 ++ enc s.cfg.idxW j, 1⟩

/-- PMM decompress (R182): both positions, then lookup, then append; the flips are applied one after the other. -/
def execPmm (pos1 pos2 index : Nat) (s : State) : Host.Outcome State Fault Refusal :=
  if s.cfg.lineW ≤ pos1 then .next (raise .badField s.cur (tagOf .pmm) pos1 s)
  else if s.cfg.lineW ≤ pos2 then .next (raise .badField s.cur (tagOf .pmm) pos2 s)
  else .next (withEntry (tagOf .pmm) index s fun e => append (tagOf .pmm) (flip (flip e pos1) pos2) s)

end Sys2Proof.Machine
end

