-- ==== Sys2Proof/Machine/Flags.lean ====
section
/-! DEFINITION. The two flags of the block (spec/10_state.md, R33) and the registers they guard: the RunLength look-back
memory (`rle_valid`, `rle_last`; R34, R165) and the best-candidate registers (`best_valid` and the rest; R222).
There are no condition codes, and no instruction reads or writes a flag when it is decoded (R33). -/

namespace Sys2Proof.Machine

/-- A failed look-back clears the RunLength memory (R165). -/
def clearRun (s : State) : State := { s with rleValid := false }

/-- A RunLength result is remembered, selected or not (R165, D12). -/
def rememberRun (x : Bits) (s : State) : State := { s with rleValid := true, rleLast := x }

/-- The anti-thrash test `rle_valid == 1 and rle_last == x` (R165). -/
def runRemembered (x : Bits) (s : State) : Bool := s.rleValid && s.rleLast == x

/-- Each selection begins without a candidate (R222). -/
def clearBest (s : State) : State := { s with bestValid := false }

/-- A candidate of tag `t` is kept if it is the first or strictly cheaper than the best so far (R222): the cost is the
payload length alone, and the earlier tag wins ties. -/
def offerBest (t : Nat) (r : CompressionResult) (s : State) : State :=
  if !s.bestValid || decide (payloadLenAt s.cfg t < payloadLenAt s.cfg s.bestTag) then
    { s with bestValid := true, bestTag := t, bestPayload := r.payload, bestConsumed := r.consumed }
  else s

end Sys2Proof.Machine
end

