-- ==== Sys2Proof/Machine/RunLength.lean ====
section
/-! DEFINITION. RLE, tag 1, RunLength (spec/41_catalog_strategies.md, R165 to R167). -/

namespace Sys2Proof.Machine

/-- How many Lines at the head of a list equal `x`, at most `cap` (the look-ahead of R165). -/
def runCount (x : Bits) : Nat → List Bits → Nat
  | 0, _ => 0
  | _ + 1, [] => 0
  | cap + 1, y :: ys => if y = x then runCount x cap ys + 1 else 0

/-- RLE compress (R165): the result and the RunLength memory it leaves. -/
def compressRle (s : State) : State × Option CompressionResult :=
  match s.mem.lmem[s.pos]? with
  | none => (s, none)
  | some x =>
    if s.pos = 0 ∨ s.mem.lmem[s.pos - 1]? ≠ some x then (clearRun s, none)
    else if runRemembered x s then (s, none)
    else
      let count := runCount x (2 ^ s.cfg.runW - 1) (s.mem.lmem.drop (s.pos + 1))
      (rememberRun x s, some ⟨enc s.cfg.runW count, count + 1⟩)

/-- RLE decompress (R167): the last decoded Line is read, not removed (C1), and `count + 1` copies are appended. -/
def execRle (count : Nat) (s : State) : Host.Outcome State Fault Refusal :=
  match s.mem.omem.getLast? with
  | none => .next (raise .noPriorLine s.cur (tagOf .rle) count s)
  | some y => .next (appendCopies (tagOf .rle) y (count + 1) s)

end Sys2Proof.Machine
end

