-- ==== Sys2Proof/Machine/Encoder.lean ====
section
/-! DEFINITION. The encoder unit SCE, the cost-competitive selector (spec/42_encoder_selector.md). -/

namespace Sys2Proof.Machine

/-- `compress_t(pos)` of one strategy (R161): only RLE writes state. -/
def evaluate (st : Strategy) (s : State) : State × Option CompressionResult :=
  match st with
  | .lit => (s, compressLit s)
  | .rle => compressRle s
  | .dir => (s, compressDir s)
  | .bmd => (s, compressBmd s)
  | .fm1 => (s, compressFm1 s)
  | .fm2 => (s, compressFm2 s)
  | .fm4 => (s, compressFm4 s)
  | .pmm => (s, compressPmm s)

/-- One turn of the selection loop (R221, R222): an enabled strategy is evaluated and a result offered; a disabled one has
no effect. -/
def consider (s : State) (st : Strategy) : State :=
  if s.cfg.enabled (tagOf st) then
    match evaluate st s with
    | (s1, none) => s1
    | (s1, some r) => offerBest (tagOf st) r s1
  else s

/-- Selection at the current position (R222): every enabled strategy in catalogue order. -/
def select (s : State) : State := catalogue.foldl consider (clearBest s)

/-- Emission of the winner (R223) and advance (R224). `MAX_INSTR` is `MAX_LINES` (D22). -/
def emitBest (s : State) : State :=
  if atCapacity s.cfg.maxLines s.nInstr then raise .capacityExceeded s.pos s.bestTag s.nInstr s
  else
    { s with
      mem := { s.mem with iq := s.mem.iq ++ [⟨s.bestTag, s.bestPayload⟩] }
      pos := s.pos + s.bestConsumed }

/-- One step of phase ENCODE (R220, R225): a selection at `pos`, or the end of the walk. -/
def encodeStep (s : State) : Host.Outcome State Fault Refusal :=
  if s.pos < s.nLines then
    if (select s).bestValid then .next (emitBest (select s)) else .fault .noCandidate
  else .next { s with phase := .pack }

end Sys2Proof.Machine
end

