-- ==== Sys2Proof/Machine/Dispatch.lean ====
section
/-! DEFINITION. DISPATCH (spec/43_decoder_dispatch.md, R240): one arm per instruction, the decompress half of each. -/

namespace Sys2Proof.Machine

def exec (i : Instr) (s : State) : Host.Outcome State Fault Refusal :=
  match i with
  | .lit line => Sys2Proof.Machine.execLit line s
  | .rle count => Sys2Proof.Machine.execRle count s
  | .dir index => Sys2Proof.Machine.execDir index s
  | .bmd offset mask index => Sys2Proof.Machine.execBmd offset mask index s
  | .fm1 offset index => Sys2Proof.Machine.execFm1 offset index s
  | .fm2 offset index => Sys2Proof.Machine.execFm2 offset index s
  | .fm4 offset index => Sys2Proof.Machine.execFm4 offset index s
  | .pmm pos1 pos2 index => Sys2Proof.Machine.execPmm pos1 pos2 index s

end Sys2Proof.Machine
end

