-- ==== Sys2Proof/Machine/Packer.lean ====
section
/-! DEFINITION. The bitstream packer unit BSP (spec/44_bitstream_packer.md). -/

namespace Sys2Proof.Machine

/-- PACK step 1 (R261): every instruction of the queue, in order, with nothing between them. -/
def concatInstrs (c : Cfg) (iq : List EncInstr) : Bits := iq.flatMap fun e => enc c.tagW e.tag ++ e.payload

/-- `ceil(n / w)` (R262). -/
def ceilDiv (n w : Nat) : Nat := (n + w - 1) / w

/-- PACK steps 2 and 3 (R262, R263): rows of `w` digits, the last completed with zeros. -/
def rowsOf (w : Nat) (flat : Bits) : List Bits :=
  (List.range (ceilDiv flat.length w)).map fun r => padTo w (slice flat (r * w) w)

/-- Whether a count passes a capacity (R262). -/
def exceeds (cap : Option Nat) (n : Nat) : Bool :=
  match cap with
  | none => false
  | some m => decide (m < n)

/-- PACK (R260 to R263), the whole of phase PACK (R304). -/
def pack (s : State) : State :=
  let flat := concatInstrs s.cfg s.mem.iq
  let nRows := ceilDiv flat.length s.cfg.rowW
  let s1 := { s with mem := { s.mem with flat := flat } }
  if exceeds s.cfg.maxRows nRows then raise .capacityExceeded flat.length 0 nRows s1
  else { s1 with mem := { s1.mem with rmem := rowsOf s.cfg.rowW flat }, phase := .emit }

end Sys2Proof.Machine
end

