-- ==== Sys2Proof/Machine/Unpacker.lean ====
section
/-! DEFINITION. The bitstream unpacker unit BSU (spec/45_bitstream_unpacker.md): reassembly, and one turn of the walk with
the decoder's DISPATCH inside it. -/

namespace Sys2Proof.Machine

/-- UNPACK step 1 (R281): FLAT is all rows in order; `cur` and `n_out` are 0 on entry (R280). -/
def enterDecode (s : State) : State :=
  { s with mem := { s.mem with flat := s.mem.rmem.flatten }, phase := .decode }

/-- The instruction at the cursor, or how the walk ends there (R282 to R285). -/
def fetch (s : State) : Decoded := decode s.cfg (s.mem.flat.drop s.cur)

/-- What follows DISPATCH (R285): `cur` moves past the instruction unless it raised a fault. -/
def retire (len : Nat) : Host.Outcome State Fault Refusal → Host.Outcome State Fault Refusal
  | .next s => .next (advanceCur len s)
  | .fault r => .fault r
  | .refused r => .refused r

/-- The end of the walk: the output stage takes over (R302, R307). -/
def endWalk (s : State) : State := { s with phase := .emit }

/-- One turn of the walk (R282 to R285, R288). -/
def unpackStep (s : State) : Host.Outcome State Fault Refusal :=
  match fetch s with
  | .exhausted => .next (endWalk s)
  | .padding => .next (endWalk s)
  | .unknownTag t rem => .next (raise .streamCorruption s.cur t rem s)
  | .truncated t rem => .next (raise .streamCorruption s.cur t rem s)
  | .instr i _ => retire (instrLen s.cfg i) (exec i s)

/-- A digit string as the whole program of a DECOMPRESS pass that has just entered DECODE: its rows, FLAT made of them,
the cursor at 0, and no host action to come. -/
def placeProgram (ds : Bits) (s : State) : State :=
  { s with
    mode := .decompress
    phase := .decode
    cur := 0
    inputs := []
    mem := { s.mem with rmem := rowsOf s.cfg.rowW ds, flat := (rowsOf s.cfg.rowW ds).flatten } }

end Sys2Proof.Machine
end

