-- ==== Sys2Proof/Machine/PassControl.lean ====
section
/-! DEFINITION. Pass control (spec/46_pass_control.md): the configuration check, the commands, the LOAD loops, the output
stage and the status port. -/

namespace Sys2Proof.Machine

/-! ### The configuration check -/

/-- Bit `tag(st)` of `STRAT_EN` (R8). -/
def uses (c : Cfg) (st : Strategy) : Bool := c.enabled (tagOf st)

/-- The constraints of the table of R6, row 1 (`N`) to row 13 (`STRAT_EN`), each true when it holds. -/
def cfgRows (c : Cfg) : List Bool :=
  [ decide (1 ≤ c.lineW),
    decide (1 ≤ c.rowW ∧ c.rowW ≤ c.tagW + c.lineW),
    decide (1 ≤ c.tagW),
    decide (1 ≤ c.idxW),
    decide (c.dictCap ≤ 2 ^ c.idxW),
    !uses c .rle || decide (1 ≤ c.runW),
    !uses c .bmd || decide (c.lineW - c.maskW ≤ 2 ^ c.offBm - 1),
    !uses c .bmd || decide (1 ≤ c.maskW ∧ c.maskW ≤ c.lineW),
    !uses c .fm1 || decide (c.lineW - 1 ≤ 2 ^ c.offFm1 - 1),
    !uses c .fm2 || decide (2 ≤ c.lineW ∧ c.lineW - 2 ≤ 2 ^ c.offFm2 - 1),
    !uses c .fm4 || decide (4 ≤ c.lineW ∧ c.lineW - 4 ≤ 2 ^ c.offFm4 - 1),
    !uses c .pmm || decide (2 ≤ c.lineW ∧ c.lineW - 1 ≤ 2 ^ c.posW - 1),
    uses c .lit && catalogue.all fun st => !uses c st || decide (tagOf st < 2 ^ c.tagW) ]

/-- `cfg_valid` (R8). -/
def cfgValid (c : Cfg) : Bool := (cfgRows c).all id

/-- The row number of the first violated constraint (R303), counting from 1. -/
def cfgViolation (c : Cfg) : Nat := (cfgRows c).idxOf false + 1

/-! ### Commands -/

/-- The effect of an accepted START (R301), with the check of R303. -/
def start (m : Mode) (c : Cfg) (s : State) : State :=
  let s1 :=
    { s with
      cfg := c
      mode := m
      mem := Memory.empty
      pos := 0
      cur := 0
      rleValid := false
      bestValid := false
      faultCode := .none
      faultInfo := ⟨0, 0, 0⟩
      loadPart := .rows
      beatsTaken := 0
      emitted := 0
      phase := .load }
  if cfgValid c then s1 else raise .invalidConfig 0 0 (cfgViolation c) s1

/-- A command in phase IDLE, DONE or FAULT (R301, R302, R372): START needs IDLE or DONE; CLEAR acts in DONE and FAULT and
has no effect in IDLE. In the phases of a running pass both are ignored (R383): the step does not look at them. -/
def command (cmd : Option Command) (s : State) : State :=
  match cmd with
  | none => s
  | some (.start m c) => if s.phase = .fault then s else start m c s
  | some .clear => if s.phase = .idle then s else initialised s

/-! ### Phase LOAD -/

/-- The count of taken beats moves on, unless the beat raised a fault (R305, R308: "number of beats taken before b"). -/
def countBeat (s : State) : State :=
  if s.phase = .fault then s else { s with beatsTaken := s.beatsTaken + 1 }

/-- A beat of a kind not allowed at this point (R305, R308, R332). -/
def badFraming (b : Beat) (s : State) : State := raise .badFraming s.beatsTaken 0 (kindCode b.kind) s

/-- LOAD of a COMPRESS pass, one beat (R305). -/
def loadCompress (b : Beat) (s : State) : State :=
  match b.kind with
  | .line =>
    if atCapacity s.cfg.maxLines s.nLines then raise .capacityExceeded s.nLines 0 0 s
    else { s with mem := { s.mem with lmem := s.mem.lmem ++ [busElement s.cfg.lineW b.data] } }
  | .fin => { s with phase := .build }
  | .row => badFraming b s
  | .sep => badFraming b s
  | .dict => badFraming b s

/-- LOAD of a DECOMPRESS pass, one beat (R308). -/
def loadDecompress (b : Beat) (s : State) : State :=
  match s.loadPart, b.kind with
  | .rows, .row =>
    if atCapacity s.cfg.maxRows s.nRows then raise .capacityExceeded s.nRows 0 1 s
    else { s with mem := { s.mem with rmem := s.mem.rmem ++ [busElement s.cfg.rowW b.data] } }
  | .rows, .sep => { s with loadPart := .listing }
  | .listing, .dict => loadEntry (busElement s.cfg.lineW b.data) s
  | .listing, .fin => enterDecode s
  | .rows, .line => badFraming b s
  | .rows, .dict => badFraming b s
  | .rows, .fin => badFraming b s
  | .listing, .line => badFraming b s
  | .listing, .row => badFraming b s
  | .listing, .sep => badFraming b s

/-- A beat taken in phase LOAD (R305, R308). -/
def loadBeat (b : Beat) (s : State) : State :=
  match s.mode with
  | .compress => countBeat (loadCompress b s)
  | .decompress => countBeat (loadDecompress b s)

/-- Phase LOAD, one step (R312): a beat is taken if the host offers one. -/
def loadStep (inBeat : Option Beat) (s : State) : State :=
  match inBeat with
  | none => s
  | some b => loadBeat b s

/-! ### Phase EMIT -/

/-- The output beats of a pass, in order (R313, R140, R264). -/
def outputBeats (s : State) : List Beat :=
  match s.mode with
  | .compress =>
    s.mem.rmem.map (busBeat s.cfg .row) ++ [busBeat s.cfg .sep []] ++ s.mem.dmem.map (busBeat s.cfg .dict)
      ++ [busBeat s.cfg .fin []]
  | .decompress => s.mem.omem.map (busBeat s.cfg .line) ++ [busBeat s.cfg .fin []]

/-- `in_ready`: high only in phase LOAD (R312). R312 does not say that it is high all through LOAD; that it is, in every step
of that phase, is the model's: DESIGN CHOICE, log 20. So is that the level follows the phase alone, and is low for a sampled
`rst` (R370) from the next state on only: DESIGN CHOICE, log 21. -/
def inReady (s : State) : Bool := decide (s.phase = .load)

/-- The beat on the output stream, if `out_valid` is high: only in phase EMIT (R312 to R314). That it is high in every step of
EMIT is the model's: DESIGN CHOICE, log 20. So is that a sampled `rst` (R370) makes it low from the next state on only: DESIGN
CHOICE, log 21. -/
def outBeat (s : State) : Option Beat :=
  if s.phase = .emit then (outputBeats s)[s.emitted]? else none

/-- Phase EMIT, one step (R312, R313): the beat is transferred if the host is ready; after the END beat the pass is done. -/
def emitStep (outReady : Bool) (s : State) : State :=
  match outReady, outBeat s with
  | true, some b =>
    { s with
      sent := s.sent ++ [b]
      emitted := s.emitted + 1
      phase := if b.kind = .fin then .done else .emit }
  | _, _ => s

/-! ### The status port -/

/-- What the host can read at any time (R315). -/
structure Status where
  /-- `phase`. -/
  phase : Phase
  /-- `mode`. -/
  mode : Mode
  /-- `fault_code`. -/
  faultCode : Nat
  /-- `fault_info`. -/
  faultInfo : FaultInfo
  /-- `n_lines`, `n_entries`, `dict_size`, `n_instr`, `n_bits`, `n_rows`, `n_out` (R25). -/
  counters : List Nat
  /-- `done`. -/
  done : Bool
  /-- `fault`. -/
  fault : Bool
deriving DecidableEq, Repr

/-- The status port (R315): a view of the state, so reading it has no side effect. -/
def statusPort (s : State) : Status where
  phase := s.phase
  mode := s.mode
  faultCode := faultCodeOf s.faultCode
  faultInfo := s.faultInfo
  counters := [s.nLines, s.nEntries, s.dictSize, s.nInstr, s.nBits, s.nRows, s.nOut]
  done := decide (s.phase = .done)
  fault := decide (s.phase = .fault)

/-! ### The pass sequencer -/

/-- One step of the running phase on tick `t` (R302, R304, R307). -/
def phaseStep (t : Tick) (s : State) : Host.Outcome State Fault Refusal :=
  match s.phase with
  | .idle => .next (command t.cmd s)
  | .done => .next (command t.cmd s)
  | .fault => .next (command t.cmd s)
  | .load => .next (loadStep t.inBeat s)
  | .build => .next (build s)
  | .encode => encodeStep s
  | .pack => .next (pack s)
  | .decode => unpackStep s
  | .emit => .next (emitStep t.outReady s)

end Sys2Proof.Machine
end

