-- ==== Sys2Proof/Machine/Step.lean ====
section
/-! DEFINITION. One step of the block: the host's tick is used up; a sampled reset wins over everything (R370); otherwise
the running phase does its step. -/

namespace Sys2Proof.Machine

/-- One step. -/
def step (s : State) : Host.Outcome State Fault Refusal :=
  if s.tick.rst then .next (initialised s.popTick) else phaseStep s.tick s.popTick

/-- The instruction with table bits `w` as the whole program of a DECOMPRESS pass about to fetch (log 10): the very next
step runs it. -/
def State.withFetchWord (s : State) (nbits w : Nat) : State := placeProgram (tableDigits s.cfg nbits w) s

end Sys2Proof.Machine
end

