-- ==== Sys2Proof/WellFormed.lean ====
section
/-! DEFINITION. When an instruction can be written in a configuration (spec/30_encoding.md, rules R90, R96 to R104). -/

namespace Sys2Proof

/-- Every field fits the width its format gives it (R96 to R102). -/
def fieldsFit (c : Cfg) : Instr → Bool
  | .lit line => line.length == c.lineW
  | .rle count => decide (count < 2 ^ c.runW)
  | .dir index => decide (index < 2 ^ c.idxW)
  | .bmd offset mask index =>
    decide (offset < 2 ^ c.offBm) && mask.length == c.maskW && decide (index < 2 ^ c.idxW)
  | .fm1 offset index => decide (offset < 2 ^ c.offFm1) && decide (index < 2 ^ c.idxW)
  | .fm2 offset index => decide (offset < 2 ^ c.offFm2) && decide (index < 2 ^ c.idxW)
  | .fm4 offset index => decide (offset < 2 ^ c.offFm4) && decide (index < 2 ^ c.idxW)
  | .pmm pos1 pos2 index =>
    decide (pos1 < 2 ^ c.posW) && decide (pos2 < 2 ^ c.posW) && decide (index < 2 ^ c.idxW)

/-- The tag is enabled (R104), fits the tag field (R8), and every field fits. -/
def wellFormed (c : Cfg) (i : Instr) : Bool :=
  c.enabled (tagOf i.strategy) && decide (tagOf i.strategy < 2 ^ c.tagW) && fieldsFit c i

end Sys2Proof
end

