-- ==== Sys2Proof/Safety.lean ====
section
/-! DEFINITION. What claims about the block are said in: the invariant of its states, the host that runs one pass, and the
words the obligations share. -/

namespace Sys2Proof.Machine

/-- The phases of a running pass (R383). -/
def running : Phase → Bool
  | .load => true
  | .build => true
  | .encode => true
  | .pack => true
  | .decode => true
  | .emit => true
  | .idle => false
  | .done => false
  | .fault => false

/-- A count within a capacity (D22). -/
def withinCap (cap : Option Nat) (n : Nat) : Bool :=
  match cap with
  | none => true
  | some m => decide (n ≤ m)

/-- Room in OMEM for `k` more Lines (R162). -/
def hasRoom (s : State) (k : Nat) : Bool := withinCap s.cfg.maxLines (s.nOut + k)

/-- The host ports ask for nothing but what phase work needs: no reset in this step. -/
def noReset (s : State) : Prop := s.tick.rst = false

/-- What a claim may say of the state `t` in which the fault `k` with record `info` has been taken, starting from `s`: the
fault registers and the phase (R340), the constant configuration (R20), and that nothing was sent (R314). No claim may
depend on anything else in FAULT (R341). -/
def FaultEntered (k : FaultKind) (info : FaultInfo) (s t : State) : Prop :=
  t.phase = .fault ∧ t.faultCode = k ∧ t.faultInfo = info ∧ t.cfg = s.cfg ∧ t.sent = s.sent

/-- `o` is a next state in which the fault `k` with record `info` has been taken, starting from `s`. -/
def Raises (o : Host.Outcome State Fault Refusal) (k : FaultKind) (info : FaultInfo) (s : State) : Prop :=
  ∃ t, o = .next t ∧ FaultEntered k info s t

/-- `y` is `e` with exactly the digits at the indices in `p` inverted, digit for digit (R11). -/
def FlippedAt (p : Nat → Bool) (e y : Bits) : Prop := ∀ i, y[i]? = (e[i]?).map fun d => d ^^ p i

/-- OMEM with the Lines `ys` put at its end, and nothing else changed. -/
def withLines (s : State) (ys : List Bits) : State := { s with mem := { s.mem with omem := s.mem.omem ++ ys } }

/-- What `append` (R162) makes of the Line `y` for tag `t`: `o` is the state with `y` at the end of OMEM and nothing else
changed, or the fault CapacityExceeded if OMEM is full. -/
def AppendsOrOverflows (o : Host.Outcome State Fault Refusal) (t : Nat) (y : Bits) (s : State) : Prop :=
  (s.cfg.maxLines ≠ some s.nOut → o = .next (withLines s [y]))
  ∧ (s.cfg.maxLines = some s.nOut → Raises o .capacityExceeded ⟨s.cur, t, s.nOut⟩ s)

/-- Line `a` comes before Line `b` in the dictionary order of an input (R27, R132). -/
def MoreCommon (lines : List Bits) (a b : Bits) : Prop :=
  lines.count b < lines.count a ∨ (lines.count a = lines.count b ∧ lines.idxOf a < lines.idxOf b)

/-- The invariant of the block. In FAULT nothing is said of the abandoned pass (R341). -/
structure Inv (s : State) : Prop where
  /-- A pass runs only with a valid configuration (R303, R333). -/
  cfgOk : running s.phase = true → cfgValid s.cfg = true
  /-- The memories keep their canonical form (R26 to R29, R67). -/
  memWf : s.phase ≠ .fault → s.mem.wf s.cfg = true
  /-- `pos <= n_lines` (R30, R31). -/
  posLe : s.phase ≠ .fault → s.pos ≤ s.nLines
  /-- `cur <= n_bits` (R30, R32). -/
  curLe : s.phase ≠ .fault → s.cur ≤ s.nBits
  /-- The cursor is 0 until the walk begins (R280, R301). -/
  curZero : running s.phase = true → s.phase ≠ .decode → s.phase ≠ .emit → s.cur = 0
  /-- A remembered run value is a Line (R30). -/
  runWf : s.phase ≠ .fault → s.rleValid = true → s.rleLast.length = s.cfg.lineW
  /-- A fault is recorded exactly in FAULT (R24, R340, R342). -/
  faultIff : s.phase = .fault ↔ s.faultCode ≠ .none
  /-- No rule raises code 3 (R183, R335). -/
  notNonBinary : s.faultCode ≠ .nonBinary
  /-- Without a fault the fault record is zero (R24). -/
  infoZero : s.phase ≠ .fault → s.faultInfo = ⟨0, 0, 0⟩
  /-- In IDLE every count, cursor and flag is 0 (R36). -/
  idleEmpty : s.phase = .idle →
    s.mem = Memory.empty ∧ s.pos = 0 ∧ s.cur = 0 ∧ s.rleValid = false ∧ s.bestValid = false
  /-- Within capacity (D22). -/
  capacity : s.phase ≠ .fault →
    withinCap s.cfg.maxLines s.nLines = true ∧ withinCap s.cfg.maxLines s.nOut = true
      ∧ withinCap s.cfg.maxRows s.nRows = true
  /-- One instruction per consumed Line at most (R227). -/
  queueLe : s.phase ≠ .fault → s.nInstr ≤ s.pos
  /-- Each unit runs only in its direction (R304, R307). -/
  modeOk : (s.phase = .build ∨ s.phase = .encode ∨ s.phase = .pack → s.mode = .compress)
    ∧ (s.phase = .decode → s.mode = .decompress)
  /-- During DECODE the program is the rows (R73, R281). -/
  flatRows : s.phase = .decode → s.mem.flat = s.mem.rmem.flatten
  /-- Nothing of a pass is sent before EMIT, and END is the last beat (R313, R314). -/
  emitOk : (s.phase = .emit → s.emitted < (outputBeats s).length)
    ∧ (running s.phase = true → s.phase ≠ .emit → s.emitted = 0)

/-! ### Closed forms of the searches -/

/-- Index of the last 1 of a digit string. -/
def lastOne (d : Bits) : Nat := d.length - 1 - d.reverse.idxOf true

/-- The closed form of the BMD scan of one entry (R172): the window of `MASK_W` digits that covers every difference and
starts as far right as it may. -/
def maskWindow (c : Cfg) (x e : Bits) : Option (Nat × Bits) :=
  let d := xorBits e x
  let o := min (d.idxOf true) (c.lineW - c.maskW)
  if d.contains true && decide (lastOne d - d.idxOf true + 1 ≤ c.maskW) then some (o, slice d o c.maskW) else none

/-- The closed form of the FixedMismatch(k) scan of one entry (R175, R177, R179): exactly `k` differing digits, contiguous. -/
def contiguousAt (k : Nat) (x e : Bits) : Option Nat :=
  let d := xorBits e x
  if d.count true == k && slice d (d.idxOf true) k == ones k then some (d.idxOf true) else none

/-- The closed form of the PMM scan of one entry (R181): exactly two differing digits. -/
def differingPair (x e : Bits) : Option (Nat × Nat) :=
  let d := xorBits e x
  if d.count true == 2 then some (d.idxOf true, lastOne d) else none

/-! ### The configuration table -/

/-- Row `k` of the table of R6, counting from 1 (`N`) to 13 (`STRAT_EN`) as R303 does, the differences written as sums: its
constraint on `c`. A number that is no row constrains nothing. -/
def CfgConstraint (c : Cfg) : Nat → Prop
  | 1 => 1 ≤ c.lineW
  | 2 => 1 ≤ c.rowW ∧ c.rowW ≤ c.tagW + c.lineW
  | 3 => 1 ≤ c.tagW
  | 4 => 1 ≤ c.idxW
  | 5 => c.dictCap ≤ 2 ^ c.idxW
  | 6 => c.enabled 1 = true → 1 ≤ c.runW
  | 7 => c.enabled 3 = true → c.lineW < c.maskW + 2 ^ c.offBm
  | 8 => c.enabled 3 = true → 1 ≤ c.maskW ∧ c.maskW ≤ c.lineW
  | 9 => c.enabled 4 = true → c.lineW < 1 + 2 ^ c.offFm1
  | 10 => c.enabled 5 = true → 2 ≤ c.lineW ∧ c.lineW < 2 + 2 ^ c.offFm2
  | 11 => c.enabled 6 = true → 4 ≤ c.lineW ∧ c.lineW < 4 + 2 ^ c.offFm4
  | 12 => c.enabled 7 = true → 2 ≤ c.lineW ∧ c.lineW < 1 + 2 ^ c.posW
  | 13 => c.enabled 0 = true ∧ ∀ t, c.enabled t = true → t < 2 ^ c.tagW
  | _ => True

/-! ### The result of a COMPRESS pass as a function (R306) -/

/-- The loop of R225 from the current position on, with at most `n` selections. -/
def encodeLoop : Nat → State → State
  | 0, s => s
  | n + 1, s => if s.pos < s.nLines then encodeLoop n (emitBest (select s)) else s

/-- `ENCODE(D, lines)` of R306, as the queue it leaves; one selection per Line is enough (R227). -/
def encodeQueue (c : Cfg) (dict lines : List Bits) : List EncInstr :=
  (encodeLoop lines.length
    { State.reset with cfg := c, mem := { Memory.empty with lmem := lines, dmem := dict } }).mem.iq

/-- `BUILD(lines)` of R306. -/
def listingOf (c : Cfg) (lines : List Bits) : List Bits := topValues c.dictCap (countLines lines)

/-- `PACK(ENCODE(BUILD(lines), lines))` of R306. -/
def rowsOfLines (c : Cfg) (lines : List Bits) : List Bits :=
  rowsOf c.rowW (concatInstrs c (encodeQueue c (listingOf c lines) lines))

/-! ### The phase graph -/

/-- Where one step without a reset may lead, in mode `m` (R302). -/
def phaseEdge (m : Mode) : Phase → Phase → Bool
  | .idle, q => q == .idle || q == .load || q == .fault
  | .load, q => q == .load || q == .fault || (m == .compress && q == .build) || (m == .decompress && q == .decode)
  | .build, q => q == .encode
  | .encode, q => q == .encode || q == .pack || q == .fault
  | .pack, q => q == .emit || q == .fault
  | .decode, q => q == .decode || q == .emit || q == .fault
  | .emit, q => q == .emit || q == .done
  | .done, q => q == .done || q == .idle || q == .load || q == .fault
  | .fault, q => q == .fault || q == .idle

/-! ### A host that runs one pass -/

/-- The block after reset, and a host that issues START, feeds `beats` and then takes output for `n` steps (R373). -/
def hostPass (c : Cfg) (m : Mode) (beats : List Beat) (n : Nat) : State :=
  { State.reset with
    inputs := { cmd := some (.start m c) } :: (beats.map fun b => { inBeat := some b })
      ++ List.replicate n { outReady := true } }

/-- The input of a COMPRESS pass and the output of a DECOMPRESS pass for a list of Lines (R305, R313). -/
def lineBeats (c : Cfg) (lines : List Bits) : List Beat :=
  lines.map (busBeat c .line) ++ [busBeat c .fin []]

/-- The artifact as a beat sequence (R306, R264). -/
def artifactBeats (c : Cfg) (rows dict : List Bits) : List Beat :=
  rows.map (busBeat c .row) ++ [busBeat c .sep []] ++ dict.map (busBeat c .dict) ++ [busBeat c .fin []]

end Sys2Proof.Machine
end

