-- ==== Sys2Proof/Certificates/Slice0/Obligations.lean ====
section
/-! DEFINITION. The statements for the provers, in the order of OBLIGATIONS.json: encoding, the unpacker, the eight
instructions, the encoder, the dictionary builder, the packer, pass control, the whole block. -/

open Sys2Proof Sys2Proof.Machine

/-! ### Encoding (spec/30_encoding.md) -/

/-- Decoding the digits of a well-formed instruction gives the instruction and the digits after it (R90, R91, R96 to
R102): no digit of an encoding is dropped, and the length is known from the tag. -/
def Obligations.DecodeOfEncode : Prop :=
  ∀ (c : Cfg) (i : Instr) (rest : Bits), wellFormed c i = true → decode c (encode c i ++ rest) = .instr i rest

/-- Each digit string has one reading: what decodes to an instruction is exactly the encoding of that instruction, well
formed, followed by the rest (read from R90, R102, R104 and R106 together). -/
def Obligations.DecodedInstrIsEncoded : Prop :=
  ∀ (c : Cfg) (ds : Bits) (i : Instr) (rest : Bits),
    decode c ds = .instr i rest → wellFormed c i = true ∧ ds = encode c i ++ rest

/-- The catalogue of R93: eight entries, their tags and payload lengths. -/
def Obligations.TagMapAndPayloadLengths : Prop :=
  ∀ c : Cfg,
    catalogue.length = 8
    ∧ (tagOf .lit = 0 ∧ payloadLen c .lit = c.lineW)
    ∧ (tagOf .rle = 1 ∧ payloadLen c .rle = c.runW)
    ∧ (tagOf .dir = 2 ∧ payloadLen c .dir = c.idxW)
    ∧ (tagOf .bmd = 3 ∧ payloadLen c .bmd = c.offBm + c.maskW + c.idxW)
    ∧ (tagOf .fm1 = 4 ∧ payloadLen c .fm1 = c.offFm1 + c.idxW)
    ∧ (tagOf .fm2 = 5 ∧ payloadLen c .fm2 = c.offFm2 + c.idxW)
    ∧ (tagOf .fm4 = 6 ∧ payloadLen c .fm4 = c.offFm4 + c.idxW)
    ∧ (tagOf .pmm = 7 ∧ payloadLen c .pmm = 2 * c.posW + c.idxW)

/-- The formats of R96 to R101, field after field. -/
def Obligations.FormatsOfTheEightInstructions : Prop :=
  ∀ (c : Cfg) (line mask : Bits) (count index offset pos1 pos2 : Nat),
    encode c (.lit line) = enc c.tagW 0 ++ line
    ∧ encode c (.rle count) = enc c.tagW 1 ++ enc c.runW count
    ∧ encode c (.dir index) = enc c.tagW 2 ++ enc c.idxW index
    ∧ encode c (.bmd offset mask index)
        = enc c.tagW 3 ++ (enc c.offBm offset ++ mask ++ enc c.idxW index)
    ∧ encode c (.fm1 offset index) = enc c.tagW 4 ++ (enc c.offFm1 offset ++ enc c.idxW index)
    ∧ encode c (.fm2 offset index) = enc c.tagW 5 ++ (enc c.offFm2 offset ++ enc c.idxW index)
    ∧ encode c (.fm4 offset index) = enc c.tagW 6 ++ (enc c.offFm4 offset ++ enc c.idxW index)
    ∧ encode c (.pmm pos1 pos2 index)
        = enc c.tagW 7 ++ (enc c.posW pos1 ++ enc c.posW pos2 ++ enc c.idxW index)

/-- Words written out from the spec's examples in `SMALL` (V-BMD-1, V-FM1-1, V-PMM-1 and program P1 of
spec/95_test_vectors.md) decode to the instructions they stand for. -/
def Obligations.WrittenWordsDecode : Prop :=
  let o := false
  let l := true
  decode Cfg.small [o, l, o, o, o] = .instr (.dir 0) []
  ∧ decode Cfg.small [o, o, l, o, l] = .instr (.rle 1) []
  ∧ decode Cfg.small [o, l, l, o, l, o, l, l, o, l, o, o, o] = .instr (.bmd 5 [l, o, l, o] 0) []
  ∧ decode Cfg.small [l, o, o, l, l, l, l, o, o] = .instr (.fm1 15 0) []
  ∧ decode Cfg.small [l, l, l, o, o, l, o, l, l, o, l, o, o] = .instr (.pmm 2 13 0) []

/-! ### The unpacker (spec/45_bitstream_unpacker.md) -/

/-- A step in DECODE runs the instruction at the cursor: `exec` of it, then the cursor moves past its digits unless it
raised a fault (R285). The step uses up the host's tick. -/
def Obligations.StepRunsDecodedInstr : Prop :=
  ∀ (s t : State) (i : Instr) (rest : Bits),
    s.phase = .decode → noReset s → fetch s = .instr i rest → exec i s.popTick = .next t →
      step s = .next (if t.phase = .fault then t else { t with cur := t.cur + (s.cfg.tagW + payloadLen s.cfg i.strategy) })

/-- Fewer than `F` digits remain: the walk ends and nothing else happens (R282). -/
def Obligations.WalkEndsOnShortTail : Prop :=
  ∀ s : State, s.phase = .decode → noReset s → s.nBits - s.cur < s.cfg.tagW →
    step s = .next { s with inputs := s.inputs.tail, phase := .emit }

/-- An unknown or disabled tag raises StreamCorruption wherever it is met (R283). -/
def Obligations.UnknownTagIsStreamCorruption : Prop :=
  ∀ (s : State) (t : Nat), s.phase = .decode → noReset s → s.cfg.tagW ≤ s.nBits - s.cur →
    t = val (slice s.mem.flat s.cur s.cfg.tagW) → (8 ≤ t ∨ s.cfg.enabled t = false) →
    Raises (step s) .streamCorruption ⟨s.cur, t, s.nBits - s.cur - s.cfg.tagW⟩ s

/-- A legal tag with too few digits after it: StreamCorruption if the tag is not 0, else the normal end (R284). -/
def Obligations.ShortPayloadIsPaddingOrCorruption : Prop :=
  ∀ (s : State) (t : Nat), s.phase = .decode → noReset s → s.cfg.tagW ≤ s.nBits - s.cur →
    t = val (slice s.mem.flat s.cur s.cfg.tagW) → t < 8 → s.cfg.enabled t = true →
    s.nBits - s.cur - s.cfg.tagW < payloadLenAt s.cfg t →
    (t = 0 → step s = .next { s with inputs := s.inputs.tail, phase := .emit })
    ∧ (t ≠ 0 → Raises (step s) .streamCorruption ⟨s.cur, t, s.nBits - s.cur - s.cfg.tagW⟩ s)

/-- The step that takes the END beat of the listing makes FLAT of the rows (R281): digit `q` of FLAT is digit `q mod W` of
row `q div W`. That digit formula is the spec's own inference (R66, derived from R63); that the step of the END beat does
the reassembly (log 5), and that the beat offered is taken in that very step (log 20), are the model's choices. -/
def Obligations.FlatDigitsAreRowDigits : Prop :=
  ∀ (s : State) (b : Beat), s.phase = .load → s.mode = .decompress → s.loadPart = .listing → noReset s →
    s.tick.inBeat = some b → b.kind = .fin → (∀ r ∈ s.mem.rmem, r.length = s.cfg.rowW) →
    ∃ t, step s = .next t ∧ t.phase = .decode ∧ t.cur = s.cur ∧ t.mem.rmem = s.mem.rmem
      ∧ t.nBits = s.nRows * s.cfg.rowW
      ∧ ∀ q, q < t.nBits →
          t.mem.flat[q]? = (s.mem.rmem[q / s.cfg.rowW]?).bind fun r => r[q % s.cfg.rowW]?

/-- DECODE never writes FLAT, RMEM or DMEM (R73) nor any memory but OMEM, never changes or removes what is in OMEM (R241),
and never moves the cursor back (R32): a turn that goes on moves it past a tag at least and appends at least one Line. Of
FAULT nothing is said (R341). -/
def Obligations.DecodeKeepsTheProgram : Prop :=
  ∀ s t : State, s.phase = .decode → noReset s → step s = .next t → t.phase ≠ .fault →
    t.mem.flat = s.mem.flat ∧ t.mem.rmem = s.mem.rmem ∧ t.mem.dmem = s.mem.dmem ∧ t.mem.lmem = s.mem.lmem
      ∧ t.mem.etab = s.mem.etab ∧ t.mem.iq = s.mem.iq ∧ s.mem.omem <+: t.mem.omem ∧ t.cfg = s.cfg
      ∧ s.cur ≤ t.cur ∧ (t.phase = .decode → s.cur + s.cfg.tagW ≤ t.cur ∧ s.mem.omem ≠ t.mem.omem)

/-- Zero digits fewer than a row never yield an instruction under a valid configuration: the walk ends and no Line is
appended. The spec's own inference (R286, "Padding safety"). -/
def Obligations.PaddingAppendsNoLine : Prop :=
  ∀ (s : State) (pad : Nat), s.phase = .decode → noReset s → cfgValid s.cfg = true → pad < s.cfg.rowW →
    s.mem.flat.drop s.cur = zeros pad →
    step s = .next { s with inputs := s.inputs.tail, phase := .emit }

/-- From any DECODE state of a pass the walk ends, in EMIT or FAULT, within one turn per two digits of FLAT and one more. The
spec's own inference (R288, "Termination"). -/
def Obligations.DecodeWalkEnds : Prop :=
  ∀ s : State, Inv s → s.phase = .decode → s.inputs = [] →
    ∃ (k : Nat) (t : State), k ≤ s.nBits / 2 + 1 ∧ Sys2Proof.core.run k s = .next t
      ∧ (t.phase = .emit ∨ t.phase = .fault)

/-! ### The eight instructions, decompress half (spec/41_catalog_strategies.md) -/

/-- LIT appends its Line and changes nothing else, or OMEM is full (R164). That the record of CapacityExceeded is
`(cur, tag, n_out)`, as R162 writes it and not as R332 words it, is log 7. -/
def Obligations.LitAppendsItsLine : Prop :=
  ∀ (line : Bits) (s : State), AppendsOrOverflows (exec (.lit line) s) 0 line s

/-- RLE (R167): NoPriorLine with no decoded Line; otherwise `count + 1` copies of the last decoded Line, which stays in
place, are appended and nothing else changes, or OMEM is full at one of the copies. That the record of CapacityExceeded is
`(cur, tag, n_out)`, as R162 writes it and not as R332 words it, is log 7. -/
def Obligations.RleRepeatsTheLastLine : Prop :=
  ∀ (count : Nat) (s : State),
    (s.mem.omem = [] → Raises (exec (.rle count) s) .noPriorLine ⟨s.cur, 1, count⟩ s)
    ∧ ∀ y, s.mem.omem.getLast? = some y →
      ((∀ i, i ≤ count → s.cfg.maxLines ≠ some (s.nOut + i)) →
        exec (.rle count) s = .next (withLines s (List.replicate (count + 1) y)))
      ∧ (∀ i, i ≤ count → s.cfg.maxLines = some (s.nOut + i) →
        Raises (exec (.rle count) s) .capacityExceeded ⟨s.cur, 1, s.nOut + i⟩ s)

/-- DIR (R170): OutOfRange if the index names no entry; otherwise the entry is appended and nothing else changes, or OMEM is
full. That the record of CapacityExceeded is `(cur, tag, n_out)`, as R162 writes it and not as R332 words it, is log 7. -/
def Obligations.DirAppendsTheEntry : Prop :=
  ∀ (index : Nat) (s : State),
    (s.dictSize ≤ index → Raises (exec (.dir index) s) .outOfRange ⟨s.cur, 2, index⟩ s)
    ∧ ∀ e, s.mem.dmem[index]? = some e → AppendsOrOverflows (exec (.dir index) s) 2 e s

/-- BMD (R173): BadField if the mask reaches past the Line, then OutOfRange if the index names no entry; otherwise the entry
with exactly the digits under the mask's 1s inverted, the mask's digit 0 on the Line's digit `offset` (R11), is appended
and nothing else changes, or OMEM is full. That the record of CapacityExceeded is `(cur, tag, n_out)`, as R162 writes it
and not as R332 words it, is log 7. -/
def Obligations.BmdAppendsTheMaskedEntry : Prop :=
  ∀ (offset index : Nat) (mask : Bits) (s : State), mask.length = s.cfg.maskW →
    (s.cfg.lineW < offset + s.cfg.maskW →
      Raises (exec (.bmd offset mask index) s) .badField ⟨s.cur, 3, offset⟩ s)
    ∧ (offset + s.cfg.maskW ≤ s.cfg.lineW → s.dictSize ≤ index →
      Raises (exec (.bmd offset mask index) s) .outOfRange ⟨s.cur, 3, index⟩ s)
    ∧ ∀ e, offset + s.cfg.maskW ≤ s.cfg.lineW → s.mem.dmem[index]? = some e → e.length = s.cfg.lineW →
      ∃ y, FlippedAt (fun i => decide (offset ≤ i) && mask.getD (i - offset) false) e y
        ∧ AppendsOrOverflows (exec (.bmd offset mask index) s) 3 y s

/-- FM1, FM2 and FM4 (R176, R178, R180): BadField if the `k` digits from `offset` on reach past the Line, then OutOfRange if
the index names no entry; otherwise the entry with exactly those `k` digits inverted is appended and nothing else changes,
or OMEM is full. That the record of CapacityExceeded is `(cur, tag, n_out)`, as R162 writes it and not as R332 words it, is
log 7. -/
def Obligations.FixedMismatchAppendsTheFlippedEntry : Prop :=
  ∀ (offset index : Nat) (s : State),
    ((s.cfg.lineW < offset + 1 → Raises (exec (.fm1 offset index) s) .badField ⟨s.cur, 4, offset⟩ s)
      ∧ (offset + 1 ≤ s.cfg.lineW → s.dictSize ≤ index →
        Raises (exec (.fm1 offset index) s) .outOfRange ⟨s.cur, 4, index⟩ s)
      ∧ ∀ e, offset + 1 ≤ s.cfg.lineW → s.mem.dmem[index]? = some e → e.length = s.cfg.lineW →
        ∃ y, FlippedAt (fun i => decide (i = offset)) e y ∧ AppendsOrOverflows (exec (.fm1 offset index) s) 4 y s)
    ∧ ((s.cfg.lineW < offset + 2 → Raises (exec (.fm2 offset index) s) .badField ⟨s.cur, 5, offset⟩ s)
      ∧ (offset + 2 ≤ s.cfg.lineW → s.dictSize ≤ index →
        Raises (exec (.fm2 offset index) s) .outOfRange ⟨s.cur, 5, index⟩ s)
      ∧ ∀ e, offset + 2 ≤ s.cfg.lineW → s.mem.dmem[index]? = some e → e.length = s.cfg.lineW →
        ∃ y, FlippedAt (fun i => decide (i = offset ∨ i = offset + 1)) e y
          ∧ AppendsOrOverflows (exec (.fm2 offset index) s) 5 y s)
    ∧ ((s.cfg.lineW < offset + 4 → Raises (exec (.fm4 offset index) s) .badField ⟨s.cur, 6, offset⟩ s)
      ∧ (offset + 4 ≤ s.cfg.lineW → s.dictSize ≤ index →
        Raises (exec (.fm4 offset index) s) .outOfRange ⟨s.cur, 6, index⟩ s)
      ∧ ∀ e, offset + 4 ≤ s.cfg.lineW → s.mem.dmem[index]? = some e → e.length = s.cfg.lineW →
        ∃ y, FlippedAt (fun i => decide (offset ≤ i ∧ i ≤ offset + 3)) e y
          ∧ AppendsOrOverflows (exec (.fm4 offset index) s) 6 y s)

/-- PMM (R182): BadField for the first position past the Line, then for the second, then OutOfRange if the index names no
entry; otherwise the entry with its two digits inverted one after the other, so that equal positions cancel and a
descending pair acts as the ascending one, is appended and nothing else changes, or OMEM is full. That the record of
CapacityExceeded is `(cur, tag, n_out)`, as R162 writes it and not as R332 words it, is log 7. -/
def Obligations.PmmAppendsTheDoublyFlippedEntry : Prop :=
  ∀ (pos1 pos2 index : Nat) (s : State),
    (s.cfg.lineW ≤ pos1 → Raises (exec (.pmm pos1 pos2 index) s) .badField ⟨s.cur, 7, pos1⟩ s)
    ∧ (pos1 < s.cfg.lineW → s.cfg.lineW ≤ pos2 →
      Raises (exec (.pmm pos1 pos2 index) s) .badField ⟨s.cur, 7, pos2⟩ s)
    ∧ (pos1 < s.cfg.lineW → pos2 < s.cfg.lineW → s.dictSize ≤ index →
      Raises (exec (.pmm pos1 pos2 index) s) .outOfRange ⟨s.cur, 7, index⟩ s)
    ∧ ∀ e, pos1 < s.cfg.lineW → pos2 < s.cfg.lineW → s.mem.dmem[index]? = some e → e.length = s.cfg.lineW →
      ∃ y, FlippedAt (fun i => decide (i = pos1) ^^ decide (i = pos2)) e y
        ∧ (pos1 = pos2 → y = e)
        ∧ AppendsOrOverflows (exec (.pmm pos1 pos2 index) s) 7 y s
        ∧ exec (.pmm pos2 pos1 index) s = exec (.pmm pos1 pos2 index) s

/-- What DISPATCH does (R241, R242, R346): every instruction answers a next state; either it appended exactly its Lines to
OMEM, one or `count + 1`, and changed nothing else, or it raised one of its four faults at the cursor, under its own tag.
That CapacityExceeded too has the cursor as its `where`, as R162 writes it and not as R332 words it, is log 7. -/
def Obligations.DispatchWritesOutputOnly : Prop :=
  ∀ (i : Instr) (s : State),
    (∃ ys : List Bits, ys.length = (match i with | .rle count => count + 1 | _ => 1)
      ∧ exec i s = .next (withLines s ys))
    ∨ ∃ (k : FaultKind) (aux : Nat), Raises (exec i s) k ⟨s.cur, tagOf i.strategy, aux⟩ s
        ∧ ((k = .noPriorLine ∧ i.strategy = .rle ∧ s.mem.omem = [])
          ∨ (k = .outOfRange ∧ 2 ≤ tagOf i.strategy ∧ s.dictSize ≤ aux)
          ∨ (k = .badField ∧ 3 ≤ tagOf i.strategy)
          ∨ (k = .capacityExceeded ∧ s.cfg.maxLines = some aux))

/-! ### The encoder (spec/41_catalog_strategies.md, compress halves; spec/42_encoder_selector.md) -/

/-- LIT and DIR compress (R163, R169): the Line itself; the lowest index that holds the Line, or nothing. -/
def Obligations.LitAndDirCompress : Prop :=
  ∀ (s : State) (x : Bits), s.mem.lmem[s.pos]? = some x →
    compressLit s = some ⟨x, 1⟩
    ∧ (x ∉ s.mem.dmem → compressDir s = none)
    ∧ (∀ j, s.mem.dmem[j]? = some x → (∀ i, i < j → s.mem.dmem[i]? ≠ some x) →
        compressDir s = some ⟨enc s.cfg.idxW j, 1⟩)

/-- RLE compress (R165): absent with the memory cleared when the look-back fails, absent with the memory kept when it is
refused, and otherwise the longest run of further copies up to `2^L - 1`, remembered. -/
def Obligations.RleCompressCountsTheRun : Prop :=
  ∀ (s : State) (x : Bits), s.mem.lmem[s.pos]? = some x →
    ((s.pos = 0 ∨ s.mem.lmem[s.pos - 1]? ≠ some x) → compressRle s = ({ s with rleValid := false }, none))
    ∧ (0 < s.pos → s.mem.lmem[s.pos - 1]? = some x → s.rleValid = true → s.rleLast = x →
        compressRle s = (s, none))
    ∧ (0 < s.pos → s.mem.lmem[s.pos - 1]? = some x → ¬ (s.rleValid = true ∧ s.rleLast = x) →
        ∃ n, compressRle s = ({ s with rleValid := true, rleLast := x }, some ⟨enc s.cfg.runW n, n + 1⟩)
          ∧ n ≤ 2 ^ s.cfg.runW - 1
          ∧ (∀ i, i < n → s.mem.lmem[s.pos + 1 + i]? = some x)
          ∧ (n = 2 ^ s.cfg.runW - 1 ∨ s.mem.lmem[s.pos + 1 + n]? ≠ some x))

/-- The exhaustive BMD search (R171) agrees with its closed form. The closed form is the spec's own inference (R172, "a proof
that they agree is a useful lemma"). -/
def Obligations.BmdSearchIsItsClosedForm : Prop :=
  ∀ (s : State) (x : Bits), s.mem.lmem[s.pos]? = some x → x.length = s.cfg.lineW →
    (∀ e ∈ s.mem.dmem, e.length = s.cfg.lineW) → 1 ≤ s.cfg.maskW → s.cfg.maskW ≤ s.cfg.lineW →
    compressBmd s = searchEntries s.mem.dmem fun j e =>
      (maskWindow s.cfg x e).map fun sm => ⟨enc s.cfg.offBm sm.1 ++ sm.2 ++ enc s.cfg.idxW j, 1⟩

/-- The FixedMismatch searches find exactly the entries that differ in `k` contiguous digits and in no other, at the index
of the first (R175, R177, R179). -/
def Obligations.FixedMismatchSearchIsItsClosedForm : Prop :=
  ∀ (s : State) (x : Bits), s.mem.lmem[s.pos]? = some x → x.length = s.cfg.lineW →
    (∀ e ∈ s.mem.dmem, e.length = s.cfg.lineW) →
    (compressFm1 s = searchEntries s.mem.dmem fun j e =>
      (contiguousAt 1 x e).map fun o => ⟨enc s.cfg.offFm1 o ++ enc s.cfg.idxW j, 1⟩)
    ∧ (compressFm2 s = searchEntries s.mem.dmem fun j e =>
      (contiguousAt 2 x e).map fun o => ⟨enc s.cfg.offFm2 o ++ enc s.cfg.idxW j, 1⟩)
    ∧ (compressFm4 s = searchEntries s.mem.dmem fun j e =>
      (contiguousAt 4 x e).map fun o => ⟨enc s.cfg.offFm4 o ++ enc s.cfg.idxW j, 1⟩)

/-- The PMM search (R181) finds exactly the entries that differ in two digits and emits their indices in ascending order. The
closed form is the spec's own inference (R181, "the encoder always emits `pos1 < pos2`"). -/
def Obligations.PmmSearchIsItsClosedForm : Prop :=
  ∀ (s : State) (x : Bits), s.mem.lmem[s.pos]? = some x → x.length = s.cfg.lineW →
    (∀ e ∈ s.mem.dmem, e.length = s.cfg.lineW) →
    compressPmm s = searchEntries s.mem.dmem fun j e =>
      (differingPair x e).map fun p => ⟨enc s.cfg.posW p.1 ++ enc s.cfg.posW p.2 ++ enc s.cfg.idxW j, 1⟩

/-- The compress contract (R161): a result has the strategy's payload length and stands for Lines that exist; evaluation
writes nothing but the RunLength memory, and only RLE writes that; and the result depends on nothing but the configuration,
LMEM, DMEM, the position and, for RLE alone, the RunLength memory. -/
def Obligations.CompressContractHolds : Prop :=
  ∀ (st : Strategy) (s : State), cfgValid s.cfg = true → s.cfg.enabled (tagOf st) = true →
    s.mem.wf s.cfg = true → s.pos < s.nLines →
    (∃ v x, (evaluate st s).1 = { s with rleValid := v, rleLast := x })
    ∧ (st ≠ .rle → (evaluate st s).1 = s)
    ∧ (∀ r, (evaluate st s).2 = some r →
        r.payload.length = payloadLen s.cfg st ∧ 1 ≤ r.consumed ∧ s.pos + r.consumed ≤ s.nLines)
    ∧ ∀ u : State, u.cfg = s.cfg → u.mem.lmem = s.mem.lmem → u.mem.dmem = s.mem.dmem → u.pos = s.pos →
        (st = .rle → u.rleValid = s.rleValid ∧ u.rleLast = s.rleLast) → (evaluate st u).2 = (evaluate st s).2

/-- The per-instruction round trip, the spec's own inference (R184): what a strategy's compress half emits, cut into fields and decompressed over the
Lines before `pos`, appends exactly the Lines it stands for. -/
def Obligations.DecompressUndoesCompress : Prop :=
  ∀ (st : Strategy) (s d : State) (r : CompressionResult), cfgValid s.cfg = true →
    s.cfg.enabled (tagOf st) = true → s.mem.wf s.cfg = true → s.pos < s.nLines →
    (evaluate st s).2 = some r →
    d.cfg = s.cfg → d.mem.dmem = s.mem.dmem → d.mem.omem = s.mem.lmem.take s.pos →
    hasRoom d r.consumed = true →
    exec (decodeFields s.cfg st r.payload) d
      = .next (withLines d ((s.mem.lmem.drop s.pos).take r.consumed))

/-- One step of ENCODE (R221 to R224): among the results of all enabled strategies the one with the strictly smallest
payload wins, the earlier tag on ties; it is queued, `pos` moves past its Lines, and the RunLength memory is as RLE's
evaluation left it; a full IQ raises CapacityExceeded. That its record is `(pos, tag, n_instr)`, as R223 writes it and not
as R332 words it, is log 7. -/
def Obligations.EncodeStepPicksTheCheapest : Prop :=
  ∀ s : State, s.phase = .encode → noReset s → cfgValid s.cfg = true → s.pos < s.nLines →
    ∃ (st : Strategy) (r : CompressionResult),
      s.cfg.enabled (tagOf st) = true ∧ (evaluate st s).2 = some r
      ∧ (∀ st' r', s.cfg.enabled (tagOf st') = true → (evaluate st' s).2 = some r' →
          payloadLen s.cfg st < payloadLen s.cfg st'
          ∨ (payloadLen s.cfg st = payloadLen s.cfg st' ∧ tagOf st ≤ tagOf st'))
      ∧ (s.cfg.maxLines = some s.nInstr → Raises (step s) .capacityExceeded ⟨s.pos, tagOf st, s.nInstr⟩ s)
      ∧ (s.cfg.maxLines ≠ some s.nInstr → ∃ (v : Bool) (x : Bits),
          step s = .next
            { s with
              inputs := s.inputs.tail
              mem := { s.mem with iq := s.mem.iq ++ [⟨tagOf st, r.payload⟩] }
              pos := s.pos + r.consumed
              rleValid := v
              rleLast := x
              bestValid := true
              bestTag := tagOf st
              bestPayload := r.payload
              bestConsumed := r.consumed }
          ∧ (s.cfg.enabled 1 = true → v = (compressRle s).1.rleValid ∧ x = (compressRle s).1.rleLast)
          ∧ (s.cfg.enabled 1 = false → v = s.rleValid ∧ x = s.rleLast))

/-- ENCODE ends, the spec's own inference (R227): after at most one turn per Line left and one more that leaves the phase,
with every Line consumed and one instruction per Line at most. -/
def Obligations.EncodeWalkEnds : Prop :=
  ∀ s : State, Inv s → s.phase = .encode → s.inputs = [] →
    ∃ (k : Nat) (t : State), k ≤ s.nLines - s.pos + 1 ∧ Sys2Proof.core.run k s = .next t ∧ t.phase = .pack
      ∧ t.mem.lmem = s.mem.lmem ∧ t.pos = t.nLines ∧ t.nInstr ≤ t.nLines

/-! ### The dictionary builder (spec/40_dictionary_builder.md) -/

/-- BUILD's entry table (R131, R28): one entry per distinct Line, in order of first occurrence, with its count and first
index; the counts add up to the number of Lines; and BUILD writes nothing but ETAB and DMEM with their counts (R130). That
the counts and first indices still stand in ETAB when BUILD has ended, as R28's invariants read it and against R133's "not
kept past BUILD", is the model's choice (log 19). -/
def Obligations.BuildCountsEveryLine : Prop :=
  ∀ s : State, s.phase = .build → noReset s →
    ∃ t, step s = .next t
      ∧ t = { s with
              inputs := s.inputs.tail
              phase := .encode
              mem := { s.mem with etab := t.mem.etab, dmem := t.mem.dmem } }
      ∧ (t.mem.etab.map Entry.value).Nodup
      ∧ (∀ e ∈ t.mem.etab, 1 ≤ e.count ∧ e.count = s.mem.lmem.count e.value
          ∧ e.first = s.mem.lmem.idxOf e.value ∧ s.mem.lmem[e.first]? = some e.value)
      ∧ (∀ x ∈ s.mem.lmem, ∃ e ∈ t.mem.etab, e.value = x)
      ∧ t.mem.etab.Pairwise (fun a b => a.first < b.first)
      ∧ (t.mem.etab.map Entry.count).sum = s.nLines

/-- BUILD's dictionary (R132, R133): as many distinct Lines of the input as the cap and the input allow, by count descending
and first occurrence ascending, and no Line left out comes before one that is in. That the entries are distinct Lines of
the input in this order, said by counting in LMEM, is the spec's own inference (R134, derived from R131 to R133). -/
def Obligations.BuildKeepsTheMostCommonLines : Prop :=
  ∀ s : State, s.phase = .build → noReset s →
    ∃ t, step s = .next t ∧ t.dictSize = min s.cfg.dictCap t.nEntries
      ∧ t.mem.dmem.Nodup
      ∧ (∀ y ∈ t.mem.dmem, y ∈ s.mem.lmem)
      ∧ t.mem.dmem.Pairwise (MoreCommon s.mem.lmem)
      ∧ (∀ x ∈ s.mem.lmem, x ∉ t.mem.dmem → ∀ y ∈ t.mem.dmem, MoreCommon s.mem.lmem y x)

/-- The lookup `indexOf` (R137) gives the smallest index that holds the Line, or `none` when no entry does. -/
def Obligations.IndexOfFindsTheLowestIndex : Prop :=
  ∀ (dmem : List Bits) (x : Bits),
    (∀ j, indexOf dmem x = some j ↔ dmem[j]? = some x ∧ ∀ i, i < j → dmem[i]? ≠ some x)
    ∧ (indexOf dmem x = none ↔ x ∉ dmem)

/-! ### The packer (spec/44_bitstream_packer.md) -/

/-- PACK (R261 to R263): FLAT is the queue's digits with nothing between them; the rows are `W` wide and as many as needed;
too many rows raise CapacityExceeded. That the rows give FLAT back followed by fewer than `W` zeros is the spec's own
inference (R265). That the record of CapacityExceeded is `(n_bits, 0, n_rows)`, as R262 writes it and not as R332 words it,
is log 7. -/
def Obligations.PackCutsAndPadsRows : Prop :=
  ∀ (s : State) (flat : Bits) (n : Nat), s.phase = .pack → noReset s → 1 ≤ s.cfg.rowW →
    flat = s.mem.iq.flatMap (fun e => enc s.cfg.tagW e.tag ++ e.payload) →
    n = (flat.length + s.cfg.rowW - 1) / s.cfg.rowW →
    (withinCap s.cfg.maxRows n = true → ∃ t pad, step s = .next t ∧ t.phase = .emit ∧ t.mem.flat = flat
      ∧ t.nRows = n ∧ pad < s.cfg.rowW ∧ t.mem.rmem.flatten = flat ++ zeros pad
      ∧ (∀ r ∈ t.mem.rmem, r.length = s.cfg.rowW)
      ∧ t = { s with
              inputs := s.inputs.tail
              phase := .emit
              mem := { s.mem with flat := t.mem.flat, rmem := t.mem.rmem } })
    ∧ (withinCap s.cfg.maxRows n = false → Raises (step s) .capacityExceeded ⟨flat.length, 0, n⟩ s)

/-! ### Configuration, commands and reset (spec/00_scope.md, spec/46_pass_control.md, spec/70_reset_and_hazards.md) -/

/-- `cfg_valid` is the conjunction of the constraints of the table of R6 (R8), the differences written as sums. -/
def Obligations.CfgValidIsItsConstraints : Prop :=
  ∀ c : Cfg, cfgValid c = true ↔
    (1 ≤ c.lineW ∧ 1 ≤ c.rowW ∧ c.rowW ≤ c.tagW + c.lineW ∧ 1 ≤ c.tagW ∧ 1 ≤ c.idxW
      ∧ c.dictCap ≤ 2 ^ c.idxW
      ∧ (c.enabled 1 = true → 1 ≤ c.runW)
      ∧ (c.enabled 3 = true → c.lineW < c.maskW + 2 ^ c.offBm ∧ 1 ≤ c.maskW ∧ c.maskW ≤ c.lineW)
      ∧ (c.enabled 4 = true → c.lineW < 1 + 2 ^ c.offFm1)
      ∧ (c.enabled 5 = true → 2 ≤ c.lineW ∧ c.lineW < 2 + 2 ^ c.offFm2)
      ∧ (c.enabled 6 = true → 4 ≤ c.lineW ∧ c.lineW < 4 + 2 ^ c.offFm4)
      ∧ (c.enabled 7 = true → 2 ≤ c.lineW ∧ c.lineW < 1 + 2 ^ c.posW)
      ∧ c.enabled 0 = true ∧ ∀ t, c.enabled t = true → t < 2 ^ c.tagW)

/-- START in IDLE or DONE with a valid configuration begins a pass with every element of R301 set at once (R301). The model's
choices in it: the configuration comes with the command (log 1); `rle_last` and the other best registers, whose START
value R30 leaves unspecified, are kept (logs 2 and 13); the bookkeeping fields get their first values (log 8). -/
def Obligations.StartBeginsAPass : Prop :=
  ∀ (s : State) (m : Mode) (c : Cfg), s.phase = .idle ∨ s.phase = .done → noReset s →
    s.tick.cmd = some (.start m c) → cfgValid c = true →
    step s = .next
      { s with
        inputs := s.inputs.tail
        cfg := c
        mode := m
        mem := ⟨[], [], [], [], [], [], []⟩
        pos := 0
        cur := 0
        rleValid := false
        bestValid := false
        faultCode := .none
        faultInfo := ⟨0, 0, 0⟩
        loadPart := .rows
        beatsTaken := 0
        emitted := 0
        phase := .load }

/-- START with an invalid configuration raises InvalidConfig before any input is taken, naming the first row of the table
of R6 whose constraint is violated (R303). The model's choices in it: the configuration that is checked and kept is the
one that comes with the command (log 1), and the assignments of R301 are done before the fault (log 15). -/
def Obligations.StartWithBadCfgFaults : Prop :=
  ∀ (s : State) (m : Mode) (c : Cfg), s.phase = .idle ∨ s.phase = .done → noReset s →
    s.tick.cmd = some (.start m c) → cfgValid c = false →
    ∃ k, Raises (step s) .invalidConfig ⟨0, 0, k⟩ { s with cfg := c }
      ∧ 1 ≤ k ∧ k ≤ 13 ∧ ¬ CfgConstraint c k ∧ ∀ j, 1 ≤ j → j < k → CfgConstraint c j

/-- START and CLEAR are ignored in the phases of a running pass: the step is the same whatever the command port holds
(R383). -/
def Obligations.CommandsIgnoredDuringAPass : Prop :=
  ∀ (s : State) (tk : Tick) (ts : List Tick) (cmd : Option Command),
    s.inputs = tk :: ts → running s.phase = true →
    step { s with inputs := { tk with cmd := cmd } :: ts } = step s

/-- CLEAR in DONE or FAULT has the effect of reset (R372); in IDLE it has none; START in FAULT is ignored (R301, R302). The
model's choices in it: `cfg` and the host's side are kept (log 13), and `rle_last` and the best registers, which R36
leaves unspecified, get the values of log 2. -/
def Obligations.ClearReinitialises : Prop :=
  ∀ (s : State), noReset s →
    (s.phase = .done ∨ s.phase = .fault → s.tick.cmd = some .clear →
      step s = .next { State.reset with cfg := s.cfg, inputs := s.inputs.tail, sent := s.sent })
    ∧ (s.phase = .idle → s.tick.cmd = some .clear → step s = .next { s with inputs := s.inputs.tail })
    ∧ (s.phase = .fault → ∀ m c, s.tick.cmd = some (.start m c) →
        step s = .next { s with inputs := s.inputs.tail })

/-- A sampled reset gives the reset values in any phase; nothing is sent and nothing sent is taken back (R370). The model's
choices in it: `cfg` and the host's side are kept (log 13), and `rle_last` and the best registers, which R36 leaves
unspecified, get the values of log 2. -/
def Obligations.ResetAbandonsThePass : Prop :=
  ∀ s : State, s.tick.rst = true →
    step s = .next { State.reset with cfg := s.cfg, inputs := s.inputs.tail, sent := s.sent }

/-- The reset values of R36 for every element the table gives one. -/
def Obligations.ResetValues : Prop :=
  State.reset.phase = .idle ∧ State.reset.mode = .compress ∧ State.reset.faultCode = .none
    ∧ State.reset.faultInfo = ⟨0, 0, 0⟩
    ∧ State.reset.nLines = 0 ∧ State.reset.nEntries = 0 ∧ State.reset.dictSize = 0 ∧ State.reset.nInstr = 0
    ∧ State.reset.nBits = 0 ∧ State.reset.nRows = 0 ∧ State.reset.nOut = 0
    ∧ State.reset.pos = 0 ∧ State.reset.cur = 0
    ∧ State.reset.rleValid = false ∧ State.reset.bestValid = false

/-- In IDLE, DONE and FAULT the block does nothing until a command or a reset arrives (R351). -/
def Obligations.NothingHappensWithoutACommand : Prop :=
  ∀ s : State, running s.phase = false → noReset s → s.tick.cmd = none →
    step s = .next { s with inputs := s.inputs.tail }

/-- FAULT is left only by CLEAR or reset, both of which lead to IDLE with the fault registers cleared (R342). -/
def Obligations.FaultIsLeftOnlyByClearOrReset : Prop :=
  ∀ s t : State, s.phase = .fault → step s = .next t → t.phase ≠ .fault →
    (s.tick.rst = true ∨ s.tick.cmd = some .clear)
    ∧ t.phase = .idle ∧ t.faultCode = .none ∧ t.faultInfo = ⟨0, 0, 0⟩

/-- The phase graph (R302): without a reset every step follows an edge of it. -/
def Obligations.StepsFollowThePhaseGraph : Prop :=
  ∀ s t : State, noReset s → step s = .next t → phaseEdge s.mode s.phase t.phase = true

/-! ### The streams and the status port (spec/46_pass_control.md) -/

/-- LOAD of a COMPRESS pass, one beat of each kind (R305). That a beat offered in LOAD is taken in that very step is the
model's choice (log 20). -/
def Obligations.CompressLoadTakesLines : Prop :=
  ∀ (s : State) (b : Beat), s.phase = .load → s.mode = .compress → noReset s → s.tick.inBeat = some b →
    (b.kind = .line → s.cfg.maxLines ≠ some s.nLines → step s = .next
      { s with
        inputs := s.inputs.tail
        beatsTaken := s.beatsTaken + 1
        mem := { s.mem with lmem := s.mem.lmem ++ [busElement s.cfg.lineW b.data] } })
    ∧ (b.kind = .line → s.cfg.maxLines = some s.nLines →
      Raises (step s) .capacityExceeded ⟨s.nLines, 0, 0⟩ s)
    ∧ (b.kind = .fin → step s = .next
      { s with inputs := s.inputs.tail, beatsTaken := s.beatsTaken + 1, phase := .build })
    ∧ (b.kind = .row ∨ b.kind = .sep ∨ b.kind = .dict →
      Raises (step s) .badFraming ⟨s.beatsTaken, 0, kindCode b.kind⟩ s)

/-- LOAD of a DECOMPRESS pass, one beat of each kind in each part (R308, R136). That the step of the END beat also does
the reassembly of R281 (log 5), and that a beat offered in LOAD is taken in that very step (log 20), are the model's
choices. -/
def Obligations.DecompressLoadTakesRowsThenListing : Prop :=
  ∀ (s : State) (b : Beat), s.phase = .load → s.mode = .decompress → noReset s → s.tick.inBeat = some b →
    (s.loadPart = .rows → b.kind = .row → s.cfg.maxRows ≠ some s.nRows → step s = .next
      { s with
        inputs := s.inputs.tail
        beatsTaken := s.beatsTaken + 1
        mem := { s.mem with rmem := s.mem.rmem ++ [busElement s.cfg.rowW b.data] } })
    ∧ (s.loadPart = .rows → b.kind = .row → s.cfg.maxRows = some s.nRows →
      Raises (step s) .capacityExceeded ⟨s.nRows, 0, 1⟩ s)
    ∧ (s.loadPart = .rows → b.kind = .sep → step s = .next
      { s with inputs := s.inputs.tail, beatsTaken := s.beatsTaken + 1, loadPart := .listing })
    ∧ (s.loadPart = .listing → b.kind = .dict → s.dictSize ≠ s.cfg.dictCap → step s = .next
      { s with
        inputs := s.inputs.tail
        beatsTaken := s.beatsTaken + 1
        mem := { s.mem with dmem := s.mem.dmem ++ [busElement s.cfg.lineW b.data] } })
    ∧ (s.loadPart = .listing → b.kind = .dict → s.dictSize = s.cfg.dictCap →
      Raises (step s) .invalidConfig ⟨s.dictSize, 0, 0⟩ s)
    ∧ (s.loadPart = .listing → b.kind = .fin → step s = .next
      { s with
        inputs := s.inputs.tail
        beatsTaken := s.beatsTaken + 1
        mem := { s.mem with flat := s.mem.rmem.flatten }
        phase := .decode })
    ∧ ((s.loadPart = .rows ∧ (b.kind = .line ∨ b.kind = .dict ∨ b.kind = .fin))
        ∨ (s.loadPart = .listing ∧ (b.kind = .line ∨ b.kind = .row ∨ b.kind = .sep)) →
      Raises (step s) .badFraming ⟨s.beatsTaken, 0, kindCode b.kind⟩ s)

/-- The handshake (R312): an input beat matters only in LOAD, and `out_ready` only in EMIT; in EMIT without `out_ready`
the block holds its beat, and in LOAD without a beat it waits (U17; log 14): the step only uses up the tick. -/
def Obligations.BeatsMoveOnlyWhenReady : Prop :=
  ∀ (s : State) (tk : Tick) (ts : List Tick), s.inputs = tk :: ts →
    (∀ b, s.phase ≠ .load → step { s with inputs := { tk with inBeat := b } :: ts } = step s)
    ∧ (∀ r, s.phase ≠ .emit → step { s with inputs := { tk with outReady := r } :: ts } = step s)
    ∧ (s.phase = .emit → tk.rst = false → tk.outReady = false →
        step s = .next { s with inputs := ts } ∧ outBeat { s with inputs := ts } = outBeat s)
    ∧ (s.phase = .load → tk.rst = false → tk.inBeat = none → step s = .next { s with inputs := ts })

/-- Nothing is sent but in EMIT to a ready host, one beat at a time (R312, R314): a step from any other phase sends
nothing, so a pass that ends in FAULT has sent nothing. -/
def Obligations.NothingIsSentOutsideEmit : Prop :=
  ∀ s t : State, step s = .next t →
    t.sent = s.sent
    ∨ (s.phase = .emit ∧ s.tick.outReady = true ∧ s.tick.rst = false ∧ t.phase ≠ .fault
        ∧ ∃ b, outBeat s = some b ∧ t.sent = s.sent ++ [b])

/-- EMIT of a pass to a host that takes every beat (R313): the rows, the separator and the listing after COMPRESS, the
Lines after DECOMPRESS, then END, in that order, and then the pass is done. That a beat is there in every step of EMIT, so
that there are as many steps as beats, is the model's choice (log 20). -/
def Obligations.EmitSendsTheWholeResult : Prop :=
  ∀ (s : State) (out : List Beat), s.phase = .emit → s.emitted = 0 →
    (s.mode = .compress → out = artifactBeats s.cfg s.mem.rmem s.mem.dmem) →
    (s.mode = .decompress → out = lineBeats s.cfg s.mem.omem) →
    s.inputs = List.replicate out.length { outReady := true } →
    Sys2Proof.core.run out.length s
      = .next { s with sent := s.sent ++ out, emitted := out.length, inputs := [], phase := .done }

/-- The status port (R315): what the host reads in any state. -/
def Obligations.StatusPortShowsTheState : Prop :=
  ∀ s : State,
    (statusPort s).phase = s.phase ∧ (statusPort s).mode = s.mode
    ∧ (statusPort s).faultCode = faultCodeOf s.faultCode ∧ (statusPort s).faultInfo = s.faultInfo
    ∧ (statusPort s).counters = [s.mem.lmem.length, s.mem.etab.length, s.mem.dmem.length, s.mem.iq.length,
        s.mem.flat.length, s.mem.rmem.length, s.mem.omem.length]
    ∧ ((statusPort s).done = true ↔ s.phase = .done) ∧ ((statusPort s).fault = true ↔ s.phase = .fault)

/-- The data bus (R311): an element of `k` digits is the leftmost `k` digits of a bus word on input; on output it is on the
leftmost digits of a word `max(N, W)` wide and every digit after it is 0. -/
def Obligations.BusCarriesTheElementLeftmost : Prop :=
  ∀ (c : Cfg) (k : Nat) (kind : BeatKind) (word elem : Bits),
    (k ≤ word.length → busElement k word = word.take k)
    ∧ (elem.length ≤ max c.lineW c.rowW →
        (busBeat c kind elem).kind = kind
        ∧ (busBeat c kind elem).data.length = max c.lineW c.rowW
        ∧ (busBeat c kind elem).data.take elem.length = elem
        ∧ ∀ i, elem.length ≤ i → i < max c.lineW c.rowW → (busBeat c kind elem).data[i]? = some false)

/-! ### The whole block -/

/-- The invariant holds after reset. -/
def Obligations.ResetHasTheInvariant : Prop := Inv State.reset

/-- From every state with the invariant the block takes a step, to a state with the invariant: it never stops, whatever
the host does. -/
def Obligations.EveryStepKeepsTheInvariant : Prop :=
  ∀ s : State, Inv s → ∃ t, step s = .next t ∧ Inv t

/-- A COMPRESS pass with a valid configuration and unbounded capacities never faults: it ends in DONE, and what it has sent
is the artifact of R306, the rows PACK makes of ENCODE's queue, the separator, the listing BUILD makes of the input, END.
The spec's own inference (R306, "COMPRESS never faults"). -/
def Obligations.CompressPassCompletes : Prop :=
  ∀ (c : Cfg) (lines : List Bits), cfgValid c = true → (∀ x ∈ lines, x.length = c.lineW) →
    c.maxLines = none → c.maxRows = none →
    ∃ (n k : Nat) (t : State),
      Sys2Proof.core.run k (hostPass c .compress (lineBeats c lines) n) = .next t ∧ t.phase = .done
      ∧ t.sent = artifactBeats c (rowsOfLines c lines) (listingOf c lines)

/-- The round trip, the spec's own inference (R309): whatever a COMPRESS pass of a list of Lines sends, fed to a DECOMPRESS pass of the same
configuration, gives back exactly those Lines. -/
def Obligations.DecompressOfCompressIsIdentity : Prop :=
  ∀ (c : Cfg) (lines : List Bits) (n k : Nat) (t : State), cfgValid c = true →
    (∀ x ∈ lines, x.length = c.lineW) →
    Sys2Proof.core.run k (hostPass c .compress (lineBeats c lines) n) = .next t → t.phase = .done →
    ∃ (n' k' : Nat) (t' : State),
      Sys2Proof.core.run k' (hostPass c .decompress t.sent n') = .next t' ∧ t'.phase = .done
      ∧ t'.sent = lineBeats c lines

/-! ### Codes, ports, the configuration, the search order -/

/-- The values `fault_code` takes for the nine kinds (R331), and the codes of the five beat kinds (R311). -/
def Obligations.FaultAndKindCodes : Prop :=
  (faultCodeOf .none = 0 ∧ faultCodeOf .invalidConfig = 1 ∧ faultCodeOf .outOfRange = 2 ∧ faultCodeOf .nonBinary = 3
    ∧ faultCodeOf .streamCorruption = 4 ∧ faultCodeOf .badField = 5 ∧ faultCodeOf .noPriorLine = 6
    ∧ faultCodeOf .badFraming = 7 ∧ faultCodeOf .capacityExceeded = 8)
  ∧ (kindCode .line = 0 ∧ kindCode .row = 1 ∧ kindCode .sep = 2 ∧ kindCode .dict = 3 ∧ kindCode .fin = 4)

/-- The levels of the stream ports: `in_ready` is high only in LOAD (R312), so it is low in FAULT (R340) and after a reset
(R370); `out_valid` is high only in EMIT (R314), with the beat that is next in the order of R313. That `in_ready` is high in
every step of LOAD, and `out_valid` in every step of EMIT while a beat is left, is the model's choice (log 20);
so is that the levels follow the phase also in the step that samples `rst`, and are low for it (R370) from the next state on
only (log 21). While `in_ready` is low the step is the same whatever the input stream holds, and a reset leaves both levels
low. -/
def Obligations.PortLevelsFollowThePhase : Prop :=
  ∀ s : State,
    (inReady s = true ↔ s.phase = .load)
    ∧ (s.phase ≠ .emit → outBeat s = none)
    ∧ (s.phase = .emit → outBeat s = (outputBeats s)[s.emitted]?)
    ∧ (∀ (tk : Tick) (ts : List Tick) (b : Option Beat), s.inputs = tk :: ts → inReady s = false →
        step { s with inputs := { tk with inBeat := b } :: ts } = step s)
    ∧ (s.tick.rst = true → ∃ t, step s = .next t ∧ inReady t = false ∧ outBeat t = none)

/-- The configuration is constant but for an accepted START (R20, R383): every step leaves it as it was, or is the step of a
START accepted in IDLE or DONE and takes the configuration of the command. That it comes with the command is log 1, and
that reset and CLEAR keep it is log 13: the model's choices. -/
def Obligations.OnlyStartChangesTheConfiguration : Prop :=
  ∀ s t : State, step s = .next t →
    t.cfg = s.cfg
    ∨ ((s.phase = .idle ∨ s.phase = .done) ∧ s.tick.rst = false
        ∧ ∃ m c, s.tick.cmd = some (.start m c) ∧ t.cfg = c)

/-- The search order shared by tags 3 to 7 (R168): a search gives what the entry of the lowest index that matches gives, and
nothing when no entry matches. With the closed forms of the five searches it says which index each of them emits. -/
def Obligations.SearchTakesTheLowestMatch : Prop :=
  ∀ (dmem : List Bits) (f : Nat → Bits → Option CompressionResult),
    (∀ r, searchEntries dmem f = some r ↔
      ∃ j e, dmem[j]? = some e ∧ f j e = some r ∧ ∀ i e', i < j → dmem[i]? = some e' → f i e' = none)
    ∧ (searchEntries dmem f = none ↔ ∀ j e, dmem[j]? = some e → f j e = none)
end

