-- ==== Sys2Proof/Laws/Digits.lean ====
section
/-! SUPPORT. Laws of digit strings: fields and their values (R10), slices, and the digit-wise reading of `place`, `xor` and
`flip` (R11). -/

namespace Sys2Proof

@[simp] theorem zeros_length (k : Nat) : (zeros k).length = k := by simp [zeros]
@[simp] theorem ones_length (k : Nat) : (ones k).length = k := by simp [ones]

/-- A field has its width (R10). -/
@[simp] theorem enc_length (k v : Nat) : (enc k v).length = k := by
  induction k with
  | zero => rfl
  | succ k ih => simp [enc, ih]

/-- The value of a digit string fits its width (R10). -/
theorem val_lt (ds : Bits) : val ds < 2 ^ ds.length := by
  induction ds with
  | nil => simp [val]
  | cons d ds ih =>
    have h2 : 2 ^ (ds.length + 1) = 2 ^ ds.length + 2 ^ ds.length := by ring
    cases d <;> simp [val, h2] <;> omega

/-- `val` undoes `enc` up to the width (R10). -/
theorem val_enc_mod (k v : Nat) : val (enc k v) = v % 2 ^ k := by
  induction k with
  | zero => simp [enc, val, Nat.mod_one]
  | succ k ih =>
    rw [enc, val, ih, enc_length, Nat.mod_pow_succ, Nat.testBit_eq_decide_div_mod_eq]
    rcases Nat.mod_two_eq_zero_or_one (v / 2 ^ k) with h | h <;> simp [h]
    omega

/-- `val` is the inverse of `enc` where `enc` is defined (R10). -/
theorem val_enc (k v : Nat) (h : v < 2 ^ k) : val (enc k v) = v := by
  rw [val_enc_mod, Nat.mod_eq_of_lt h]

/-- Digits above the width do not matter to a field. -/
theorem enc_mod (k v : Nat) : ∀ j, k ≤ j → enc k (v % 2 ^ j) = enc k v := by
  induction k with
  | zero => intros; rfl
  | succ k ih =>
    intro j hj
    rw [enc, enc, ih j (by omega), Nat.testBit_mod_two_pow]
    simp [show k < j by omega]

/-- `enc` is the inverse of `val` (R10). -/
theorem enc_val (ds : Bits) : enc ds.length (val ds) = ds := by
  induction ds with
  | nil => rfl
  | cons d ds ih =>
    have hlt := val_lt ds
    have hmod : (val (d :: ds)) % 2 ^ ds.length = val ds := by
      rw [val, Nat.add_comm, Nat.add_mul_mod_self_right, Nat.mod_eq_of_lt hlt]
    have hbit : (val (d :: ds)).testBit ds.length = d := by
      rw [val, Nat.testBit_eq_decide_div_mod_eq, Nat.add_comm,
        Nat.add_mul_div_right _ _ (Nat.two_pow_pos _), Nat.div_eq_of_lt hlt]
      cases d <;> simp
    rw [List.length_cons, enc, hbit, ← enc_mod _ (val (d :: ds)) ds.length (Nat.le_refl _), hmod, ih]

/-- The same for a known width. -/
theorem enc_val_of_length {k : Nat} {ds : Bits} (h : ds.length = k) : enc k (val ds) = ds := by
  subst h; exact enc_val ds

@[simp] theorem enc_zero (k : Nat) : enc k 0 = zeros k := by
  induction k with
  | zero => rfl
  | succ k ih => simp [enc, ih, zeros, List.replicate_succ]

@[simp] theorem val_zeros (k : Nat) : val (zeros k) = 0 := by
  rw [← enc_zero, val_enc _ _ (Nat.two_pow_pos k)]

theorem slice_length {s : Bits} {i k : Nat} (h : i + k ≤ s.length) : (slice s i k).length = k := by
  simp [slice]; omega

theorem slice_append_left {a b : Bits} {k : Nat} (h : a.length = k) : slice (a ++ b) 0 k = a := by
  subst h; simp [slice]

theorem slice_append_right {a b : Bits} {i k : Nat} (h : a.length = i) (hb : b.length = k) :
    slice (a ++ b) i k = b := by
  subst h hb; simp [slice]

theorem slice_append_mid {a b c : Bits} {i k : Nat} (h : a.length = i) (hb : b.length = k) :
    slice (a ++ b ++ c) i k = b := by
  subst h hb; simp [slice]

/-! ### The tag map -/

@[simp] theorem tagOf_lit : tagOf .lit = 0 := rfl
@[simp] theorem tagOf_rle : tagOf .rle = 1 := rfl
@[simp] theorem tagOf_dir : tagOf .dir = 2 := rfl
@[simp] theorem tagOf_bmd : tagOf .bmd = 3 := rfl
@[simp] theorem tagOf_fm1 : tagOf .fm1 = 4 := rfl
@[simp] theorem tagOf_fm2 : tagOf .fm2 = 5 := rfl
@[simp] theorem tagOf_fm4 : tagOf .fm4 = 6 := rfl
@[simp] theorem tagOf_pmm : tagOf .pmm = 7 := rfl

theorem catalogue_tagOf (st : Strategy) : catalogue[tagOf st]? = some st := by cases st <;> rfl

theorem catalogue_inv {t : Nat} {st : Strategy} (h : catalogue[t]? = some st) : t = tagOf st := by
  match t with
  | 0 | 1 | 2 | 3 | 4 | 5 | 6 | 7 => cases st <;> simp_all [catalogue]
  | n + 8 => simp [catalogue] at h

theorem payloadLenAt_tagOf (c : Cfg) (st : Strategy) : payloadLenAt c (tagOf st) = payloadLen c st := by
  cases st <;> rfl

theorem legalEntry_tagOf {c : Cfg} {st : Strategy} (h : c.enabled (tagOf st) = true) :
    legalEntry c (tagOf st) = some st := by
  simp [legalEntry, h, catalogue_tagOf]

theorem legalEntry_some {c : Cfg} {t : Nat} {st : Strategy} (h : legalEntry c t = some st) :
    t = tagOf st ∧ c.enabled t = true := by
  unfold legalEntry at h
  split at h
  · exact ⟨catalogue_inv h, by assumption⟩
  · simp at h

end Sys2Proof

namespace Sys2Proof.Machine

/-! ### Transforms, digit by digit (R11) -/

@[simp] theorem xorBits_length (a b : Bits) : (xorBits a b).length = min a.length b.length := by simp [xorBits]

theorem place_length {n s : Nat} {m : Bits} (h : s + m.length ≤ n) : (place n s m).length = n := by
  simp [place]; omega

@[simp] theorem flip_length (e : Bits) (i : Nat) : (flip e i).length = e.length := by
  induction e generalizing i with
  | nil => rfl
  | cons d ds ih => cases i <;> simp [flip, ih]

/-- `flip` inverts the digit at its index and no other. -/
theorem flip_flippedAt (e : Bits) (i : Nat) : FlippedAt (fun j => decide (j = i)) e (flip e i) := by
  induction e generalizing i with
  | nil => intro j; simp [flip]
  | cons d ds ih =>
    intro j
    cases i with
    | zero => cases j <;> simp [flip]
    | succ i =>
      cases j with
      | zero => simp [flip]
      | succ j => simpa [flip] using ih i j

/-- Inversions compose: an index in both sets is inverted twice. -/
theorem FlippedAt_comp {p q : Nat → Bool} {e y z : Bits} (h1 : FlippedAt p e y) (h2 : FlippedAt q y z) :
    FlippedAt (fun i => p i ^^ q i) e z := by
  intro i
  rw [h2 i, h1 i]
  cases e[i]? <;> simp

/-- A Line with the same inverted digits is the same Line. -/
theorem FlippedAt_unique {p q : Nat → Bool} {e y z : Bits} (h1 : FlippedAt p e y) (h2 : FlippedAt q e z)
    (h : ∀ i, i < e.length → p i = q i) : y = z := by
  apply List.ext_getElem?
  intro i
  rw [h1 i, h2 i]
  by_cases hi : i < e.length
  · rw [h i hi]
  · simp [List.getElem?_eq_none (Nat.le_of_not_lt hi)]

theorem FlippedAt_length {p : Nat → Bool} {e y : Bits} (h : FlippedAt p e y) : y.length = e.length := by
  apply Nat.le_antisymm
  · by_contra hc
    have := h e.length
    rw [List.getElem?_eq_getElem (by omega)] at this
    simp at this
  · by_contra hc
    have := h y.length
    rw [List.getElem?_eq_getElem (show y.length < e.length by omega)] at this
    simp at this

/-- The digits of a placed mask (R11): `m[0]` lands at index `s`. -/
theorem place_getElem? {n s : Nat} {m : Bits} (h : s + m.length ≤ n) (i : Nat) :
    (place n s m)[i]? = if i < n then some (decide (s ≤ i) && m.getD (i - s) false) else none := by
  unfold place zeros
  rw [List.append_assoc, List.getElem?_append]
  by_cases h1 : i < s
  · have hn : i < n := by omega
    simp [h1, hn, show ¬ s ≤ i by omega]
  · rw [if_neg (by simpa using h1), List.getElem?_append]
    by_cases h2 : i - s < m.length
    · simp [h2, show i < n by omega, show s ≤ i by omega]
    · simp only [List.length_replicate, h2, if_false]
      by_cases h3 : i < n
      · have hm : m[i - s]? = none := List.getElem?_eq_none (Nat.le_of_not_lt h2)
        rw [List.getElem?_replicate, if_pos (by omega)]; simp [h3, hm]
      · simp [h3]; omega

/-- `xor(e, place(N, s, m))` inverts the digits of `e` under the 1s of the mask (R11). -/
theorem xor_place_flippedAt {e m : Bits} {s : Nat} (h : s + m.length ≤ e.length) :
    FlippedAt (fun i => decide (s ≤ i) && m.getD (i - s) false) e (xorBits e (place e.length s m)) := by
  intro i
  rw [xorBits, List.getElem?_zipWith, place_getElem? h]
  by_cases hi : i < e.length
  · simp [hi]
  · simp [hi]

theorem ones_getD (k i : Nat) : (ones k).getD i false = decide (i < k) := by
  simp only [ones, List.getD_eq_getElem?_getD, List.getElem?_replicate]
  split <;> simp_all

/-- `k` contiguous digits inverted from index `s` on (R174). -/
theorem xor_ones_flippedAt {e : Bits} {s k : Nat} (h : s + k ≤ e.length) :
    FlippedAt (fun i => decide (s ≤ i ∧ i < s + k)) e (xorBits e (place e.length s (ones k))) := by
  have := xor_place_flippedAt (e := e) (m := ones k) (s := s) (by simpa using h)
  intro i
  rw [this i]
  have hb : (decide (s ≤ i) && (ones k).getD (i - s) false) = decide (s ≤ i ∧ i < s + k) := by
    rw [ones_getD]
    by_cases h1 : s ≤ i <;> simp [h1]
    omega
  simp only [hb]

@[simp] theorem padTo_length (k : Nat) (ds : Bits) : (padTo k ds).length = max k ds.length := by
  simp [padTo]; omega

@[simp] theorem busElement_length (k : Nat) (ds : Bits) : (busElement k ds).length = k := by
  simp [busElement]

/-- A bus carries an element of its width unchanged (R311). -/
theorem busElement_padTo {k b : Nat} {ds : Bits} (h : ds.length = k) (hb : k ≤ b) :
    busElement k (padTo b ds) = ds := by
  subst h
  have : padTo ds.length (padTo b ds) = padTo b ds := by
    rw [padTo, padTo_length, show ds.length - max b ds.length = 0 by omega]; simp [zeros]
  rw [busElement, this, padTo, List.take_left']
  rfl

end Sys2Proof.Machine
end

