-- ==== Sys2Proof/Laws/State.lean ====
section
/-! SUPPORT. One lemma per field per named update of the state, each true by unfolding once, so that no later proof unfolds
a record update. -/

namespace Sys2Proof.Machine

/-! ### raise: Fault entry writes the fault registers and the phase only (R340). -/

@[simp] theorem raise_cfg (k : FaultKind) (l t a : Nat) (s : State) : (raise k l t a s).cfg = s.cfg := rfl
@[simp] theorem raise_mode (k : FaultKind) (l t a : Nat) (s : State) : (raise k l t a s).mode = s.mode := rfl
@[simp] theorem raise_phase (k : FaultKind) (l t a : Nat) (s : State) : (raise k l t a s).phase = .fault := rfl
@[simp] theorem raise_faultCode (k : FaultKind) (l t a : Nat) (s : State) : (raise k l t a s).faultCode = k := rfl
@[simp] theorem raise_faultInfo (k : FaultKind) (l t a : Nat) (s : State) : (raise k l t a s).faultInfo = ⟨l, t, a⟩ := rfl
@[simp] theorem raise_mem (k : FaultKind) (l t a : Nat) (s : State) : (raise k l t a s).mem = s.mem := rfl
@[simp] theorem raise_pos (k : FaultKind) (l t a : Nat) (s : State) : (raise k l t a s).pos = s.pos := rfl
@[simp] theorem raise_rleValid (k : FaultKind) (l t a : Nat) (s : State) : (raise k l t a s).rleValid = s.rleValid := rfl
@[simp] theorem raise_rleLast (k : FaultKind) (l t a : Nat) (s : State) : (raise k l t a s).rleLast = s.rleLast := rfl
@[simp] theorem raise_bestValid (k : FaultKind) (l t a : Nat) (s : State) : (raise k l t a s).bestValid = s.bestValid := rfl
@[simp] theorem raise_bestTag (k : FaultKind) (l t a : Nat) (s : State) : (raise k l t a s).bestTag = s.bestTag := rfl
@[simp] theorem raise_bestPayload (k : FaultKind) (l t a : Nat) (s : State) : (raise k l t a s).bestPayload = s.bestPayload := rfl
@[simp] theorem raise_bestConsumed (k : FaultKind) (l t a : Nat) (s : State) : (raise k l t a s).bestConsumed = s.bestConsumed := rfl
@[simp] theorem raise_cur (k : FaultKind) (l t a : Nat) (s : State) : (raise k l t a s).cur = s.cur := rfl
@[simp] theorem raise_loadPart (k : FaultKind) (l t a : Nat) (s : State) : (raise k l t a s).loadPart = s.loadPart := rfl
@[simp] theorem raise_beatsTaken (k : FaultKind) (l t a : Nat) (s : State) : (raise k l t a s).beatsTaken = s.beatsTaken := rfl
@[simp] theorem raise_emitted (k : FaultKind) (l t a : Nat) (s : State) : (raise k l t a s).emitted = s.emitted := rfl
@[simp] theorem raise_inputs (k : FaultKind) (l t a : Nat) (s : State) : (raise k l t a s).inputs = s.inputs := rfl
@[simp] theorem raise_sent (k : FaultKind) (l t a : Nat) (s : State) : (raise k l t a s).sent = s.sent := rfl

/-! ### popTick: Using up a tick touches the host's list only. -/

@[simp] theorem popTick_cfg (s : State) : (s.popTick).cfg = s.cfg := rfl
@[simp] theorem popTick_mode (s : State) : (s.popTick).mode = s.mode := rfl
@[simp] theorem popTick_phase (s : State) : (s.popTick).phase = s.phase := rfl
@[simp] theorem popTick_faultCode (s : State) : (s.popTick).faultCode = s.faultCode := rfl
@[simp] theorem popTick_faultInfo (s : State) : (s.popTick).faultInfo = s.faultInfo := rfl
@[simp] theorem popTick_mem (s : State) : (s.popTick).mem = s.mem := rfl
@[simp] theorem popTick_pos (s : State) : (s.popTick).pos = s.pos := rfl
@[simp] theorem popTick_rleValid (s : State) : (s.popTick).rleValid = s.rleValid := rfl
@[simp] theorem popTick_rleLast (s : State) : (s.popTick).rleLast = s.rleLast := rfl
@[simp] theorem popTick_bestValid (s : State) : (s.popTick).bestValid = s.bestValid := rfl
@[simp] theorem popTick_bestTag (s : State) : (s.popTick).bestTag = s.bestTag := rfl
@[simp] theorem popTick_bestPayload (s : State) : (s.popTick).bestPayload = s.bestPayload := rfl
@[simp] theorem popTick_bestConsumed (s : State) : (s.popTick).bestConsumed = s.bestConsumed := rfl
@[simp] theorem popTick_cur (s : State) : (s.popTick).cur = s.cur := rfl
@[simp] theorem popTick_loadPart (s : State) : (s.popTick).loadPart = s.loadPart := rfl
@[simp] theorem popTick_beatsTaken (s : State) : (s.popTick).beatsTaken = s.beatsTaken := rfl
@[simp] theorem popTick_emitted (s : State) : (s.popTick).emitted = s.emitted := rfl
@[simp] theorem popTick_inputs (s : State) : (s.popTick).inputs = s.inputs.tail := rfl
@[simp] theorem popTick_sent (s : State) : (s.popTick).sent = s.sent := rfl

/-! ### clearRun: Clearing the RunLength memory (R165). -/

@[simp] theorem clearRun_cfg (s : State) : (clearRun s).cfg = s.cfg := rfl
@[simp] theorem clearRun_mode (s : State) : (clearRun s).mode = s.mode := rfl
@[simp] theorem clearRun_phase (s : State) : (clearRun s).phase = s.phase := rfl
@[simp] theorem clearRun_faultCode (s : State) : (clearRun s).faultCode = s.faultCode := rfl
@[simp] theorem clearRun_faultInfo (s : State) : (clearRun s).faultInfo = s.faultInfo := rfl
@[simp] theorem clearRun_mem (s : State) : (clearRun s).mem = s.mem := rfl
@[simp] theorem clearRun_pos (s : State) : (clearRun s).pos = s.pos := rfl
@[simp] theorem clearRun_rleValid (s : State) : (clearRun s).rleValid = false := rfl
@[simp] theorem clearRun_rleLast (s : State) : (clearRun s).rleLast = s.rleLast := rfl
@[simp] theorem clearRun_bestValid (s : State) : (clearRun s).bestValid = s.bestValid := rfl
@[simp] theorem clearRun_bestTag (s : State) : (clearRun s).bestTag = s.bestTag := rfl
@[simp] theorem clearRun_bestPayload (s : State) : (clearRun s).bestPayload = s.bestPayload := rfl
@[simp] theorem clearRun_bestConsumed (s : State) : (clearRun s).bestConsumed = s.bestConsumed := rfl
@[simp] theorem clearRun_cur (s : State) : (clearRun s).cur = s.cur := rfl
@[simp] theorem clearRun_loadPart (s : State) : (clearRun s).loadPart = s.loadPart := rfl
@[simp] theorem clearRun_beatsTaken (s : State) : (clearRun s).beatsTaken = s.beatsTaken := rfl
@[simp] theorem clearRun_emitted (s : State) : (clearRun s).emitted = s.emitted := rfl
@[simp] theorem clearRun_inputs (s : State) : (clearRun s).inputs = s.inputs := rfl
@[simp] theorem clearRun_sent (s : State) : (clearRun s).sent = s.sent := rfl

/-! ### rememberRun: Writing the RunLength memory (R165). -/

@[simp] theorem rememberRun_cfg (x : Bits) (s : State) : (rememberRun x s).cfg = s.cfg := rfl
@[simp] theorem rememberRun_mode (x : Bits) (s : State) : (rememberRun x s).mode = s.mode := rfl
@[simp] theorem rememberRun_phase (x : Bits) (s : State) : (rememberRun x s).phase = s.phase := rfl
@[simp] theorem rememberRun_faultCode (x : Bits) (s : State) : (rememberRun x s).faultCode = s.faultCode := rfl
@[simp] theorem rememberRun_faultInfo (x : Bits) (s : State) : (rememberRun x s).faultInfo = s.faultInfo := rfl
@[simp] theorem rememberRun_mem (x : Bits) (s : State) : (rememberRun x s).mem = s.mem := rfl
@[simp] theorem rememberRun_pos (x : Bits) (s : State) : (rememberRun x s).pos = s.pos := rfl
@[simp] theorem rememberRun_rleValid (x : Bits) (s : State) : (rememberRun x s).rleValid = true := rfl
@[simp] theorem rememberRun_rleLast (x : Bits) (s : State) : (rememberRun x s).rleLast = x := rfl
@[simp] theorem rememberRun_bestValid (x : Bits) (s : State) : (rememberRun x s).bestValid = s.bestValid := rfl
@[simp] theorem rememberRun_bestTag (x : Bits) (s : State) : (rememberRun x s).bestTag = s.bestTag := rfl
@[simp] theorem rememberRun_bestPayload (x : Bits) (s : State) : (rememberRun x s).bestPayload = s.bestPayload := rfl
@[simp] theorem rememberRun_bestConsumed (x : Bits) (s : State) : (rememberRun x s).bestConsumed = s.bestConsumed := rfl
@[simp] theorem rememberRun_cur (x : Bits) (s : State) : (rememberRun x s).cur = s.cur := rfl
@[simp] theorem rememberRun_loadPart (x : Bits) (s : State) : (rememberRun x s).loadPart = s.loadPart := rfl
@[simp] theorem rememberRun_beatsTaken (x : Bits) (s : State) : (rememberRun x s).beatsTaken = s.beatsTaken := rfl
@[simp] theorem rememberRun_emitted (x : Bits) (s : State) : (rememberRun x s).emitted = s.emitted := rfl
@[simp] theorem rememberRun_inputs (x : Bits) (s : State) : (rememberRun x s).inputs = s.inputs := rfl
@[simp] theorem rememberRun_sent (x : Bits) (s : State) : (rememberRun x s).sent = s.sent := rfl

/-! ### clearBest: The start of a selection (R222). -/

@[simp] theorem clearBest_cfg (s : State) : (clearBest s).cfg = s.cfg := rfl
@[simp] theorem clearBest_mode (s : State) : (clearBest s).mode = s.mode := rfl
@[simp] theorem clearBest_phase (s : State) : (clearBest s).phase = s.phase := rfl
@[simp] theorem clearBest_faultCode (s : State) : (clearBest s).faultCode = s.faultCode := rfl
@[simp] theorem clearBest_faultInfo (s : State) : (clearBest s).faultInfo = s.faultInfo := rfl
@[simp] theorem clearBest_mem (s : State) : (clearBest s).mem = s.mem := rfl
@[simp] theorem clearBest_pos (s : State) : (clearBest s).pos = s.pos := rfl
@[simp] theorem clearBest_rleValid (s : State) : (clearBest s).rleValid = s.rleValid := rfl
@[simp] theorem clearBest_rleLast (s : State) : (clearBest s).rleLast = s.rleLast := rfl
@[simp] theorem clearBest_bestValid (s : State) : (clearBest s).bestValid = false := rfl
@[simp] theorem clearBest_bestTag (s : State) : (clearBest s).bestTag = s.bestTag := rfl
@[simp] theorem clearBest_bestPayload (s : State) : (clearBest s).bestPayload = s.bestPayload := rfl
@[simp] theorem clearBest_bestConsumed (s : State) : (clearBest s).bestConsumed = s.bestConsumed := rfl
@[simp] theorem clearBest_cur (s : State) : (clearBest s).cur = s.cur := rfl
@[simp] theorem clearBest_loadPart (s : State) : (clearBest s).loadPart = s.loadPart := rfl
@[simp] theorem clearBest_beatsTaken (s : State) : (clearBest s).beatsTaken = s.beatsTaken := rfl
@[simp] theorem clearBest_emitted (s : State) : (clearBest s).emitted = s.emitted := rfl
@[simp] theorem clearBest_inputs (s : State) : (clearBest s).inputs = s.inputs := rfl
@[simp] theorem clearBest_sent (s : State) : (clearBest s).sent = s.sent := rfl

/-! ### initialised: Reset and CLEAR (R36, R370, R372). -/

@[simp] theorem initialised_cfg (s : State) : (initialised s).cfg = s.cfg := rfl
@[simp] theorem initialised_mode (s : State) : (initialised s).mode = State.reset.mode := rfl
@[simp] theorem initialised_phase (s : State) : (initialised s).phase = State.reset.phase := rfl
@[simp] theorem initialised_faultCode (s : State) : (initialised s).faultCode = State.reset.faultCode := rfl
@[simp] theorem initialised_faultInfo (s : State) : (initialised s).faultInfo = State.reset.faultInfo := rfl
@[simp] theorem initialised_mem (s : State) : (initialised s).mem = State.reset.mem := rfl
@[simp] theorem initialised_pos (s : State) : (initialised s).pos = State.reset.pos := rfl
@[simp] theorem initialised_rleValid (s : State) : (initialised s).rleValid = State.reset.rleValid := rfl
@[simp] theorem initialised_rleLast (s : State) : (initialised s).rleLast = State.reset.rleLast := rfl
@[simp] theorem initialised_bestValid (s : State) : (initialised s).bestValid = State.reset.bestValid := rfl
@[simp] theorem initialised_bestTag (s : State) : (initialised s).bestTag = State.reset.bestTag := rfl
@[simp] theorem initialised_bestPayload (s : State) : (initialised s).bestPayload = State.reset.bestPayload := rfl
@[simp] theorem initialised_bestConsumed (s : State) : (initialised s).bestConsumed = State.reset.bestConsumed := rfl
@[simp] theorem initialised_cur (s : State) : (initialised s).cur = State.reset.cur := rfl
@[simp] theorem initialised_loadPart (s : State) : (initialised s).loadPart = State.reset.loadPart := rfl
@[simp] theorem initialised_beatsTaken (s : State) : (initialised s).beatsTaken = State.reset.beatsTaken := rfl
@[simp] theorem initialised_emitted (s : State) : (initialised s).emitted = State.reset.emitted := rfl
@[simp] theorem initialised_inputs (s : State) : (initialised s).inputs = s.inputs := rfl
@[simp] theorem initialised_sent (s : State) : (initialised s).sent = s.sent := rfl

/-! ### endWalk: The end of the unpacker's walk (R302). -/

@[simp] theorem endWalk_cfg (s : State) : (endWalk s).cfg = s.cfg := rfl
@[simp] theorem endWalk_mode (s : State) : (endWalk s).mode = s.mode := rfl
@[simp] theorem endWalk_phase (s : State) : (endWalk s).phase = .emit := rfl
@[simp] theorem endWalk_faultCode (s : State) : (endWalk s).faultCode = s.faultCode := rfl
@[simp] theorem endWalk_faultInfo (s : State) : (endWalk s).faultInfo = s.faultInfo := rfl
@[simp] theorem endWalk_mem (s : State) : (endWalk s).mem = s.mem := rfl
@[simp] theorem endWalk_pos (s : State) : (endWalk s).pos = s.pos := rfl
@[simp] theorem endWalk_rleValid (s : State) : (endWalk s).rleValid = s.rleValid := rfl
@[simp] theorem endWalk_rleLast (s : State) : (endWalk s).rleLast = s.rleLast := rfl
@[simp] theorem endWalk_bestValid (s : State) : (endWalk s).bestValid = s.bestValid := rfl
@[simp] theorem endWalk_bestTag (s : State) : (endWalk s).bestTag = s.bestTag := rfl
@[simp] theorem endWalk_bestPayload (s : State) : (endWalk s).bestPayload = s.bestPayload := rfl
@[simp] theorem endWalk_bestConsumed (s : State) : (endWalk s).bestConsumed = s.bestConsumed := rfl
@[simp] theorem endWalk_cur (s : State) : (endWalk s).cur = s.cur := rfl
@[simp] theorem endWalk_loadPart (s : State) : (endWalk s).loadPart = s.loadPart := rfl
@[simp] theorem endWalk_beatsTaken (s : State) : (endWalk s).beatsTaken = s.beatsTaken := rfl
@[simp] theorem endWalk_emitted (s : State) : (endWalk s).emitted = s.emitted := rfl
@[simp] theorem endWalk_inputs (s : State) : (endWalk s).inputs = s.inputs := rfl
@[simp] theorem endWalk_sent (s : State) : (endWalk s).sent = s.sent := rfl

/-! ### enterDecode: Reassembly (R281). -/

@[simp] theorem enterDecode_cfg (s : State) : (enterDecode s).cfg = s.cfg := rfl
@[simp] theorem enterDecode_mode (s : State) : (enterDecode s).mode = s.mode := rfl
@[simp] theorem enterDecode_phase (s : State) : (enterDecode s).phase = .decode := rfl
@[simp] theorem enterDecode_faultCode (s : State) : (enterDecode s).faultCode = s.faultCode := rfl
@[simp] theorem enterDecode_faultInfo (s : State) : (enterDecode s).faultInfo = s.faultInfo := rfl
@[simp] theorem enterDecode_mem (s : State) : (enterDecode s).mem = { s.mem with flat := s.mem.rmem.flatten } := rfl
@[simp] theorem enterDecode_pos (s : State) : (enterDecode s).pos = s.pos := rfl
@[simp] theorem enterDecode_rleValid (s : State) : (enterDecode s).rleValid = s.rleValid := rfl
@[simp] theorem enterDecode_rleLast (s : State) : (enterDecode s).rleLast = s.rleLast := rfl
@[simp] theorem enterDecode_bestValid (s : State) : (enterDecode s).bestValid = s.bestValid := rfl
@[simp] theorem enterDecode_bestTag (s : State) : (enterDecode s).bestTag = s.bestTag := rfl
@[simp] theorem enterDecode_bestPayload (s : State) : (enterDecode s).bestPayload = s.bestPayload := rfl
@[simp] theorem enterDecode_bestConsumed (s : State) : (enterDecode s).bestConsumed = s.bestConsumed := rfl
@[simp] theorem enterDecode_cur (s : State) : (enterDecode s).cur = s.cur := rfl
@[simp] theorem enterDecode_loadPart (s : State) : (enterDecode s).loadPart = s.loadPart := rfl
@[simp] theorem enterDecode_beatsTaken (s : State) : (enterDecode s).beatsTaken = s.beatsTaken := rfl
@[simp] theorem enterDecode_emitted (s : State) : (enterDecode s).emitted = s.emitted := rfl
@[simp] theorem enterDecode_inputs (s : State) : (enterDecode s).inputs = s.inputs := rfl
@[simp] theorem enterDecode_sent (s : State) : (enterDecode s).sent = s.sent := rfl

/-! ### putOut: Lines put at the end of OMEM (R162). -/

@[simp] theorem putOut_cfg (ys : List Bits) (s : State) : (putOut ys s).cfg = s.cfg := rfl
@[simp] theorem putOut_mode (ys : List Bits) (s : State) : (putOut ys s).mode = s.mode := rfl
@[simp] theorem putOut_phase (ys : List Bits) (s : State) : (putOut ys s).phase = s.phase := rfl
@[simp] theorem putOut_faultCode (ys : List Bits) (s : State) : (putOut ys s).faultCode = s.faultCode := rfl
@[simp] theorem putOut_faultInfo (ys : List Bits) (s : State) : (putOut ys s).faultInfo = s.faultInfo := rfl
@[simp] theorem putOut_mem (ys : List Bits) (s : State) : (putOut ys s).mem = { s.mem with omem := s.mem.omem ++ ys } := rfl
@[simp] theorem putOut_pos (ys : List Bits) (s : State) : (putOut ys s).pos = s.pos := rfl
@[simp] theorem putOut_rleValid (ys : List Bits) (s : State) : (putOut ys s).rleValid = s.rleValid := rfl
@[simp] theorem putOut_rleLast (ys : List Bits) (s : State) : (putOut ys s).rleLast = s.rleLast := rfl
@[simp] theorem putOut_bestValid (ys : List Bits) (s : State) : (putOut ys s).bestValid = s.bestValid := rfl
@[simp] theorem putOut_bestTag (ys : List Bits) (s : State) : (putOut ys s).bestTag = s.bestTag := rfl
@[simp] theorem putOut_bestPayload (ys : List Bits) (s : State) : (putOut ys s).bestPayload = s.bestPayload := rfl
@[simp] theorem putOut_bestConsumed (ys : List Bits) (s : State) : (putOut ys s).bestConsumed = s.bestConsumed := rfl
@[simp] theorem putOut_cur (ys : List Bits) (s : State) : (putOut ys s).cur = s.cur := rfl
@[simp] theorem putOut_loadPart (ys : List Bits) (s : State) : (putOut ys s).loadPart = s.loadPart := rfl
@[simp] theorem putOut_beatsTaken (ys : List Bits) (s : State) : (putOut ys s).beatsTaken = s.beatsTaken := rfl
@[simp] theorem putOut_emitted (ys : List Bits) (s : State) : (putOut ys s).emitted = s.emitted := rfl
@[simp] theorem putOut_inputs (ys : List Bits) (s : State) : (putOut ys s).inputs = s.inputs := rfl
@[simp] theorem putOut_sent (ys : List Bits) (s : State) : (putOut ys s).sent = s.sent := rfl
@[simp] theorem putOut_nil (s : State) : putOut [] s = s := by simp [putOut]
@[simp] theorem putOut_putOut (xs ys : List Bits) (s : State) : putOut ys (putOut xs s) = putOut (xs ++ ys) s := by
  simp [putOut]
@[simp] theorem putOut_nOut (ys : List Bits) (s : State) : (putOut ys s).nOut = s.nOut + ys.length := by
  simp [putOut, State.nOut]

/-! ### The counters are lengths -/

theorem nLines_eq (s : State) : s.nLines = s.mem.lmem.length := rfl
theorem nEntries_eq (s : State) : s.nEntries = s.mem.etab.length := rfl
theorem dictSize_eq (s : State) : s.dictSize = s.mem.dmem.length := rfl
theorem nInstr_eq (s : State) : s.nInstr = s.mem.iq.length := rfl
theorem nBits_eq (s : State) : s.nBits = s.mem.flat.length := rfl
theorem nRows_eq (s : State) : s.nRows = s.mem.rmem.length := rfl
theorem nOut_eq (s : State) : s.nOut = s.mem.omem.length := rfl

@[simp] theorem tick_popTick_nil (s : State) (h : s.inputs = []) : s.tick = Tick.idle := by simp [State.tick, h]
@[simp] theorem tick_cons (s : State) (t : Tick) (ts : List Tick) (h : s.inputs = t :: ts) : s.tick = t := by
  simp [State.tick, h]

/-- A state is its fields: two states with the same fields are equal. -/
theorem state_ext {s t : State} (h : s.cfg = t.cfg ∧ s.mode = t.mode ∧ s.phase = t.phase ∧ s.faultCode = t.faultCode
    ∧ s.faultInfo = t.faultInfo ∧ s.mem = t.mem ∧ s.pos = t.pos ∧ s.rleValid = t.rleValid ∧ s.rleLast = t.rleLast
    ∧ s.bestValid = t.bestValid ∧ s.bestTag = t.bestTag ∧ s.bestPayload = t.bestPayload
    ∧ s.bestConsumed = t.bestConsumed ∧ s.cur = t.cur ∧ s.loadPart = t.loadPart ∧ s.beatsTaken = t.beatsTaken
    ∧ s.emitted = t.emitted ∧ s.inputs = t.inputs ∧ s.sent = t.sent) : s = t := by
  cases s; cases t; simpa using h

end Sys2Proof.Machine
end

