-- ==== Sys2Proof/Laws/Ops.lean ====
section
/-! SUPPORT. One lemma per shared operation that says what it can do, cited instead of unfolding it. -/

namespace Sys2Proof.Machine

/-! ### Capacities -/

theorem atCapacity_iff (cap : Option Nat) (n : Nat) : atCapacity cap n = true ↔ cap = some n := by
  simp [atCapacity]

/-- Room for one more element means the capacity is not reached. -/
theorem not_atCapacity_of_within {cap : Option Nat} {n : Nat} (h : withinCap cap (n + 1) = true) :
    atCapacity cap n = false := by
  cases cap with
  | none => rfl
  | some m => simp [withinCap] at h; simp [atCapacity]; omega

theorem withinCap_mono {cap : Option Nat} {a b : Nat} (h : withinCap cap b = true) (hab : a ≤ b) :
    withinCap cap a = true := by
  cases cap with
  | none => rfl
  | some m => simp [withinCap] at *; omega

theorem exceeds_eq_not_within (cap : Option Nat) (n : Nat) : exceeds cap n = !withinCap cap n := by
  cases cap with
  | none => rfl
  | some m => simp only [exceeds, withinCap, ← decide_not, Nat.not_le]

/-! ### append (R162) -/

/-- `append` either puts its Line at the end of OMEM or raises CapacityExceeded. -/
theorem append_cases (t : Nat) (y : Bits) (s : State) :
    (s.cfg.maxLines ≠ some s.nOut ∧ append t y s = putOut [y] s)
    ∨ (s.cfg.maxLines = some s.nOut ∧ append t y s = raise .capacityExceeded s.cur t s.nOut s) := by
  by_cases h : s.cfg.maxLines = some s.nOut
  · exact .inr ⟨h, by simp [append, (atCapacity_iff _ _).2 h]⟩
  · exact .inl ⟨h, by simp [append, atCapacity, h]⟩

/-- With room, `append` appends. -/
theorem append_of_room {t : Nat} {y : Bits} {s : State} (h : hasRoom s 1 = true) :
    append t y s = putOut [y] s := by
  simp [append, not_atCapacity_of_within h]

/-- A full OMEM makes `append` raise. -/
theorem append_of_full {t : Nat} {y : Bits} {s : State} (h : s.cfg.maxLines = some s.nOut) :
    append t y s = raise .capacityExceeded s.cur t s.nOut s := by
  simp [append, (atCapacity_iff _ _).2 h]

/-- `appendCopies` appends all its copies, or stops at the first that does not fit (R167, R242). -/
theorem appendCopies_cases (t : Nat) (y : Bits) (k : Nat) (s : State) :
    (appendCopies t y k s = putOut (List.replicate k y) s
      ∧ ∀ m, s.cfg.maxLines = some m → s.nOut ≤ m → s.nOut + k ≤ m)
    ∨ ∃ j, j < k ∧ s.cfg.maxLines = some (s.nOut + j)
        ∧ appendCopies t y k s
          = raise .capacityExceeded s.cur t (s.nOut + j) (putOut (List.replicate j y) s) := by
  induction k generalizing s with
  | zero => left; simp [appendCopies]
  | succ k ih =>
    rw [appendCopies]
    rcases append_cases t y s with ⟨hc, happ⟩ | ⟨hc, happ⟩
    · rw [if_neg (by simpa [atCapacity] using hc), happ]
      rcases ih (putOut [y] s) with ⟨h', hm⟩ | ⟨j, hj, hm, h'⟩
      · refine .inl ⟨by simpa [List.replicate_succ] using h', fun m hcm hle => ?_⟩
        have hne : s.nOut ≠ m := fun h => hc (by rw [hcm, h])
        have := hm m hcm (by simp; omega)
        simp at this; omega
      · refine .inr ⟨j + 1, by omega, ?_, ?_⟩
        · rw [putOut_cfg] at hm; rw [hm]; simp; omega
        · rw [h']; simp [List.replicate_succ]; congr 1; omega
    · rw [if_pos (by simpa [atCapacity] using hc), happ]
      exact .inr ⟨0, by omega, hc, by simp⟩

/-- With room for all copies, `appendCopies` appends them. -/
theorem appendCopies_of_room {t : Nat} {y : Bits} {k : Nat} {s : State} (h : hasRoom s k = true) :
    appendCopies t y k s = putOut (List.replicate k y) s := by
  rcases appendCopies_cases t y k s with ⟨h', _⟩ | ⟨j, hj, hm, _⟩
  · exact h'
  · simp [hasRoom, withinCap, hm] at h; omega

/-! ### get (R138) and indexOf (R137) -/

theorem withEntry_of_some {t j : Nat} {s : State} {use : Bits → State} {e : Bits} (h : s.mem.dmem[j]? = some e) :
    withEntry t j s use = use e := by
  simp [withEntry, h]

theorem withEntry_of_missing {t j : Nat} {s : State} {use : Bits → State} (h : s.dictSize ≤ j) :
    withEntry t j s use = raise .outOfRange s.cur t j s := by
  simp [withEntry, List.getElem?_eq_none (show s.mem.dmem.length ≤ j from h)]

/-- The lookup runs its continuation on an entry or raises OutOfRange. -/
theorem withEntry_cases (t j : Nat) (s : State) (use : Bits → State) :
    (∃ e, s.mem.dmem[j]? = some e ∧ withEntry t j s use = use e)
    ∨ (s.dictSize ≤ j ∧ withEntry t j s use = raise .outOfRange s.cur t j s) := by
  by_cases h : j < s.mem.dmem.length
  · exact .inl ⟨s.mem.dmem[j], List.getElem?_eq_getElem h, withEntry_of_some (List.getElem?_eq_getElem h)⟩
  · exact .inr ⟨Nat.le_of_not_lt h, withEntry_of_missing (Nat.le_of_not_lt h)⟩

theorem indexOf_some {dmem : List Bits} {x : Bits} {j : Nat} (h : indexOf dmem x = some j) :
    dmem[j]? = some x := by
  unfold indexOf at h
  split at h
  · rename_i hc
    cases h
    rw [List.getElem?_eq_getElem (List.idxOf_lt_length_of_mem (by simpa using hc))]
    simp
  · simp at h

/-! ### The cursor and the ticks -/

theorem advanceCur_of_fault {len : Nat} {s : State} (h : s.phase = .fault) : advanceCur len s = s := by
  simp [advanceCur, h]

theorem advanceCur_of_running {len : Nat} {s : State} (h : s.phase ≠ .fault) :
    advanceCur len s = { s with cur := s.cur + len } := by
  simp [advanceCur, h]

theorem countBeat_of_fault {s : State} (h : s.phase = .fault) : countBeat s = s := by
  simp [countBeat, h]

theorem countBeat_of_running {s : State} (h : s.phase ≠ .fault) :
    countBeat s = { s with beatsTaken := s.beatsTaken + 1 } := by
  simp [countBeat, h]

/-- A step without a reset is the phase's step on the state without the tick. -/
theorem step_of_noReset {s : State} (h : noReset s) : step s = phaseStep s.tick s.popTick := by
  simp [step, show s.tick.rst = false from h]

/-- A run goes on from the next state. -/
theorem run_of_step {s t : State} (h : step s = .next t) (k : Nat) :
    Sys2Proof.core.run (k + 1) s = Sys2Proof.core.run k t := by
  have hs : Sys2Proof.core.step s = .next t := h
  simp only [Host.Core.run, hs]

/-! ### The selector's registers (R222) -/

/-- An offer keeps everything but the best-candidate registers, and they hold the offer or what they held. -/
theorem offerBest_cases (t : Nat) (r : CompressionResult) (s : State) :
    ((s.bestValid = false ∨ payloadLenAt s.cfg t < payloadLenAt s.cfg s.bestTag)
      ∧ offerBest t r s
        = { s with bestValid := true, bestTag := t, bestPayload := r.payload, bestConsumed := r.consumed })
    ∨ (s.bestValid = true ∧ payloadLenAt s.cfg s.bestTag ≤ payloadLenAt s.cfg t ∧ offerBest t r s = s) := by
  unfold offerBest
  by_cases hv : s.bestValid = true
  · by_cases hl : payloadLenAt s.cfg t < payloadLenAt s.cfg s.bestTag
    · left; simp [hl]
    · right; simp [hv, hl]; omega
  · left; simp [hv]

/-! ### The searches of the compress halves -/

/-- A result of the shared search (R168) is what its function gives on some entry of the listing. -/
theorem searchEntries_some {dmem : List Bits} {f : Nat → Bits → Option CompressionResult} {r : CompressionResult}
    (h : searchEntries dmem f = some r) : ∃ j e, dmem[j]? = some e ∧ f j e = some r := by
  unfold searchEntries at h
  rw [List.findSome?_eq_some_iff] at h
  obtain ⟨l1, a, l2, hz, ha, -⟩ := h
  have hm : a ∈ dmem.zipIdx := by rw [hz]; simp
  exact ⟨a.2, a.1, by simpa using List.mem_zipIdx_iff_getElem?.1 hm, ha⟩

/-- The look-ahead of RLE (R165) counts Lines that exist and equal `x`, and stops at the cap or at a Line that does not. -/
theorem runCount_cases (x : Bits) (cap : Nat) (ys : List Bits) :
    runCount x cap ys ≤ cap ∧ runCount x cap ys ≤ ys.length
      ∧ (∀ i, i < runCount x cap ys → ys[i]? = some x)
      ∧ (runCount x cap ys = cap ∨ ys[runCount x cap ys]? ≠ some x) := by
  induction cap generalizing ys with
  | zero => simp [runCount]
  | succ cap ih =>
    cases ys with
    | nil => simp [runCount]
    | cons y ys =>
      rw [runCount]
      split
      · rename_i hy
        obtain ⟨h1, h2, h3, h4⟩ := ih ys
        refine ⟨by omega, by simp; omega, ?_, ?_⟩
        · intro i hi
          cases i with
          | zero => simp [hy]
          | succ i => simpa using h3 i (by omega)
        · exact h4.imp (by omega) (by simp)
      · rename_i hy
        simp [hy]

end Sys2Proof.Machine
end

