-- ==== Sys2Proof/Laws/Memory.lean ====
section
/-! SUPPORT. Every operation that writes a memory keeps the canonical form `Memory.wf` (Sys2Proof/Machine/Ops.lean), and
the memories after reset have it. -/

namespace Sys2Proof.Machine

/-- `Memory.wf`, clause by clause. -/
theorem wf_iff (c : Cfg) (m : Memory) : m.wf c = true ↔
    (∀ x ∈ m.lmem, x.length = c.lineW) ∧ (∀ e ∈ m.etab, e.value.length = c.lineW)
      ∧ (∀ x ∈ m.dmem, x.length = c.lineW) ∧ m.dmem.length ≤ c.dictCap
      ∧ (∀ e ∈ m.iq, (legalEntry c e.tag).isSome = true ∧ e.payload.length = payloadLenAt c e.tag)
      ∧ (∀ x ∈ m.rmem, x.length = c.rowW) ∧ (∀ x ∈ m.omem, x.length = c.lineW) := by
  simp only [Memory.wf, Bool.and_eq_true, List.all_eq_true, beq_iff_eq, decide_eq_true_eq, and_assoc]

theorem wf_empty (c : Cfg) : Memory.empty.wf c = true := by simp [Memory.wf, Memory.empty]

theorem reset_wf : State.reset.mem.wf State.reset.cfg = true := wf_empty _

theorem initialised_wf (s : State) : (initialised s).mem.wf (initialised s).cfg = true := wf_empty _

theorem start_wf (m : Mode) (c : Cfg) (s : State) : (start m c s).mem.wf (start m c s).cfg = true := by
  unfold start
  dsimp only
  split <;> exact wf_empty _

theorem command_wf {cmd : Option Command} {s : State} (h : s.mem.wf s.cfg = true) :
    (command cmd s).mem.wf (command cmd s).cfg = true := by
  unfold command
  split
  · exact h
  · split
    · exact h
    · exact start_wf _ _ _
  · split
    · exact h
    · exact initialised_wf s

/-! ### LOAD -/

theorem wf_append_line {c : Cfg} {m : Memory} {x : Bits} (h : m.wf c = true) (hx : x.length = c.lineW) :
    ({ m with lmem := m.lmem ++ [x] } : Memory).wf c = true := by
  rw [wf_iff] at h ⊢
  refine ⟨?_, h.2⟩
  intro y hy
  rcases List.mem_append.1 hy with hy | hy
  · exact h.1 y hy
  · rw [List.mem_singleton.1 hy, hx]

theorem wf_append_row {c : Cfg} {m : Memory} {x : Bits} (h : m.wf c = true) (hx : x.length = c.rowW) :
    ({ m with rmem := m.rmem ++ [x] } : Memory).wf c = true := by
  rw [wf_iff] at h ⊢
  obtain ⟨h1, h2, h3, h4, h5, h6, h7⟩ := h
  refine ⟨h1, h2, h3, h4, h5, ?_, h7⟩
  intro y hy
  rcases List.mem_append.1 hy with hy | hy
  · exact h6 y hy
  · rw [List.mem_singleton.1 hy, hx]

theorem loadEntry_wf {x : Bits} {s : State} (h : s.mem.wf s.cfg = true) (hx : x.length = s.cfg.lineW) :
    (loadEntry x s).mem.wf (loadEntry x s).cfg = true := by
  unfold loadEntry
  split
  · exact h
  · rename_i hne
    have h' := (wf_iff _ _).1 h
    obtain ⟨h1, h2, h3, h4, h5, h6, h7⟩ := h'
    refine (wf_iff _ _).2 ⟨h1, h2, ?_, ?_, h5, h6, h7⟩
    · intro y hy
      rcases List.mem_append.1 hy with hy | hy
      · exact h3 y hy
      · rw [List.mem_singleton.1 hy, hx]
    · have : s.mem.dmem.length ≠ s.cfg.dictCap := hne
      simp; omega

theorem countBeat_wf {s : State} (h : s.mem.wf s.cfg = true) : (countBeat s).mem.wf (countBeat s).cfg = true := by
  unfold countBeat
  split <;> exact h

theorem enterDecode_wf {s : State} (h : s.mem.wf s.cfg = true) :
    (enterDecode s).mem.wf (enterDecode s).cfg = true := h

theorem loadCompress_wf (b : Beat) {s : State} (h : s.mem.wf s.cfg = true) :
    (loadCompress b s).mem.wf (loadCompress b s).cfg = true := by
  unfold loadCompress badFraming
  split
  · split
    · exact h
    · exact wf_append_line h (busElement_length _ _)
  all_goals exact h

theorem loadDecompress_wf (b : Beat) {s : State} (h : s.mem.wf s.cfg = true) :
    (loadDecompress b s).mem.wf (loadDecompress b s).cfg = true := by
  unfold loadDecompress badFraming
  split
  · split
    · exact h
    · exact wf_append_row h (busElement_length _ _)
  · exact h
  · exact loadEntry_wf h (busElement_length _ _)
  all_goals exact h

theorem loadStep_wf (ob : Option Beat) {s : State} (h : s.mem.wf s.cfg = true) :
    (loadStep ob s).mem.wf (loadStep ob s).cfg = true := by
  unfold loadStep
  split
  · exact h
  · unfold loadBeat
    split
    · exact countBeat_wf (loadCompress_wf _ h)
    · exact countBeat_wf (loadDecompress_wf _ h)

/-! ### BUILD -/

/-- The scan puts no value into the table that is not a Line. -/
theorem countLine_values {i : Nat} {x : Bits} {es : List Entry} {e : Entry} (h : e ∈ countLine i x es) :
    e.value = x ∨ ∃ f ∈ es, f.value = e.value := by
  induction es with
  | nil => simp [countLine] at h; simp [h]
  | cons f fs ih =>
    rw [countLine] at h
    split at h
    · rcases List.mem_cons.1 h with h | h
      · subst h; exact .inl ‹_›
      · exact .inr ⟨e, by simp [h], rfl⟩
    · rcases List.mem_cons.1 h with h | h
      · subst h; exact .inr ⟨e, by simp, rfl⟩
      · rcases ih h with h | ⟨g, hg, h⟩
        · exact .inl h
        · exact .inr ⟨g, by simp [hg], h⟩

theorem countFrom_values {xs : List Bits} {i : Nat} {es : List Entry} {e : Entry} (h : e ∈ countFrom i xs es) :
    e.value ∈ xs ∨ ∃ f ∈ es, f.value = e.value := by
  induction xs generalizing i es with
  | nil => exact .inr ⟨e, h, rfl⟩
  | cons x xs ih =>
    rcases ih h with h | ⟨f, hf, h⟩
    · exact .inl (by simp [h])
    · rcases countLine_values hf with h' | ⟨g, hg, h'⟩
      · exact .inl (by simp [← h, h'])
      · exact .inr ⟨g, hg, by rw [h', h]⟩

/-- Every entry of the table is a Line of the input (R131). -/
theorem countLines_values {xs : List Bits} {e : Entry} (h : e ∈ countLines xs) : e.value ∈ xs := by
  rcases countFrom_values h with h | ⟨f, hf, _⟩
  · exact h
  · simp at hf

theorem mem_insertRanked {a e : Entry} {es : List Entry} : a ∈ insertRanked e es ↔ a = e ∨ a ∈ es := by
  induction es with
  | nil => simp [insertRanked]
  | cons f fs ih =>
    rw [insertRanked]
    split
    · simp
    · rw [List.mem_cons, ih, List.mem_cons]; tauto

/-- Ranking changes the order only (R132). -/
theorem mem_rank {a : Entry} {es : List Entry} : a ∈ rank es ↔ a ∈ es := by
  induction es with
  | nil => simp [rank]
  | cons e es ih => rw [rank, mem_insertRanked, ih, List.mem_cons]

theorem mem_topValues {cap : Nat} {es : List Entry} {y : Bits} (h : y ∈ topValues cap es) :
    ∃ e ∈ es, e.value = y := by
  obtain ⟨e, he, rfl⟩ := List.mem_map.1 h
  exact ⟨e, mem_rank.1 (List.mem_of_mem_take he), rfl⟩

theorem topValues_length_le (cap : Nat) (es : List Entry) : (topValues cap es).length ≤ cap := by
  simp [topValues]

theorem build_wf {s : State} (h : s.mem.wf s.cfg = true) : (build s).mem.wf (build s).cfg = true := by
  obtain ⟨h1, -, -, -, h5, h6, h7⟩ := (wf_iff _ _).1 h
  refine (wf_iff _ _).2 ⟨h1, ?_, ?_, topValues_length_le _ _, h5, h6, h7⟩
  · intro e he
    exact h1 _ (countLines_values he)
  · intro y hy
    obtain ⟨e, he, rfl⟩ := mem_topValues hy
    exact h1 _ (countLines_values he)

/-! ### ENCODE -/

/-- Emission keeps the form if the registers hold a legal record (R29). -/
theorem emitBest_wf {s : State} (h : s.mem.wf s.cfg = true) (ht : (legalEntry s.cfg s.bestTag).isSome = true)
    (hp : s.bestPayload.length = payloadLenAt s.cfg s.bestTag) :
    (emitBest s).mem.wf (emitBest s).cfg = true := by
  unfold emitBest
  split
  · exact h
  · obtain ⟨h1, h2, h3, h4, h5, h6, h7⟩ := (wf_iff _ _).1 h
    refine (wf_iff _ _).2 ⟨h1, h2, h3, h4, ?_, h6, h7⟩
    intro e he
    rcases List.mem_append.1 he with he | he
    · exact h5 e he
    · rw [List.mem_singleton.1 he]; exact ⟨ht, hp⟩

/-! ### PACK -/

/-- Every row is `W` digits wide (R263). -/
theorem rowsOf_width {w : Nat} {flat x : Bits} (h : x ∈ rowsOf w flat) : x.length = w := by
  obtain ⟨r, -, rfl⟩ := List.mem_map.1 h
  simp [slice]

theorem pack_wf {s : State} (h : s.mem.wf s.cfg = true) : (pack s).mem.wf (pack s).cfg = true := by
  unfold pack
  dsimp only
  split
  · exact h
  · obtain ⟨h1, h2, h3, h4, h5, -, h7⟩ := (wf_iff _ _).1 h
    exact (wf_iff _ _).2 ⟨h1, h2, h3, h4, h5, fun x hx => rowsOf_width hx, h7⟩

theorem placeProgram_wf (ds : Bits) {s : State} (h : s.mem.wf s.cfg = true) :
    (placeProgram ds s).mem.wf (placeProgram ds s).cfg = true := by
  obtain ⟨h1, h2, h3, h4, h5, -, h7⟩ := (wf_iff _ _).1 h
  exact (wf_iff _ _).2 ⟨h1, h2, h3, h4, h5, fun x hx => rowsOf_width hx, h7⟩

/-! ### DECODE -/

theorem putOut_wf {s : State} {ys : List Bits} (h : s.mem.wf s.cfg = true) (hy : ∀ y ∈ ys, y.length = s.cfg.lineW) :
    (putOut ys s).mem.wf (putOut ys s).cfg = true := by
  obtain ⟨h1, h2, h3, h4, h5, h6, h7⟩ := (wf_iff _ _).1 h
  refine (wf_iff _ _).2 ⟨h1, h2, h3, h4, h5, h6, ?_⟩
  intro y hy'
  rcases List.mem_append.1 hy' with hm | hm
  · exact h7 y hm
  · exact hy y hm

theorem append_wf {t : Nat} {y : Bits} {s : State} (h : s.mem.wf s.cfg = true) (hy : y.length = s.cfg.lineW) :
    (append t y s).mem.wf (append t y s).cfg = true := by
  rcases append_cases t y s with ⟨-, h'⟩ | ⟨-, h'⟩
  · rw [h']; exact putOut_wf h (by simpa using hy)
  · rw [h']; exact h

theorem appendCopies_wf {t : Nat} {y : Bits} {k : Nat} {s : State} (h : s.mem.wf s.cfg = true)
    (hy : y.length = s.cfg.lineW) : (appendCopies t y k s).mem.wf (appendCopies t y k s).cfg = true := by
  have hr : ∀ (j : Nat), ∀ x ∈ List.replicate j y, x.length = s.cfg.lineW := fun j x hx => by
    rw [List.eq_of_mem_replicate hx, hy]
  rcases appendCopies_cases t y k s with ⟨h', -⟩ | ⟨j, -, -, h'⟩
  · rw [h']; exact putOut_wf h (hr k)
  · rw [h']; exact putOut_wf h (hr j)

theorem withEntry_wf {t j : Nat} {s : State} {f : Bits → Bits} (h : s.mem.wf s.cfg = true)
    (hf : ∀ e : Bits, e.length = s.cfg.lineW → (f e).length = s.cfg.lineW) :
    (withEntry t j s fun e => append t (f e) s).mem.wf (withEntry t j s fun e => append t (f e) s).cfg = true := by
  rcases withEntry_cases t j s (fun e => append t (f e) s) with ⟨e, he, h'⟩ | ⟨-, h'⟩
  · rw [h']
    exact append_wf h (hf e (((wf_iff _ _).1 h).2.2.1 e (List.mem_of_getElem? he)))
  · rw [h']; exact h

/-- DISPATCH keeps the form (R26, R67): the instruction's fields have their widths. -/
theorem exec_wf {i : Instr} {s t : State} (h : s.mem.wf s.cfg = true) (hi : fieldsFit s.cfg i = true)
    (he : exec i s = .next t) : t.mem.wf t.cfg = true := by
  have xorLen : ∀ (o : Nat) (m e : Bits), o + m.length ≤ s.cfg.lineW → e.length = s.cfg.lineW →
      (xorBits e (place s.cfg.lineW o m)).length = s.cfg.lineW := by
    intro o m e ho hl
    rw [xorBits_length, place_length ho, hl, Nat.min_self]
  have fmWf : ∀ k tg o j, (execFm k tg o j s).mem.wf (execFm k tg o j s).cfg = true := by
    intro k tg o j
    unfold execFm
    split
    · exact h
    · exact withEntry_wf h fun e hl => xorLen _ _ _ (by simp; omega) hl
  cases i with
  | lit line =>
    cases he
    exact append_wf h (by simpa [fieldsFit] using hi)
  | rle n =>
    simp only [exec, execRle] at he
    split at he
    · cases he; exact h
    · rename_i y hl
      cases he
      exact appendCopies_wf h (((wf_iff _ _).1 h).2.2.2.2.2.2 y (List.mem_of_getLast? hl))
  | dir j => cases he; exact withEntry_wf (f := id) h fun e hl => hl
  | bmd o m j =>
    have hm : m.length = s.cfg.maskW := by simp [fieldsFit] at hi; exact hi.1.2
    simp only [exec, execBmd] at he
    split at he <;> cases he
    · exact h
    · exact withEntry_wf h fun e hl => xorLen _ _ _ (by omega) hl
  | fm1 o j => cases he; exact fmWf _ _ _ _
  | fm2 o j => cases he; exact fmWf _ _ _ _
  | fm4 o j => cases he; exact fmWf _ _ _ _
  | pmm p q j =>
    simp only [exec, execPmm] at he
    split at he
    · cases he; exact h
    · split at he <;> cases he
      · exact h
      · exact withEntry_wf (f := fun e => flip (flip e p) q) h fun e hl => by simpa using hl

end Sys2Proof.Machine
end

