-- ==== Sys2Proof/Laws/PerInstr.lean ====
section
/-! SUPPORT. Laws about every instruction as syntax, one lemma per constructor (LAWS.json). -/

namespace Sys2Proof.Laws.EncodeLength

/-- A well-formed instruction is written in exactly the number of digits its tag announces (R90, R91). -/
def Statement (i : Instr) : Prop := ∀ c : Cfg, wellFormed c i = true → (encode c i).length = instrLen c i

/-- The fields of a well-formed instruction fit their formats. -/
theorem fits {c : Cfg} {i : Instr} (h : wellFormed c i = true) : fieldsFit c i = true := by
  simp only [wellFormed, Bool.and_eq_true] at h
  exact h.2

theorem lit (line : Bits) : Statement (.lit line) := fun c h => by
  have hl : line.length = c.lineW := by simpa [fieldsFit] using fits h
  simp [encode, encodePayload, instrLen, payloadLen, Instr.strategy, hl]

theorem rle (count : Nat) : Statement (.rle count) := fun c _ => by
  simp [encode, encodePayload, instrLen, payloadLen, Instr.strategy]

theorem dir (index : Nat) : Statement (.dir index) := fun c _ => by
  simp [encode, encodePayload, instrLen, payloadLen, Instr.strategy]

theorem bmd (offset : Nat) (mask : Bits) (index : Nat) : Statement (.bmd offset mask index) := fun c h => by
  have hf := fits h
  simp only [fieldsFit, Bool.and_eq_true, beq_iff_eq] at hf
  simp [encode, encodePayload, instrLen, payloadLen, Instr.strategy, hf.1.2, Nat.add_assoc]

theorem fm1 (offset index : Nat) : Statement (.fm1 offset index) := fun c _ => by
  simp [encode, encodePayload, instrLen, payloadLen, Instr.strategy]

theorem fm2 (offset index : Nat) : Statement (.fm2 offset index) := fun c _ => by
  simp [encode, encodePayload, instrLen, payloadLen, Instr.strategy]

theorem fm4 (offset index : Nat) : Statement (.fm4 offset index) := fun c _ => by
  simp [encode, encodePayload, instrLen, payloadLen, Instr.strategy]

theorem pmm (pos1 pos2 index : Nat) : Statement (.pmm pos1 pos2 index) := fun c _ => by
  simp [encode, encodePayload, instrLen, payloadLen, Instr.strategy]; omega

end Sys2Proof.Laws.EncodeLength
end

