-- ==== Sys2Proof/Tests/Slice0.lean ====
section
/-! SUPPORT. The model's own tests: expected values come from spec/95_test_vectors.md and the examples of
spec/30_encoding.md, or are worked out by hand from the rules a test names. The `witness_` theorems show, for every
obligation that has hypotheses, values that meet them together. -/

namespace Sys2Proof.Tests

open Sys2Proof.Machine

/-! ### Helpers -/

/-- Digits written as 0 and 1, index 0 first. -/
def dg (ds : List Nat) : Bits := ds.map (· == 1)

/-- The entry A of spec/95_test_vectors.md. -/
def lineA : Bits := dg [1,1,1,1, 0,0,0,0, 1,1,1,1, 0,0,0,0]
/-- A with digit 15 flipped. -/
def lineA15 : Bits := dg [1,1,1,1, 0,0,0,0, 1,1,1,1, 0,0,0,1]
/-- A with digits 6 and 7 flipped. -/
def lineA67 : Bits := dg [1,1,1,1, 0,0,1,1, 1,1,1,1, 0,0,0,0]
/-- A with digits 9 to 12 flipped. -/
def lineA9 : Bits := dg [1,1,1,1, 0,0,0,0, 1,0,0,0, 1,0,0,0]
/-- A with digits 5 and 7 flipped. -/
def lineA57 : Bits := dg [1,1,1,1, 0,1,0,1, 1,1,1,1, 0,0,0,0]
/-- A with digits 2 and 13 flipped. -/
def lineA213 : Bits := dg [1,1,0,1, 0,0,0,0, 1,1,1,1, 0,1,0,0]
/-- The two Lines of the toy example. -/
def x0001 : Bits := dg [0,0,0,1]
/-- The two Lines of the toy example. -/
def x1111 : Bits := dg [1,1,1,1]

/-- A DECOMPRESS pass in DECODE with this listing, these Lines decoded and these digits in front of the cursor. -/
def decoding (c : Cfg) (dict out : List Bits) (flat : Bits) : State :=
  { State.reset with
    cfg := c, mode := .decompress, phase := .decode
    mem := { Memory.empty with dmem := dict, omem := out, flat := flat } }

/-- A COMPRESS pass in ENCODE at position `pos` of these Lines. -/
def encoding (c : Cfg) (dict lines : List Bits) (pos : Nat) : State :=
  { State.reset with
    cfg := c, mode := .compress, phase := .encode, pos := pos
    mem := { Memory.empty with dmem := dict, lmem := lines } }

/-- The state a step or an instruction leads to, if it is a next state. -/
def after : Host.Outcome State Fault Refusal → Option State
  | .next t => some t
  | .fault _ => none
  | .refused _ => none

/-- The last decoded Line after an instruction in `SMALL` with listing `[A]`. -/
def outA (i : Instr) : Option Bits :=
  (after (exec i (decoding Cfg.small [lineA] [] []))).bind fun t => t.mem.omem.getLast?

/-- The fault an instruction raises in `SMALL` with listing `[A]`: its code and info. -/
def faultA (i : Instr) : Option (FaultKind × FaultInfo) :=
  (after (exec i (decoding Cfg.small [lineA] [] []))).map fun t => (t.faultCode, t.faultInfo)

/-! ### WellFormed: an ill-formed term for each check, refused -/

theorem smoke_enabled : wellFormed Cfg.toy (.bmd 0 [true] 0) = false := by decide
theorem smoke_tag_width : wellFormed { Cfg.ref with tagW := 2 } (.fm1 0 0) = false := by decide
theorem smoke_lit_line : wellFormed Cfg.toy (.lit [true, true, true]) = false := by decide
theorem smoke_rle_count : wellFormed Cfg.toy (.rle 4) = false := by decide
theorem smoke_dir_index : wellFormed Cfg.toy (.dir 4) = false := by decide
theorem smoke_bmd_offset : wellFormed Cfg.small (.bmd 16 (dg [1,0,0,0]) 0) = false := by decide
theorem smoke_bmd_mask : wellFormed Cfg.small (.bmd 0 (dg [1,0,0]) 0) = false := by decide
theorem smoke_bmd_index : wellFormed Cfg.small (.bmd 0 (dg [1,0,0,0]) 4) = false := by decide
theorem smoke_fm1_offset : wellFormed Cfg.small (.fm1 16 0) = false := by decide
theorem smoke_fm1_index : wellFormed Cfg.small (.fm1 0 4) = false := by decide
theorem smoke_fm2_offset : wellFormed Cfg.small (.fm2 16 0) = false := by decide
theorem smoke_fm2_index : wellFormed Cfg.small (.fm2 0 4) = false := by decide
theorem smoke_fm4_offset : wellFormed Cfg.small (.fm4 16 0) = false := by decide
theorem smoke_fm4_index : wellFormed Cfg.small (.fm4 0 4) = false := by decide
theorem smoke_pmm_pos1 : wellFormed Cfg.small (.pmm 16 0 0) = false := by decide
theorem smoke_pmm_pos2 : wellFormed Cfg.small (.pmm 0 16 0) = false := by decide
theorem smoke_pmm_index : wellFormed Cfg.small (.pmm 0 0 4) = false := by decide

/-! ### Decoding: one word per constructor, written from the formats R96 to R101 in `SMALL` (program P1) -/

theorem test_decode_lit : decode Cfg.small (dg [0,0,0, 1,0,1,0,1,0,1,0,1,0,1,0,1,0,1,0])
    = .instr (.lit (dg [1,0,1,0,1,0,1,0,1,0,1,0,1,0,1,0])) [] := by decide
theorem test_decode_rle : decode Cfg.small (dg [0,0,1, 1,0, 1]) = .instr (.rle 2) [true] := by decide
theorem test_decode_dir : decode Cfg.small (dg [0,1,0, 0,1]) = .instr (.dir 1) [] := by decide
theorem test_decode_bmd : decode Cfg.small (dg [0,1,1, 0,1,0,1, 1,0,1,0, 0,1])
    = .instr (.bmd 5 (dg [1,0,1,0]) 1) [] := by decide
theorem test_decode_fm1 : decode Cfg.small (dg [1,0,0, 1,1,1,0, 0,1]) = .instr (.fm1 14 1) [] := by decide
theorem test_decode_fm2 : decode Cfg.small (dg [1,0,1, 0,1,1,0, 1,0]) = .instr (.fm2 6 2) [] := by decide
theorem test_decode_fm4 : decode Cfg.small (dg [1,1,0, 1,0,0,1, 0,1]) = .instr (.fm4 9 1) [] := by decide
theorem test_decode_pmm : decode Cfg.small (dg [1,1,1, 0,0,1,0, 1,1,0,1, 1,0]) = .instr (.pmm 2 13 2) [] := by decide

/-- Zero padding, a short tail, an unknown tag and a cut payload (V-UNP-9, V-UNP-1, V-UNP-8). -/
theorem test_decode_ends :
    decode Cfg.toy (dg [0,0]) = .padding ∧ decode Cfg.toy (dg [0]) = .exhausted
    ∧ decode Cfg.toy (dg [1,1,0,0]) = .unknownTag 3 2 ∧ decode Cfg.toy (dg [0,1]) = .truncated 1 0 := by decide

/-- A tag of 8 or more is unknown although `F` can write it (V-UNP-6). -/
theorem test_decode_tag_nine :
    decode { Cfg.small with tagW := 4 } (dg [1,0,0,1, 0,0,0,0,0,0,0,0,0,0,0,0]) = .unknownTag 9 12 := by decide

/-- The table's numbering: the tag in the low bits, operand bits above it 0 (log 10). -/
theorem test_table_words :
    decodeTableWord 8 0 = some (.lit (zeros 32)) ∧ decodeTableWord 8 1 = some (.rle 0)
    ∧ decodeTableWord 8 2 = some (.dir 0) ∧ decodeTableWord 8 3 = some (.bmd 0 (zeros 4) 0)
    ∧ decodeTableWord 8 4 = some (.fm1 0 0) ∧ decodeTableWord 8 5 = some (.fm2 0 0)
    ∧ decodeTableWord 8 6 = some (.fm4 0 0) ∧ decodeTableWord 8 7 = some (.pmm 0 0 0) := by decide

/-- The word placed where the first step fetches is run by that step: LIT of the zero Line. -/
theorem test_fetch_word :
    (after (step (State.reset.withFetchWord 8 0))).map (fun t => (t.mem.omem, t.cur)) = some ([zeros 32], 35) := by
  decide

/-! ### The instructions: decompress and compress halves on the spec's vectors -/

/-- LIT appends its Line (V-LIT-1); with room for none it raises CapacityExceeded (R162). -/
theorem test_lit_decompress :
    outA (.lit lineA57) = some lineA57
    ∧ ((after (exec (.lit x1111) (decoding { Cfg.toy with maxLines := some 1 } [] [x0001] []))).map
        fun t => (t.faultCode, t.faultInfo)) = some (.capacityExceeded, ⟨0, 0, 1⟩) := by decide

/-- LIT compress (V-LIT-1). -/
theorem test_lit_compress :
    compressLit (encoding Cfg.toy [] [dg [1,0,1,1]] 0) = some ⟨dg [1,0,1,1], 1⟩ := by decide

/-- `RLE 3` after `LIT "1010"` gives five copies in all (V-RLE-10); RLE first raises NoPriorLine (V-RLE-8). -/
theorem test_rle_decompress :
    ((after (exec (.rle 3) (decoding Cfg.toy [] [dg [1,0,1,0]] []))).map fun t => t.mem.omem)
      = some (List.replicate 5 (dg [1,0,1,0]))
    ∧ faultA (.rle 1) = some (.noPriorLine, ⟨0, 1, 1⟩) := by decide

/-- RLE compress: the count stops at the cap of the field and the memory is set (V-RLE-4); refused when the memory holds
the Line (V-RLE-4, position 5); cleared where the look-back fails (V-RLE-5). -/
theorem test_rle_compress :
    (fun r => (r.2, r.1.rleValid, r.1.rleLast)) (compressRle (encoding Cfg.toy [x0001] (List.replicate 7 x0001) 1))
      = (some ⟨dg [1,1], 4⟩, true, x0001)
    ∧ (compressRle { encoding Cfg.toy [x0001] (List.replicate 7 x0001) 5 with rleValid := true, rleLast := x0001 }).2 = none
    ∧ (compressRle { encoding Cfg.toy [x0001] [x0001, x1111] 1 with rleValid := true, rleLast := x0001 }).1.rleValid
        = false := by decide

/-- DIR appends the entry; an index past the listing raises OutOfRange (V-DIR-2). -/
theorem test_dir_decompress :
    outA (.dir 0) = some lineA
    ∧ ((after (exec (.dir 2) (decoding Cfg.toy [x0001, x1111] [] []))).map fun t => (t.faultCode, t.faultInfo))
        = some (.outOfRange, ⟨0, 2, 2⟩) := by decide

/-- DIR compress (V-DIR-1). -/
theorem test_dir_compress :
    compressDir (encoding Cfg.toy [x0001, x1111] [x1111] 0) = some ⟨dg [0,1], 1⟩
    ∧ compressDir (encoding Cfg.toy [x0001, x1111] [dg [0,0,1,1]] 0) = none := by decide

/-- A non-canonical mask is accepted (V-BMD-7); an offset past the Line raises BadField (V-BMD-8). -/
theorem test_bmd_decompress :
    outA (.bmd 0 (dg [0,1,1,0]) 0) = some (dg [1,0,0,1, 0,0,0,0, 1,1,1,1, 0,0,0,0])
    ∧ faultA (.bmd 13 (dg [0,0,0,1]) 0) = some (.badField, ⟨0, 3, 13⟩) := by decide

/-- BMD compress at the right edge of the Line, and a span too wide for the mask (V-BMD-2, V-BMD-3). -/
theorem test_bmd_compress :
    compressBmd (encoding Cfg.small [lineA] [lineA15] 0) = some ⟨dg [1,1,0,0, 0,0,0,1, 0,0], 1⟩
    ∧ compressBmd (encoding Cfg.small [lineA] [dg [1,1,1,1, 0,0,0,0, 1,1,1,0, 0,0,0,1]] 0) = none := by decide

/-- FM1 (V-FM1-1); a missing entry raises OutOfRange (V-FM1-3). -/
theorem test_fm1_decompress :
    outA (.fm1 15 0) = some lineA15 ∧ faultA (.fm1 3 1) = some (.outOfRange, ⟨0, 4, 1⟩) := by decide

/-- FM1 compress (V-FM1-1). -/
theorem test_fm1_compress :
    compressFm1 (encoding Cfg.small [lineA] [lineA15] 0) = some ⟨dg [1,1,1,1, 0,0], 1⟩ := by decide

/-- FM2 (V-FM2-1); the offset one past the last legal one raises BadField (V-FM2-4). -/
theorem test_fm2_decompress :
    outA (.fm2 6 0) = some lineA67 ∧ faultA (.fm2 15 0) = some (.badField, ⟨0, 5, 15⟩) := by decide

/-- FM2 compress: adjacent digits only (V-FM2-1, V-FM2-3). -/
theorem test_fm2_compress :
    compressFm2 (encoding Cfg.small [lineA] [lineA67] 0) = some ⟨dg [0,1,1,0, 0,0], 1⟩
    ∧ compressFm2 (encoding Cfg.small [lineA] [lineA57] 0) = none := by decide

/-- FM4 (V-FM4-1); the field range is checked before the lookup (V-FM4-4). -/
theorem test_fm4_decompress :
    outA (.fm4 9 0) = some lineA9 ∧ faultA (.fm4 13 3) = some (.badField, ⟨0, 6, 13⟩) := by decide

/-- FM4 compress: all four digits must differ (V-FM4-1, V-FM4-3). -/
theorem test_fm4_compress :
    compressFm4 (encoding Cfg.small [lineA] [lineA9] 0) = some ⟨dg [1,0,0,1, 0,0], 1⟩
    ∧ compressFm4 (encoding Cfg.small [lineA] [dg [1,1,1,1, 0,0,0,0, 1,0,0,1, 1,0,0,0]] 0) = none := by decide

/-- PMM: a descending pair acts as the ascending one (V-PMM-4); equal positions cancel (V-PMM-5). -/
theorem test_pmm_decompress :
    outA (.pmm 13 2 0) = some lineA213 ∧ outA (.pmm 5 5 0) = some lineA := by decide

/-- PMM compress, and the position past a 12-digit Line (V-PMM-1, V-PMM-7). -/
theorem test_pmm_compress :
    compressPmm (encoding Cfg.small [lineA] [lineA213] 0) = some ⟨dg [0,0,1,0, 1,1,0,1, 0,0], 1⟩
    ∧ ((after (exec (.pmm 12 0 0) (decoding { Cfg.small with lineW := 12 } [zeros 12] [] []))).map
        fun t => (t.faultCode, t.faultInfo)) = some (.badField, ⟨0, 7, 12⟩) := by decide

/-! ### The units -/

/-- The configuration check (V-CFG-1 to V-CFG-8). -/
theorem test_cfg :
    (cfgViolation { Cfg.toy with dictCap := 5 } = 5 ∧ cfgViolation { Cfg.toy with rowW := 8 } = 2
      ∧ cfgViolation { Cfg.toy with stratEn := 0b1111#8 } = 7 ∧ cfgViolation { Cfg.toy with stratEn := 0b110#8 } = 13
      ∧ cfgViolation { Cfg.toy with tagW := 1 } = 13 ∧ cfgViolation { Cfg.ref with posW := 4 } = 12
      ∧ cfgViolation { Cfg.ref with rowW := 36 } = 2)
    ∧ cfgValid { Cfg.ref with rowW := 35 } = true ∧ cfgValid Cfg.toy = true ∧ cfgValid Cfg.small = true
    ∧ cfgValid Cfg.ref = true := by decide

/-- The builder cuts the listing at the cap (V-FDB-4) and breaks ties by first occurrence (V-FDB-2). -/
theorem test_build :
    countLines [x0001, dg [0,0,1,0], dg [0,1,0,0], dg [0,1,0,0]]
      = [⟨x0001, 0, 1⟩, ⟨dg [0,0,1,0], 1, 1⟩, ⟨dg [0,1,0,0], 2, 2⟩]
    ∧ topValues 2 (countLines [x0001, dg [0,0,1,0], dg [0,1,0,0], dg [0,1,0,0]]) = [dg [0,1,0,0], x0001]
    ∧ topValues 4 (countLines [dg [1,0,0,0], dg [0,1,0,0], dg [1,0,0,0], dg [0,1,0,0], dg [0,0,1,0]])
      = [dg [1,0,0,0], dg [0,1,0,0], dg [0,0,1,0]] := by decide

/-- One selection: RLE beats DIR on a tie (V-SEL-5). -/
theorem test_select :
    (after (step { encoding Cfg.toy [x0001] [x0001, x0001] 1 with inputs := [] })).map (fun t => (t.mem.iq, t.pos))
      = some ([⟨1, dg [0,0]⟩], 2) := by decide

/-- The packer on the toy example's queue with rows of 5 (S2). -/
theorem test_pack :
    rowsOf 5 (concatInstrs Cfg.toy [⟨2, dg [0,0]⟩, ⟨1, dg [0,1]⟩, ⟨2, dg [0,1]⟩])
      = [dg [1,0,0,0,0], dg [1,0,1,1,0], dg [0,1,0,0,0]] := by decide

/-- A listing longer than the cap raises InvalidConfig (spec/95_test_vectors.md 2.2). -/
theorem test_load_listing :
    (fun t => (t.faultCode, t.faultInfo))
      (loadEntry x0001 (decoding Cfg.toy [x0001, x0001, x0001, x0001] [] [])) = (.invalidConfig, ⟨4, 0, 0⟩) := by decide

/-! ### Witnesses: the hypotheses of each obligation are met together -/

theorem witness_DecodeOfEncode :
    wellFormed Cfg.small (.pmm 15 15 3) = true ∧ wellFormed Cfg.small (.lit lineA) = true
    ∧ wellFormed Cfg.small (.rle 3) = true ∧ wellFormed Cfg.small (.dir 3) = true
    ∧ wellFormed Cfg.small (.bmd 15 (ones 4) 3) = true ∧ wellFormed Cfg.small (.fm1 15 3) = true
    ∧ wellFormed Cfg.small (.fm2 15 3) = true ∧ wellFormed Cfg.small (.fm4 15 3) = true := by decide

theorem witness_DecodedInstrIsEncoded :
    decode Cfg.toy (dg [1,0, 1,1, 0]) = .instr (.dir 3) [false] := by decide

/-- A pass in `TOY` whose next instruction is `DIR 0`, followed by `RLE 1`. -/
def sDir : State := decoding Cfg.toy [x0001, x1111] [] (dg [1,0,0,0, 0,1,0,1])

/-- An instruction that goes on, and one that faults (V-UNP-4). -/
theorem witness_StepRunsDecodedInstr :
    (sDir.phase = .decode ∧ noReset sDir ∧ fetch sDir = .instr (.dir 0) (dg [0,1,0,1])
      ∧ ∃ t, exec (.dir 0) sDir.popTick = .next t ∧ t.phase ≠ .fault)
    ∧ ((decoding Cfg.toy [] [] (dg [1,0,1,0])).phase = .decode ∧ noReset (decoding Cfg.toy [] [] (dg [1,0,1,0]))
      ∧ fetch (decoding Cfg.toy [] [] (dg [1,0,1,0])) = .instr (.dir 2) []
      ∧ ∃ t, exec (.dir 2) (decoding Cfg.toy [] [] (dg [1,0,1,0])).popTick = .next t ∧ t.phase = .fault) :=
  ⟨⟨rfl, rfl, by decide, _, rfl, by decide⟩, ⟨rfl, rfl, by decide, _, rfl, by decide⟩⟩

/-- One digit left, one fewer than the tag. -/
theorem witness_WalkEndsOnShortTail :
    (decoding Cfg.toy [] [] (dg [0])).phase = .decode ∧ noReset (decoding Cfg.toy [] [] (dg [0]))
    ∧ (decoding Cfg.toy [] [] (dg [0])).nBits - (decoding Cfg.toy [] [] (dg [0])).cur < Cfg.toy.tagW :=
  ⟨rfl, rfl, by decide⟩

/-- A disabled tag (V-UNP-1), and a tag of 8 or more (V-UNP-6 with the tag 8 and no digit after it). -/
theorem witness_UnknownTagIsStreamCorruption :
    ((decoding Cfg.toy [] [] (dg [1,1,0,0])).phase = .decode ∧ noReset (decoding Cfg.toy [] [] (dg [1,1,0,0]))
      ∧ Cfg.toy.tagW ≤ (decoding Cfg.toy [] [] (dg [1,1,0,0])).nBits - 0
      ∧ 3 = val (slice (dg [1,1,0,0]) 0 Cfg.toy.tagW) ∧ Cfg.toy.enabled 3 = false)
    ∧ ((decoding { Cfg.small with tagW := 4 } [] [] (dg [1,0,0,0])).phase = .decode
      ∧ noReset (decoding { Cfg.small with tagW := 4 } [] [] (dg [1,0,0,0]))
      ∧ 4 ≤ (decoding { Cfg.small with tagW := 4 } [] [] (dg [1,0,0,0])).nBits - 0
      ∧ 8 = val (slice (dg [1,0,0,0]) 0 4) ∧ 8 ≤ 8) :=
  ⟨⟨rfl, rfl, by decide, by decide, by decide⟩, ⟨rfl, rfl, by decide, by decide, by decide⟩⟩

/-- A Literal and a RunLength each one digit short. -/
theorem witness_ShortPayloadIsPaddingOrCorruption :
    (∀ flat ∈ [dg [0,0,1,1,1], dg [0,1,1]],
      (decoding Cfg.toy [] [] flat).phase = .decode ∧ (decoding Cfg.toy [] [] flat).tick.rst = false
      ∧ Cfg.toy.tagW ≤ (decoding Cfg.toy [] [] flat).nBits - 0 ∧ val (slice flat 0 Cfg.toy.tagW) < 8
      ∧ Cfg.toy.enabled (val (slice flat 0 Cfg.toy.tagW)) = true
      ∧ (decoding Cfg.toy [] [] flat).nBits - 0 - Cfg.toy.tagW
          < payloadLenAt Cfg.toy (val (slice flat 0 Cfg.toy.tagW)))
    ∧ val (slice (dg [0,0,1,1,1]) 0 Cfg.toy.tagW) = 0 ∧ val (slice (dg [0,1,1]) 0 Cfg.toy.tagW) ≠ 0 := by decide

/-- The END beat of a listing after two rows. -/
def sEnd : State :=
  { State.reset with
    cfg := Cfg.toy, mode := .decompress, phase := .load, loadPart := .listing
    mem := { Memory.empty with rmem := [dg [1,0,0,0], dg [0,1,0,1]] }
    inputs := [{ inBeat := some ⟨.fin, zeros 4⟩ }] }

theorem witness_FlatDigitsAreRowDigits :
    sEnd.phase = .load ∧ sEnd.mode = .decompress ∧ sEnd.loadPart = .listing ∧ noReset sEnd
    ∧ sEnd.tick.inBeat = some ⟨.fin, zeros 4⟩ ∧ (⟨.fin, zeros 4⟩ : Beat).kind = .fin
    ∧ ∀ r ∈ sEnd.mem.rmem, r.length = sEnd.cfg.rowW :=
  ⟨rfl, rfl, rfl, rfl, rfl, rfl, by decide⟩

theorem witness_DecodeKeepsTheProgram :
    sDir.phase = .decode ∧ noReset sDir ∧ ∃ t, step sDir = .next t ∧ t.phase = .decode :=
  ⟨rfl, rfl, _, rfl, by decide⟩

/-- The widest padding, `W - 1` zeros, under `SMALL`. -/
theorem witness_PaddingAppendsNoLine :
    (decoding Cfg.small [] [] (zeros 15)).phase = .decode ∧ noReset (decoding Cfg.small [] [] (zeros 15))
    ∧ cfgValid Cfg.small = true ∧ 15 < Cfg.small.rowW ∧ (zeros 15).drop 0 = zeros 15 :=
  ⟨rfl, rfl, by decide, by decide, by decide⟩

/-- A pass in DECODE with the invariant: `DIR 0`, then `RLE 1`, in two rows. -/
def sWalk : State :=
  { State.reset with
    cfg := Cfg.toy, mode := .decompress, phase := .decode
    mem := { Memory.empty with
      dmem := [x0001, x1111], rmem := [dg [1,0,0,0], dg [0,1,0,1]], flat := dg [1,0,0,0, 0,1,0,1] } }

theorem sWalk_inv : Inv sWalk := by constructor <;> decide

theorem witness_DecodeWalkEnds : Inv sWalk ∧ sWalk.phase = .decode ∧ sWalk.inputs = [] := ⟨sWalk_inv, rfl, rfl⟩

/-- A pass in DECODE whose OMEM may hold `n` Lines. -/
def sRoom (dict out : List Bits) (n : Nat) : State := decoding { Cfg.small with maxLines := some n } dict out []

/-- OMEM one short of full, and full. -/
theorem witness_LitAppendsItsLine :
    (sRoom [] [] 1).cfg.maxLines ≠ some (sRoom [] [] 1).nOut
    ∧ (sRoom [] [lineA] 1).cfg.maxLines = some (sRoom [] [lineA] 1).nOut := by decide

/-- No decoded Line; the largest count of `SMALL` into exactly the room it needs; the last copy without room. -/
theorem witness_RleRepeatsTheLastLine :
    (sRoom [lineA] [] 0).mem.omem = []
    ∧ ((sRoom [] [lineA] 5).mem.omem.getLast? = some lineA
      ∧ ∀ i, i ≤ 3 → (sRoom [] [lineA] 5).cfg.maxLines ≠ some ((sRoom [] [lineA] 5).nOut + i))
    ∧ ((sRoom [] [lineA] 4).mem.omem.getLast? = some lineA ∧ 3 ≤ 3
      ∧ (sRoom [] [lineA] 4).cfg.maxLines = some ((sRoom [] [lineA] 4).nOut + 3)) := by decide

/-- The last entry with and without room for it, and the first index past the listing. -/
theorem witness_DirAppendsTheEntry :
    ((sRoom [lineA, lineA15] [] 1).mem.dmem[1]? = some lineA15
      ∧ (sRoom [lineA, lineA15] [] 1).cfg.maxLines ≠ some (sRoom [lineA, lineA15] [] 1).nOut)
    ∧ ((sRoom [lineA, lineA15] [] 0).mem.dmem[1]? = some lineA15
      ∧ (sRoom [lineA, lineA15] [] 0).cfg.maxLines = some (sRoom [lineA, lineA15] [] 0).nOut)
    ∧ (sRoom [lineA, lineA15] [] 1).dictSize ≤ 2 := by decide

/-- The last offset the mask fits at and the first it does not, with an entry and without one, OMEM not full and full. -/
theorem witness_BmdAppendsTheMaskedEntry :
    (ones 4).length = (sRoom [lineA] [] 1).cfg.maskW
    ∧ (sRoom [lineA] [] 1).cfg.lineW < 13 + (sRoom [lineA] [] 1).cfg.maskW
    ∧ 12 + (sRoom [lineA] [] 1).cfg.maskW ≤ (sRoom [lineA] [] 1).cfg.lineW ∧ (sRoom [lineA] [] 1).dictSize ≤ 1
    ∧ (sRoom [lineA] [] 1).mem.dmem[0]? = some lineA ∧ lineA.length = (sRoom [lineA] [] 1).cfg.lineW
    ∧ (sRoom [lineA] [] 1).cfg.maxLines ≠ some (sRoom [lineA] [] 1).nOut
    ∧ ((sRoom [lineA] [lineA] 1).mem.dmem[0]? = some lineA
      ∧ (sRoom [lineA] [lineA] 1).cfg.maxLines = some (sRoom [lineA] [lineA] 1).nOut) := by decide

/-- The last good offset of each of the three and the first bad one, with an entry and without one, OMEM not full and full. -/
theorem witness_FixedMismatchAppendsTheFlippedEntry :
    ((sRoom [lineA] [] 1).mem.dmem[0]? = some lineA ∧ lineA.length = (sRoom [lineA] [] 1).cfg.lineW
      ∧ (sRoom [lineA] [] 1).dictSize ≤ 1 ∧ (sRoom [lineA] [] 1).cfg.maxLines ≠ some (sRoom [lineA] [] 1).nOut)
    ∧ ((sRoom [lineA] [lineA] 1).mem.dmem[0]? = some lineA
      ∧ (sRoom [lineA] [lineA] 1).cfg.maxLines = some (sRoom [lineA] [lineA] 1).nOut)
    ∧ (15 + 1 ≤ (sRoom [lineA] [] 1).cfg.lineW ∧ (sRoom [lineA] [] 1).cfg.lineW < 16 + 1)
    ∧ (14 + 2 ≤ (sRoom [lineA] [] 1).cfg.lineW ∧ (sRoom [lineA] [] 1).cfg.lineW < 15 + 2)
    ∧ (12 + 4 ≤ (sRoom [lineA] [] 1).cfg.lineW ∧ (sRoom [lineA] [] 1).cfg.lineW < 13 + 4) := by decide

/-- The last good position and the first bad one, with an entry and without one, OMEM not full and full. -/
theorem witness_PmmAppendsTheDoublyFlippedEntry :
    (sRoom [lineA] [] 1).mem.dmem[0]? = some lineA ∧ lineA.length = (sRoom [lineA] [] 1).cfg.lineW
    ∧ (sRoom [lineA] [] 1).dictSize ≤ 1 ∧ 15 < (sRoom [lineA] [] 1).cfg.lineW
    ∧ (sRoom [lineA] [] 1).cfg.lineW ≤ 16 ∧ (sRoom [lineA] [] 1).cfg.maxLines ≠ some (sRoom [lineA] [] 1).nOut
    ∧ ((sRoom [lineA] [lineA] 1).mem.dmem[0]? = some lineA
      ∧ (sRoom [lineA] [lineA] 1).cfg.maxLines = some (sRoom [lineA] [lineA] 1).nOut) := by decide

/-- A Line that is no entry, and one that is an entry twice. -/
theorem witness_LitAndDirCompress :
    ((encoding Cfg.toy [x0001] [x1111] 0).mem.lmem[(encoding Cfg.toy [x0001] [x1111] 0).pos]? = some x1111
      ∧ x1111 ∉ (encoding Cfg.toy [x0001] [x1111] 0).mem.dmem)
    ∧ ((encoding Cfg.toy [x0001, x1111, x1111] [x1111] 0).mem.lmem[0]? = some x1111
      ∧ (encoding Cfg.toy [x0001, x1111, x1111] [x1111] 0).mem.dmem[1]? = some x1111
      ∧ ∀ i, i < 1 → (encoding Cfg.toy [x0001, x1111, x1111] [x1111] 0).mem.dmem[i]? ≠ some x1111) := by decide

/-- A failed look-back at 0 and at 1, a refusal, and a run at the end of the input. -/
theorem witness_RleCompressCountsTheRun :
    ((encoding Cfg.toy [] [x0001] 0).mem.lmem[0]? = some x0001 ∧ (encoding Cfg.toy [] [x0001] 0).pos = 0)
    ∧ ((encoding Cfg.toy [] [x0001, x1111] 1).mem.lmem[1]? = some x1111
      ∧ (encoding Cfg.toy [] [x0001, x1111] 1).mem.lmem[1 - 1]? ≠ some x1111)
    ∧ ((fun s : State => s.mem.lmem[s.pos]? = some x0001 ∧ 0 < s.pos ∧ s.mem.lmem[s.pos - 1]? = some x0001
        ∧ s.rleValid = true ∧ s.rleLast = x0001)
      { encoding Cfg.toy [] [x0001, x0001] 1 with rleValid := true, rleLast := x0001 })
    ∧ ((fun s : State => s.mem.lmem[s.pos]? = some x0001 ∧ 0 < s.pos ∧ s.mem.lmem[s.pos - 1]? = some x0001
        ∧ ¬ (s.rleValid = true ∧ s.rleLast = x0001))
      (encoding Cfg.toy [] [x0001, x0001] 1)) := by decide

/-- `SMALL` at the Line A57 with two entries. -/
def sSearch : State := encoding Cfg.small [lineA, lineA67] [lineA57] 0

/-- Two entries match and one before them does not: the lower of the two wins (R168). -/
theorem test_search_lowest :
    searchEntries [lineA, lineA67, lineA67] (fun j e => if e = lineA67 then some ⟨enc 2 j, 1⟩ else none)
      = some ⟨enc 2 1, 1⟩ := by decide

theorem witness_BmdSearchIsItsClosedForm :
    sSearch.mem.lmem[sSearch.pos]? = some lineA57 ∧ lineA57.length = sSearch.cfg.lineW
    ∧ (∀ e ∈ sSearch.mem.dmem, e.length = sSearch.cfg.lineW) ∧ 1 ≤ sSearch.cfg.maskW
    ∧ sSearch.cfg.maskW ≤ sSearch.cfg.lineW := by decide

theorem witness_FixedMismatchSearchIsItsClosedForm :
    sSearch.mem.lmem[sSearch.pos]? = some lineA57 ∧ lineA57.length = sSearch.cfg.lineW
    ∧ ∀ e ∈ sSearch.mem.dmem, e.length = sSearch.cfg.lineW := by decide

theorem witness_PmmSearchIsItsClosedForm :
    sSearch.mem.lmem[sSearch.pos]? = some lineA57 ∧ lineA57.length = sSearch.cfg.lineW
    ∧ ∀ e ∈ sSearch.mem.dmem, e.length = sSearch.cfg.lineW := by decide

/-- PMM on `sSearch` gives a result (V-SEL-8), and a state that differs from it in the RunLength memory. -/
theorem witness_CompressContractHolds :
    cfgValid sSearch.cfg = true ∧ sSearch.cfg.enabled (tagOf .pmm) = true ∧ sSearch.mem.wf sSearch.cfg = true
    ∧ sSearch.pos < sSearch.nLines
    ∧ (evaluate .pmm sSearch).2 = some ⟨dg [0,1,0,1, 0,1,1,1, 0,0], 1⟩
    ∧ (fun u : State => u.cfg = sSearch.cfg ∧ u.mem.lmem = sSearch.mem.lmem ∧ u.mem.dmem = sSearch.mem.dmem
        ∧ u.pos = sSearch.pos ∧ u ≠ sSearch) { sSearch with rleValid := true, rleLast := lineA57 } := by decide

/-- RLE over the last three Lines of the toy input, into a decoder with the first of them and room for exactly the rest. -/
theorem witness_DecompressUndoesCompress :
    (fun (s d : State) => cfgValid s.cfg = true ∧ s.cfg.enabled (tagOf .rle) = true ∧ s.mem.wf s.cfg = true
      ∧ s.pos < s.nLines ∧ (evaluate .rle s).2 = some ⟨dg [0,1], 2⟩
      ∧ d.cfg = s.cfg ∧ d.mem.dmem = s.mem.dmem ∧ d.mem.omem = s.mem.lmem.take s.pos ∧ hasRoom d 2 = true)
    (encoding { Cfg.toy with maxLines := some 3 } [x0001] [x0001, x0001, x0001] 1)
    (decoding { Cfg.toy with maxLines := some 3 } [x0001] [x0001] []) := by decide

/-- A selection with room for exactly one instruction, with RLE enabled and with RLE disabled, and one with no room. -/
theorem witness_EncodeStepPicksTheCheapest :
    (fun s : State => s.phase = .encode ∧ s.tick.rst = false ∧ cfgValid s.cfg = true ∧ s.pos < s.nLines
      ∧ s.cfg.maxLines ≠ some s.nInstr ∧ s.cfg.enabled 1 = true)
      (encoding { Cfg.toy with maxLines := some 1 } [x0001] [x0001] 0)
    ∧ (fun s : State => s.phase = .encode ∧ s.tick.rst = false ∧ cfgValid s.cfg = true ∧ s.pos < s.nLines
      ∧ s.cfg.maxLines ≠ some s.nInstr ∧ s.cfg.enabled 1 = false)
      (encoding { Cfg.toy with maxLines := some 1, stratEn := 0b101#8 } [x0001] [x0001] 0)
    ∧ (fun s : State => s.phase = .encode ∧ s.tick.rst = false ∧ cfgValid s.cfg = true ∧ s.pos < s.nLines
      ∧ s.cfg.maxLines = some s.nInstr)
      (encoding { Cfg.toy with maxLines := some 0 } [x0001] [x0001] 0) := by decide

/-- ENCODE at the start of the toy input. -/
def sEncode : State := encoding Cfg.toy [x0001, x1111] [x0001, x0001, x0001, x1111] 0

theorem sEncode_inv : Inv sEncode := by constructor <;> decide

theorem witness_EncodeWalkEnds : Inv sEncode ∧ sEncode.phase = .encode ∧ sEncode.inputs = [] :=
  ⟨sEncode_inv, rfl, rfl⟩

/-- BUILD of the toy input with a cap of one entry. -/
def sBuild : State :=
  { encoding { Cfg.toy with dictCap := 1 } [] [x0001, x0001, x0001, x1111] 0 with phase := .build }

theorem witness_BuildCountsEveryLine : sBuild.phase = .build ∧ noReset sBuild := ⟨rfl, rfl⟩

theorem witness_BuildKeepsTheMostCommonLines : sBuild.phase = .build ∧ noReset sBuild := ⟨rfl, rfl⟩

/-- Both answers of the lookup, on a listing with a repeated entry. -/
theorem witness_IndexOfFindsTheLowestIndex :
    indexOf [x0001, x1111, x1111] x1111 = some 1 ∧ indexOf [x0001] x1111 = none := by decide

/-- PACK of the toy example's queue: 12 digits in rows of 5, three rows. -/
def sPack (cap : Nat) : State :=
  { encoding { Cfg.toy with rowW := 5, maxRows := some cap } [] [] 0 with
    phase := .pack
    mem := { Memory.empty with iq := [⟨2, dg [0,0]⟩, ⟨1, dg [0,1]⟩, ⟨2, dg [0,1]⟩] } }

/-- Room for exactly the three rows, and for one fewer. -/
theorem witness_PackCutsAndPadsRows :
    (fun s : State => s.phase = .pack ∧ s.tick.rst = false ∧ 1 ≤ s.cfg.rowW
      ∧ dg [1,0,0,0, 0,1,0,1, 1,0,0,1] = s.mem.iq.flatMap (fun e => enc s.cfg.tagW e.tag ++ e.payload)
      ∧ 3 = ((dg [1,0,0,0, 0,1,0,1, 1,0,0,1]).length + s.cfg.rowW - 1) / s.cfg.rowW
      ∧ withinCap s.cfg.maxRows 3 = true) (sPack 3)
    ∧ (fun s : State => s.phase = .pack ∧ s.tick.rst = false
      ∧ dg [1,0,0,0, 0,1,0,1, 1,0,0,1] = s.mem.iq.flatMap (fun e => enc s.cfg.tagW e.tag ++ e.payload)
      ∧ withinCap s.cfg.maxRows 3 = false) (sPack 2) := by decide

/-- A state in phase `p` with one tick to come. -/
def at_ (p : Phase) (tk : Tick) : State := { State.reset with phase := p, inputs := [tk] }

/-- From IDLE and from DONE. -/
theorem witness_StartBeginsAPass :
    (∀ p ∈ [Phase.idle, Phase.done],
      ((at_ p { cmd := some (.start .compress Cfg.toy) }).phase = .idle
        ∨ (at_ p { cmd := some (.start .compress Cfg.toy) }).phase = .done)
      ∧ (at_ p { cmd := some (.start .compress Cfg.toy) }).tick.rst = false
      ∧ (at_ p { cmd := some (.start .compress Cfg.toy) }).tick.cmd = some (.start .compress Cfg.toy))
    ∧ cfgValid Cfg.toy = true := by decide

/-- The first row of the table (`N = 0`) and the last (V-CFG-4), each the first that is violated. -/
theorem witness_StartWithBadCfgFaults :
    ∀ c ∈ [{ Cfg.toy with lineW := 0 }, { Cfg.toy with stratEn := 0b110#8 }],
      (at_ .idle { cmd := some (.start .decompress c) }).phase = .idle
      ∧ (at_ .idle { cmd := some (.start .decompress c) }).tick.rst = false
      ∧ (at_ .idle { cmd := some (.start .decompress c) }).tick.cmd = some (.start .decompress c)
      ∧ cfgValid c = false := by decide

/-- Row 13 is the first row of the table that V-CFG-4 violates. -/
theorem test_first_violation :
    ¬ CfgConstraint { Cfg.toy with stratEn := 0b110#8 } 13
    ∧ ∀ j, 1 ≤ j → j < 13 → CfgConstraint { Cfg.toy with stratEn := 0b110#8 } j := by
  refine ⟨fun h => absurd h.1 (by decide), fun j h1 h2 => ?_⟩
  interval_cases j <;> simp only [CfgConstraint] <;> decide

theorem witness_CommandsIgnoredDuringAPass :
    (at_ .load { cmd := some (.start .compress Cfg.toy) }).inputs = { cmd := some (.start .compress Cfg.toy) } :: []
    ∧ running (at_ .load { cmd := some (.start .compress Cfg.toy) }).phase = true := by decide

/-- Each clause of the statement, from its own phase. -/
theorem witness_ClearReinitialises :
    (∀ p ∈ [Phase.done, Phase.fault, Phase.idle],
      (at_ p { cmd := some .clear }).tick.rst = false ∧ (at_ p { cmd := some .clear }).phase = p
      ∧ (at_ p { cmd := some .clear }).tick.cmd = some .clear)
    ∧ (at_ .fault { cmd := some (.start .compress Cfg.toy) }).phase = .fault
    ∧ (at_ .fault { cmd := some (.start .compress Cfg.toy) }).tick.rst = false
    ∧ (at_ .fault { cmd := some (.start .compress Cfg.toy) }).tick.cmd = some (.start .compress Cfg.toy) := by decide

/-- A reset together with a beat. -/
theorem witness_ResetAbandonsThePass :
    (at_ .load { rst := true, inBeat := some ⟨.line, x0001⟩ }).tick.rst = true := by decide

theorem witness_NothingHappensWithoutACommand :
    ∀ p ∈ [Phase.idle, Phase.done, Phase.fault],
      running (at_ p {}).phase = false ∧ (at_ p {}).tick.rst = false ∧ (at_ p {}).tick.cmd = none := by decide

/-- By CLEAR and by reset. -/
theorem witness_FaultIsLeftOnlyByClearOrReset :
    (∃ t, (at_ .fault { cmd := some .clear }).phase = .fault
      ∧ step (at_ .fault { cmd := some .clear }) = .next t ∧ t.phase ≠ .fault)
    ∧ ∃ t, (at_ .fault { rst := true }).phase = .fault ∧ step (at_ .fault { rst := true }) = .next t
      ∧ t.phase ≠ .fault :=
  ⟨⟨_, rfl, rfl, by decide⟩, ⟨_, rfl, rfl, by decide⟩⟩

theorem witness_StepsFollowThePhaseGraph : noReset sBuild ∧ ∃ t, step sBuild = .next t := ⟨rfl, _, rfl⟩

/-- A pass of mode `m` in LOAD with one Line (or row) taken, capacities of `cap`, and the beat `b` offered. -/
def loading (m : Mode) (part : LoadPart) (cap : Nat) (b : Beat) : State :=
  { State.reset with
    cfg := { Cfg.toy with maxLines := some cap, maxRows := some cap, dictCap := cap }
    mode := m, phase := .load, loadPart := part, beatsTaken := 1
    mem := { Memory.empty with lmem := [x0001], rmem := [x0001], dmem := [x0001] }
    inputs := [{ inBeat := some b }] }

/-- Room for one more Line, none, the END beat, and each kind that is not allowed. -/
theorem witness_CompressLoadTakesLines :
    (∀ b ∈ [Beat.mk .line x1111, ⟨.fin, []⟩, ⟨.row, []⟩, ⟨.sep, []⟩, ⟨.dict, []⟩],
      (loading .compress .rows 2 b).phase = .load ∧ (loading .compress .rows 2 b).mode = .compress
      ∧ (loading .compress .rows 2 b).tick.rst = false ∧ (loading .compress .rows 2 b).tick.inBeat = some b)
    ∧ (loading .compress .rows 2 ⟨.line, x1111⟩).cfg.maxLines
        ≠ some (loading .compress .rows 2 ⟨.line, x1111⟩).nLines
    ∧ (loading .compress .rows 1 ⟨.line, x1111⟩).cfg.maxLines
        = some (loading .compress .rows 1 ⟨.line, x1111⟩).nLines := by decide

/-- Every clause: room and no room for a row and for a listing entry, the separator, and the kinds not allowed. -/
theorem witness_DecompressLoadTakesRowsThenListing :
    (∀ part ∈ [LoadPart.rows, .listing], ∀ k ∈ [BeatKind.line, .row, .sep, .dict, .fin],
      (loading .decompress part 2 ⟨k, x1111⟩).phase = .load ∧ (loading .decompress part 2 ⟨k, x1111⟩).mode = .decompress
      ∧ (loading .decompress part 2 ⟨k, x1111⟩).tick.rst = false
      ∧ (loading .decompress part 2 ⟨k, x1111⟩).tick.inBeat = some ⟨k, x1111⟩
      ∧ (loading .decompress part 2 ⟨k, x1111⟩).loadPart = part)
    ∧ (∀ part ∈ [LoadPart.rows, .listing],
      (loading .decompress part 2 ⟨.row, []⟩).cfg.maxRows ≠ some (loading .decompress part 2 ⟨.row, []⟩).nRows
      ∧ (loading .decompress part 1 ⟨.row, []⟩).cfg.maxRows = some (loading .decompress part 1 ⟨.row, []⟩).nRows
      ∧ (loading .decompress part 2 ⟨.dict, []⟩).dictSize ≠ (loading .decompress part 2 ⟨.dict, []⟩).cfg.dictCap
      ∧ (loading .decompress part 1 ⟨.dict, []⟩).dictSize = (loading .decompress part 1 ⟨.dict, []⟩).cfg.dictCap) := by
  decide

/-- A phase that takes no beat, a phase that sends none, EMIT with a host that is not ready, and LOAD without a beat. -/
theorem witness_BeatsMoveOnlyWhenReady :
    (at_ .emit {}).inputs = {} :: [] ∧ (at_ .emit {}).phase ≠ .load ∧ (at_ .load {}).phase ≠ .emit
    ∧ (at_ .emit {}).phase = .emit ∧ ({} : Tick).rst = false ∧ ({} : Tick).outReady = false
    ∧ (at_ .load {}).inputs = {} :: [] ∧ (at_ .load {}).phase = .load ∧ ({} : Tick).inBeat = none := by decide

/-- A DECOMPRESS result of one Line in EMIT, to a host that takes `n` beats. -/
def emitting (m : Mode) (n : Nat) : State :=
  { State.reset with
    cfg := Cfg.toy, mode := m, phase := .emit
    mem := { Memory.empty with rmem := [dg [1,0,0,0]], dmem := [x0001], omem := [x0001] }
    inputs := List.replicate n { outReady := true } }

theorem witness_NothingIsSentOutsideEmit : ∃ t, step (emitting .compress 1) = .next t := ⟨_, rfl⟩

/-- In both modes. -/
theorem witness_EmitSendsTheWholeResult :
    ((emitting .compress 4).phase = .emit ∧ (emitting .compress 4).emitted = 0
      ∧ (artifactBeats Cfg.toy [dg [1,0,0,0]] [x0001]).length = 4 ∧ (emitting .compress 4).mode = .compress
      ∧ (emitting .compress 4).mem.rmem = [dg [1,0,0,0]] ∧ (emitting .compress 4).mem.dmem = [x0001])
    ∧ ((emitting .decompress 2).phase = .emit ∧ (emitting .decompress 2).emitted = 0
      ∧ (lineBeats Cfg.toy [x0001]).length = 2 ∧ (emitting .decompress 2).mode = .decompress
      ∧ (emitting .decompress 2).mem.omem = [x0001]) := by decide

/-- A Line of `TOY` with rows of 5, whose bus is wider than the Line, and the last padding digit. -/
theorem witness_BusCarriesTheElementLeftmost :
    4 ≤ (dg [0,0,0,1,1]).length ∧ x0001.length ≤ max Cfg.toy.lineW 5 ∧ x0001.length ≤ 4
    ∧ 4 < max Cfg.toy.lineW 5 := by decide

/-- EMIT, a phase that takes no beat, and a reset in the middle of a pass. -/
theorem witness_PortLevelsFollowThePhase :
    (at_ .emit {}).phase = .emit ∧ (at_ .build {}).phase ≠ .emit ∧ (at_ .build {}).inputs = {} :: []
    ∧ inReady (at_ .build {}) = false ∧ (at_ .emit { rst := true }).tick.rst = true := by decide

/-- A step that leaves the configuration and one that takes another. -/
theorem witness_OnlyStartChangesTheConfiguration :
    (∃ t, step sBuild = .next t ∧ t.cfg = sBuild.cfg)
    ∧ ∃ t, step (at_ .idle { cmd := some (.start .compress Cfg.toy) }) = .next t ∧ t.cfg = Cfg.toy
      ∧ t.cfg ≠ (at_ .idle {}).cfg :=
  ⟨⟨_, rfl, by decide⟩, ⟨_, rfl, by decide, by decide⟩⟩

theorem witness_EveryStepKeepsTheInvariant : Inv sWalk ∧ Inv sEncode := ⟨sWalk_inv, sEncode_inv⟩

/-- One Line under `TOY`, whose capacities are unbounded. -/
theorem witness_CompressPassCompletes :
    cfgValid Cfg.toy = true ∧ (∀ x ∈ [x0001], x.length = Cfg.toy.lineW) ∧ Cfg.toy.maxLines = none
    ∧ Cfg.toy.maxRows = none := by decide

/-- The COMPRESS pass of one Line is done after eleven steps. -/
theorem witness_DecompressOfCompressIsIdentity :
    cfgValid Cfg.toy = true ∧ (∀ x ∈ [x0001], x.length = Cfg.toy.lineW)
    ∧ ∃ t, Sys2Proof.core.run 11 (hostPass Cfg.toy .compress (lineBeats Cfg.toy [x0001]) 8) = .next t
      ∧ t.phase = .done :=
  ⟨by decide, by decide, _, rfl, by decide⟩

end Sys2Proof.Tests
end

/-! PROOFS. The configuration check (spec/00_scope.md, rules R6 and R8): each row of `cfgRows` says its constraint of the
table of R6, so `cfg_valid` says all thirteen. -/

namespace Sys2Proof.Machine

/-! ### The rows of the configuration check -/

/-- Truncated subtraction does no harm in the rows of R6: both differences become one sum. -/
theorem sub_le_two_pow_sub_one_iff (n m k : Nat) : n - m ≤ 2 ^ k - 1 ↔ n < m + 2 ^ k := by
  have hpos := Nat.two_pow_pos k
  omega

/-- A row that constrains a strategy's widths speaks only where the strategy is enabled. -/
theorem strategyRow_iff (c : Cfg) (st : Strategy) {p q : Prop} [Decidable p] (hpq : p ↔ q) :
    (!uses c st || decide p) = true ↔ (c.enabled (tagOf st) = true → q) := by
  cases h : c.enabled (tagOf st) <;> simp [uses, h, hpq]

/-- `STRAT_EN` has eight bits, so an enabled tag is the tag of a catalogue entry (R104). -/
theorem exists_tagOf_of_enabled {c : Cfg} {t : Nat} (h : c.enabled t = true) : ∃ st, tagOf st = t := by
  have hlt : t < catalogue.length := BitVec.lt_of_getLsbD h
  exact ⟨catalogue[t], (catalogue_inv (List.getElem?_eq_getElem hlt)).symm⟩

theorem mem_catalogue (st : Strategy) : st ∈ catalogue := List.mem_of_getElem? (catalogue_tagOf st)

/-- Row 13: the check runs over the catalogue, the constraint over all tags. -/
theorem stratEnRow_iff (c : Cfg) :
    (uses c .lit && catalogue.all fun st => !uses c st || decide (tagOf st < 2 ^ c.tagW)) = true
      ↔ CfgConstraint c 13 := by
  simp only [Bool.and_eq_true, List.all_eq_true, strategyRow_iff c _ Iff.rfl]
  constructor
  · rintro ⟨hlit, hfit⟩
    refine ⟨hlit, fun t ht => ?_⟩
    obtain ⟨st, rfl⟩ := exists_tagOf_of_enabled ht
    exact hfit st (mem_catalogue st) ht
  · rintro ⟨hlit, hfit⟩
    exact ⟨hlit, fun st _ => hfit (tagOf st)⟩

/-- Entry `k` of the check, counting from 1, is row `k` of the table of R6. -/
theorem cfgRows_getElem?_iff (c : Cfg) {k : Nat} (h1 : 1 ≤ k) (h13 : k ≤ 13) :
    (cfgRows c)[k - 1]? = some true ↔ CfgConstraint c k := by
  interval_cases k <;> refine Option.some_inj.trans ?_
  iterate 5 exact decide_eq_true_iff
  · exact strategyRow_iff c .rle Iff.rfl
  · exact strategyRow_iff c .bmd (sub_le_two_pow_sub_one_iff ..)
  · exact strategyRow_iff c .bmd Iff.rfl
  · exact strategyRow_iff c .fm1 (sub_le_two_pow_sub_one_iff ..)
  · exact strategyRow_iff c .fm2 (and_congr_right' (sub_le_two_pow_sub_one_iff ..))
  · exact strategyRow_iff c .fm4 (and_congr_right' (sub_le_two_pow_sub_one_iff ..))
  · exact strategyRow_iff c .pmm (and_congr_right' (sub_le_two_pow_sub_one_iff ..))
  · exact stratEnRow_iff c

/-- `cfg_valid` holds exactly when no row of the table of R6 is violated (R8). -/
theorem cfgValid_iff_constraints (c : Cfg) :
    cfgValid c = true ↔ ∀ k, 1 ≤ k → k ≤ 13 → CfgConstraint c k := by
  have hlen : (cfgRows c).length = 13 := rfl
  simp only [cfgValid, List.all_eq_true, id]
  constructor
  · intro h k h1 h13
    have hk : k - 1 < (cfgRows c).length := by omega
    rw [← cfgRows_getElem?_iff c h1 h13, List.getElem?_eq_getElem hk, h _ (List.getElem_mem hk)]
  · intro h b hb
    obtain ⟨i, hi, rfl⟩ := List.getElem_of_mem hb
    have hrow := (cfgRows_getElem?_iff c (k := i + 1) (by omega) (by omega)).2 (h _ (by omega) (by omega))
    simpa [hi] using hrow

/-- Settles O34: the thirteen rows, those of `OFF_BM` and `MASK_W` (7 and 8) taken together. -/
theorem cfgValidIsItsConstraints : Obligations.CfgValidIsItsConstraints := by
  intro c
  rw [cfgValid_iff_constraints]
  constructor
  · intro h
    have row (k : Nat) (hk : 1 ≤ k ∧ k ≤ 13) : CfgConstraint c k := h k hk.1 hk.2
    obtain ⟨hW, hWmax⟩ := row 2 (by decide)
    exact ⟨row 1 (by decide), hW, hWmax, row 3 (by decide), row 4 (by decide), row 5 (by decide),
      row 6 (by decide), fun hb => ⟨row 7 (by decide) hb, row 8 (by decide) hb⟩, row 9 (by decide),
      row 10 (by decide), row 11 (by decide), row 12 (by decide), row 13 (by decide)⟩
  · rintro ⟨hN, hW, hWmax, hF, hB, hcap, hrle, hbmd, hfm1, hfm2, hfm4, hpmm, hen⟩ k h1 h13
    interval_cases k
    exacts [hN, ⟨hW, hWmax⟩, hF, hB, hcap, hrle, fun hb => (hbmd hb).1, fun hb => (hbmd hb).2,
      hfm1, hfm2, hfm4, hpmm, hen]

end Sys2Proof.Machine

/-! PROOFS. The dictionary builder's counting scan (spec/40_dictionary_builder.md, rule R131): the entry table describes
the Lines scanned so far, and a scan of the whole input makes it describe the input. -/

namespace Sys2Proof.Machine

/-- One Line of the scan bumps the entry that holds it, or appends an entry when none does. -/
theorem countLine_cases (i : Nat) (x : Bits) (es : List Entry) :
    (∃ l e r, es = l ++ e :: r ∧ e.value = x
      ∧ countLine i x es = l ++ { e with count := e.count + 1 } :: r)
    ∨ ((∀ e ∈ es, e.value ≠ x) ∧ countLine i x es = es ++ [⟨x, i, 1⟩]) := by
  induction es with
  | nil => exact .inr ⟨by simp, rfl⟩
  | cons f fs ih =>
    by_cases hf : f.value = x
    · exact .inl ⟨[], f, fs, rfl, hf, by simp [countLine, hf]⟩
    · rcases ih with ⟨l, e, r, rfl, he, h⟩ | ⟨hne, h⟩
      · exact .inl ⟨f :: l, e, r, rfl, he, by simp [countLine, hf, h]⟩
      · exact .inr ⟨by simpa [hf] using hne, by simp [countLine, hf, h]⟩

/-- The entry `e` gives a Line's count and first index in `lines` (R28). -/
structure Describes (lines : List Bits) (e : Entry) : Prop where
  mem : e.value ∈ lines
  count : e.count = lines.count e.value
  first : e.first = lines.idxOf e.value

/-- `es` is the entry table of `lines` (R28, R131). -/
structure TableOf (lines : List Bits) (es : List Entry) : Prop where
  /-- One entry per distinct Line. -/
  nodup : (es.map Entry.value).Nodup
  describes : ∀ e ∈ es, Describes lines e
  covers : ∀ x ∈ lines, ∃ e ∈ es, e.value = x
  /-- In order of first occurrence. -/
  ordered : (es.map Entry.first).Pairwise (· < ·)
  total : (es.map Entry.count).sum = lines.length

theorem tableOf_nil : TableOf [] [] where
  nodup := .nil
  describes := by simp
  covers := by simp
  ordered := .nil
  total := rfl

/-- A further Line leaves the entry of every other Line as it is. -/
theorem Describes.snoc_of_ne {lines : List Bits} {e : Entry} {x : Bits} (h : Describes lines e)
    (hx : e.value ≠ x) : Describes (lines ++ [x]) e where
  mem := List.mem_append_left _ h.mem
  count := by simp [List.count_append, h.count, hx.symm]
  first := by rw [List.idxOf_append_of_mem h.mem, h.first]

/-- A further occurrence of a Line counts in its entry. -/
theorem Describes.snoc_value {lines : List Bits} {e : Entry} (h : Describes lines e) :
    Describes (lines ++ [e.value]) { e with count := e.count + 1 } where
  mem := List.mem_append_left _ h.mem
  count := by simp [List.count_append, h.count]
  first := by simp [List.idxOf_append_of_mem h.mem, h.first]

/-- A first occurrence has count 1 and stands at the end. -/
theorem describes_snoc_new {lines : List Bits} {x : Bits} (hx : x ∉ lines) :
    Describes (lines ++ [x]) ⟨x, lines.length, 1⟩ where
  mem := by simp
  count := by simp [List.count_append, List.count_eq_zero_of_not_mem hx]
  first := by simp [List.idxOf_append_of_notMem hx]

/-- Scanning a Line that has an entry (R131, the bump). -/
theorem TableOf.bump {lines : List Bits} {l r : List Entry} {e : Entry} (h : TableOf lines (l ++ e :: r)) :
    TableOf (lines ++ [e.value]) (l ++ { e with count := e.count + 1 } :: r) where
  nodup := by simpa using h.nodup
  describes := by
    have hother : ∀ f ∈ l ++ r, f.value ≠ e.value := by
      have hnd := h.nodup
      simp only [List.map_append, List.map_cons, List.nodup_middle, List.nodup_cons] at hnd
      exact fun f hf hv => hnd.1 (hv ▸ by simpa using List.mem_map_of_mem hf)
    intro f hf
    obtain rfl | hlr : f = { e with count := e.count + 1 } ∨ f ∈ l ++ r := by
      simpa [or_left_comm] using hf
    · exact (h.describes e (by simp)).snoc_value
    · exact (h.describes f (by simp at hlr ⊢; tauto)).snoc_of_ne (hother f hlr)
  covers := by
    intro x hx
    obtain ⟨f, hf, rfl⟩ : ∃ f ∈ l ++ e :: r, f.value = x := by
      rcases List.mem_append.1 hx with hx | hx
      · exact h.covers x hx
      · exact ⟨e, by simp, (List.mem_singleton.1 hx).symm⟩
    have hv : f.value ∈ (l ++ e :: r).map Entry.value := List.mem_map_of_mem hf
    exact List.mem_map.1 (by simpa using hv)
  ordered := by simpa using h.ordered
  total := by
    have := h.total
    simp at this ⊢
    omega

/-- Scanning a Line that has no entry yet (R131, the new entry). -/
theorem TableOf.snoc {lines : List Bits} {es : List Entry} {x : Bits} (h : TableOf lines es)
    (hne : ∀ e ∈ es, e.value ≠ x) : TableOf (lines ++ [x]) (es ++ [⟨x, lines.length, 1⟩]) where
  nodup := by simpa [List.nodup_append, h.nodup] using hne
  describes := by
    have hx : x ∉ lines := fun hx => by
      obtain ⟨e, he, hv⟩ := h.covers x hx
      exact hne e he hv
    intro e he
    rcases List.mem_append.1 he with he | he
    · exact (h.describes e he).snoc_of_ne (hne e he)
    · rw [List.mem_singleton.1 he]
      exact describes_snoc_new hx
  covers := by
    intro y hy
    rcases List.mem_append.1 hy with hy | hy
    · obtain ⟨e, he, hv⟩ := h.covers y hy
      exact ⟨e, List.mem_append_left _ he, hv⟩
    · exact ⟨_, List.mem_append_right _ (List.mem_singleton_self _), (List.mem_singleton.1 hy).symm⟩
  ordered := by
    have hlt : ∀ e ∈ es, e.first < lines.length := fun e he => by
      rw [(h.describes e he).first]
      exact List.idxOf_lt_length_of_mem (h.describes e he).mem
    simpa [List.pairwise_append, h.ordered] using hlt
  total := by simp [h.total]

theorem TableOf.scanLine {lines : List Bits} {es : List Entry} (h : TableOf lines es) (x : Bits) :
    TableOf (lines ++ [x]) (countLine lines.length x es) := by
  rcases countLine_cases lines.length x es with ⟨l, e, r, rfl, rfl, heq⟩ | ⟨hne, heq⟩
  · rw [heq]
    exact h.bump
  · rw [heq]
    exact h.snoc hne

theorem TableOf.scan {lines : List Bits} {es : List Entry} (h : TableOf lines es) (xs : List Bits) :
    TableOf (lines ++ xs) (countFrom lines.length xs es) := by
  induction xs generalizing lines es with
  | nil => simpa [countFrom] using h
  | cons x xs ih => simpa [countFrom] using ih (h.scanLine x)

/-- The counting scan makes the entry table of its input (R131). -/
theorem tableOf_countLines (lines : List Bits) : TableOf lines (countLines lines) :=
  tableOf_nil.scan lines

/-- The step of phase BUILD is BUILD (R304). -/
theorem step_of_build {s : State} (hp : s.phase = .build) (hr : noReset s) : step s = .next (build s.popTick) := by
  simp [step_of_noReset hr, phaseStep, hp]

/-- Settles O30: ETAB is the entry table of LMEM. -/
theorem buildCountsEveryLine : Obligations.BuildCountsEveryLine := by
  intro s hp hr
  have htab : TableOf s.mem.lmem (countLines s.mem.lmem) := tableOf_countLines _
  refine ⟨build s.popTick, step_of_build hp hr, rfl, htab.nodup, fun e he => ?_, htab.covers,
    List.pairwise_map.1 htab.ordered, htab.total⟩
  obtain ⟨hmem, hcount, hfirst⟩ := htab.describes e he
  exact ⟨hcount ▸ List.count_pos_iff.2 hmem, hcount, hfirst, hfirst ▸ List.getElem?_idxOf hmem⟩

end Sys2Proof.Machine

/-! PROOFS. What the units write: the selector its own registers (spec/42_encoder_selector.md, R222), DISPATCH the output
Lines (spec/43_decoder_dispatch.md, R241), and no unit the configuration (R20). -/

namespace Sys2Proof.Machine

/-! ### The selector (R161, R221, R222) -/

/-- `t` is `s` but for the RunLength memory and the best-candidate registers. -/
def SameButSelector (s t : State) : Prop :=
  t = { s with
    rleValid := t.rleValid, rleLast := t.rleLast, bestValid := t.bestValid
    bestTag := t.bestTag, bestPayload := t.bestPayload, bestConsumed := t.bestConsumed }

theorem SameButSelector.refl (s : State) : SameButSelector s s := rfl

theorem SameButSelector.trans {s t u : State} (hst : SameButSelector s t) (htu : SameButSelector t u) :
    SameButSelector s u :=
  Eq.trans htu (by rw [hst])

theorem SameButSelector.cfg {s t : State} (h : SameButSelector s t) : t.cfg = s.cfg := by rw [h]
theorem SameButSelector.mem {s t : State} (h : SameButSelector s t) : t.mem = s.mem := by rw [h]
theorem SameButSelector.pos {s t : State} (h : SameButSelector s t) : t.pos = s.pos := by rw [h]

/-- RLE evaluation finds nothing, forgets the run, or remembers the Line at `pos` and counts it (R165). -/
theorem compressRle_cases (s : State) :
    compressRle s = (s, none) ∨ compressRle s = (clearRun s, none)
    ∨ ∃ x n, s.mem.lmem[s.pos]? = some x ∧ n ≤ (s.mem.lmem.drop (s.pos + 1)).length
        ∧ compressRle s = (rememberRun x s, some ⟨enc s.cfg.runW n, n + 1⟩) := by
  unfold compressRle
  split
  · exact .inl rfl
  · rename_i x hx
    split
    · exact .inr (.inl rfl)
    · split
      · exact .inl rfl
      · exact .inr (.inr ⟨x, _, hx, (runCount_cases x _ _).2.1, rfl⟩)

/-- Only RLE's evaluation writes state, and only the RunLength memory (R161). -/
theorem evaluate_state_cases (st : Strategy) (s : State) :
    (evaluate st s).1 = s ∨ (evaluate st s).1 = clearRun s
    ∨ ∃ x, s.mem.lmem[s.pos]? = some x ∧ (evaluate st s).1 = rememberRun x s := by
  cases st
  case rle =>
    rcases compressRle_cases s with h | h | ⟨x, n, hx, -, h⟩
    · exact .inl (congrArg Prod.fst h)
    · exact .inr (.inl (congrArg Prod.fst h))
    · exact .inr (.inr ⟨x, hx, congrArg Prod.fst h⟩)
  all_goals exact .inl rfl

theorem evaluate_sameButSelector (st : Strategy) (s : State) : SameButSelector s (evaluate st s).1 := by
  rcases evaluate_state_cases st s with h | h | ⟨x, -, h⟩ <;> rw [h] <;> rfl

theorem offerBest_sameButSelector (t : Nat) (r : CompressionResult) (s : State) :
    SameButSelector s (offerBest t r s) := by
  rcases offerBest_cases t r s with ⟨-, h⟩ | ⟨-, -, h⟩ <;> rw [h] <;> rfl

/-- One turn of the loop skips a disabled strategy, finds nothing, or offers what the evaluation found (R221, R222). -/
theorem consider_cases (s : State) (st : Strategy) :
    (s.cfg.enabled (tagOf st) = false ∧ consider s st = s)
    ∨ (s.cfg.enabled (tagOf st) = true ∧ (evaluate st s).2 = none ∧ consider s st = (evaluate st s).1)
    ∨ ∃ r, s.cfg.enabled (tagOf st) = true ∧ (evaluate st s).2 = some r
        ∧ consider s st = offerBest (tagOf st) r (evaluate st s).1 := by
  cases hen : s.cfg.enabled (tagOf st) with
  | false => simp [consider, hen]
  | true =>
    rcases hev : evaluate st s with ⟨s1, _ | r⟩
    · simp [consider, hen, hev]
    · simp [consider, hen, hev]

theorem consider_sameButSelector (s : State) (st : Strategy) : SameButSelector s (consider s st) := by
  rcases consider_cases s st with ⟨-, h⟩ | ⟨-, -, h⟩ | ⟨r, -, -, h⟩ <;> rw [h]
  · exact .refl s
  · exact evaluate_sameButSelector st s
  · exact (evaluate_sameButSelector st s).trans (offerBest_sameButSelector _ r _)

/-- Selection writes the selector's registers only (R222). -/
theorem select_sameButSelector (s : State) : SameButSelector s (select s) :=
  List.foldlRecOn (motive := SameButSelector s) catalogue consider (b := clearBest s) rfl
    fun t ht st _ => ht.trans (consider_sameButSelector t st)

@[simp] theorem select_cfg (s : State) : (select s).cfg = s.cfg := (select_sameButSelector s).cfg

@[simp] theorem emitBest_cfg (s : State) : (emitBest s).cfg = s.cfg := by
  unfold emitBest
  split <;> rfl

/-! ### DISPATCH (R240, R241) -/

/-- The kinds a rule of the block raises (R331, R335). -/
def Raisable (k : FaultKind) : Prop := k ≠ .none ∧ k ≠ .nonBinary

/-- `t` is `s` with Lines put at the end of OMEM within its capacity, or a fault taken at the cursor. -/
def OutputOnly (s t : State) : Prop :=
  (∃ ys, t = putOut ys s ∧ ∀ m, s.cfg.maxLines = some m → s.nOut ≤ m → s.nOut + ys.length ≤ m)
  ∨ ∃ k tag aux ys, Raisable k ∧ t = raise k s.cur tag aux (putOut ys s)

theorem outputOnly_raise {k : FaultKind} (hk : Raisable k) (tag aux : Nat) (s : State) :
    OutputOnly s (raise k s.cur tag aux s) :=
  .inr ⟨k, tag, aux, [], hk, by rw [putOut_nil]⟩

theorem append_outputOnly (t : Nat) (y : Bits) (s : State) : OutputOnly s (append t y s) := by
  rcases append_cases t y s with ⟨hroom, h⟩ | ⟨-, h⟩ <;> rw [h]
  · refine .inl ⟨[y], rfl, fun m hm hle => ?_⟩
    exact Nat.lt_of_le_of_ne hle fun heq => hroom (heq ▸ hm)
  · exact outputOnly_raise (by simp [Raisable]) _ _ s

theorem appendCopies_outputOnly (t : Nat) (y : Bits) (k : Nat) (s : State) :
    OutputOnly s (appendCopies t y k s) := by
  rcases appendCopies_cases t y k s with ⟨h, hroom⟩ | ⟨j, -, -, h⟩ <;> rw [h]
  · exact .inl ⟨_, rfl, by simpa using hroom⟩
  · exact .inr ⟨_, _, _, _, by simp [Raisable], rfl⟩

theorem withEntry_outputOnly (t j : Nat) (s : State) (f : Bits → Bits) :
    OutputOnly s (withEntry t j s fun e => append t (f e) s) := by
  rcases withEntry_cases t j s (fun e => append t (f e) s) with ⟨e, -, h⟩ | ⟨-, h⟩ <;> rw [h]
  · exact append_outputOnly t (f e) s
  · exact outputOnly_raise (by simp [Raisable]) _ _ s

theorem execFm_outputOnly (k t offset index : Nat) (s : State) : OutputOnly s (execFm k t offset index s) := by
  unfold execFm
  split
  · exact outputOnly_raise (by simp [Raisable]) _ _ s
  · exact withEntry_outputOnly _ _ s _

/-- Every instruction answers a next state, and writes output Lines only (R241, R242). -/
theorem exec_outputOnly (i : Instr) (s : State) : ∃ t, exec i s = .next t ∧ OutputOnly s t := by
  have hbad : ∀ tag aux, OutputOnly s (raise .badField s.cur tag aux s) := fun tag aux =>
    outputOnly_raise (by simp [Raisable]) tag aux s
  cases i with
  | lit line => exact ⟨_, rfl, append_outputOnly _ _ s⟩
  | rle count =>
    simp only [exec, execRle]
    split
    · exact ⟨_, rfl, outputOnly_raise (by simp [Raisable]) _ _ s⟩
    · exact ⟨_, rfl, appendCopies_outputOnly _ _ _ s⟩
  | dir index => exact ⟨_, rfl, withEntry_outputOnly _ _ s id⟩
  | bmd offset mask index =>
    simp only [exec, execBmd]
    split
    · exact ⟨_, rfl, hbad _ _⟩
    · exact ⟨_, rfl, withEntry_outputOnly _ _ s _⟩
  | fm1 offset index => exact ⟨_, rfl, execFm_outputOnly _ _ _ _ s⟩
  | fm2 offset index => exact ⟨_, rfl, execFm_outputOnly _ _ _ _ s⟩
  | fm4 offset index => exact ⟨_, rfl, execFm_outputOnly _ _ _ _ s⟩
  | pmm pos1 pos2 index =>
    simp only [exec, execPmm]
    split
    · exact ⟨_, rfl, hbad _ _⟩
    · split
      · exact ⟨_, rfl, hbad _ _⟩
      · exact ⟨_, rfl, withEntry_outputOnly _ _ s fun e => flip (flip e pos1) pos2⟩

theorem OutputOnly.cfg {s t : State} (h : OutputOnly s t) : t.cfg = s.cfg := by
  rcases h with ⟨ys, rfl, -⟩ | ⟨k, tag, aux, ys, -, rfl⟩ <;> rfl

@[simp] theorem advanceCur_cfg (len : Nat) (s : State) : (advanceCur len s).cfg = s.cfg := by
  unfold advanceCur
  split <;> rfl

/-- A turn of the walk ends it, takes a fault, or runs the fetched instruction and moves on (R282 to R285). -/
theorem unpackStep_cases (s : State) :
    unpackStep s = .next (endWalk s)
    ∨ (∃ tag rem, unpackStep s = .next (raise .streamCorruption s.cur tag rem s))
    ∨ ∃ i rest t, fetch s = .instr i rest ∧ exec i s = .next t ∧ OutputOnly s t
        ∧ unpackStep s = .next (advanceCur (instrLen s.cfg i) t) := by
  cases hf : fetch s with
  | exhausted => exact .inl (by simp [unpackStep, hf])
  | padding => exact .inl (by simp [unpackStep, hf])
  | unknownTag tag rem => exact .inr (.inl ⟨tag, rem, by simp [unpackStep, hf]⟩)
  | truncated tag rem => exact .inr (.inl ⟨tag, rem, by simp [unpackStep, hf]⟩)
  | instr i rest =>
    obtain ⟨t, he, ht⟩ := exec_outputOnly i s
    exact .inr (.inr ⟨i, rest, t, rfl, he, ht, by simp [unpackStep, hf, he, retire]⟩)

/-! ### The configuration -/

@[simp] theorem countBeat_cfg (s : State) : (countBeat s).cfg = s.cfg := by
  unfold countBeat
  split <;> rfl

@[simp] theorem loadEntry_cfg (x : Bits) (s : State) : (loadEntry x s).cfg = s.cfg := by
  unfold loadEntry
  split <;> rfl

@[simp] theorem loadCompress_cfg (b : Beat) (s : State) : (loadCompress b s).cfg = s.cfg := by
  unfold loadCompress
  split
  · split <;> rfl
  all_goals rfl

@[simp] theorem loadDecompress_cfg (b : Beat) (s : State) : (loadDecompress b s).cfg = s.cfg := by
  unfold loadDecompress
  split
  · split <;> rfl
  · rfl
  · exact loadEntry_cfg _ s
  all_goals rfl

@[simp] theorem loadStep_cfg (ob : Option Beat) (s : State) : (loadStep ob s).cfg = s.cfg := by
  cases ob with
  | none => rfl
  | some b => cases hm : s.mode <;> simp [loadStep, loadBeat, hm]

@[simp] theorem pack_cfg (s : State) : (pack s).cfg = s.cfg := by
  unfold pack
  dsimp only
  split <;> rfl

@[simp] theorem emitStep_cfg (ready : Bool) (s : State) : (emitStep ready s).cfg = s.cfg := by
  unfold emitStep
  split <;> rfl

@[simp] theorem start_cfg (m : Mode) (c : Cfg) (s : State) : (start m c s).cfg = c := by
  unfold start
  dsimp only
  split <;> rfl

/-- A command leaves the configuration, or is a START accepted outside FAULT and brings it (R301). -/
theorem command_cfg (cmd : Option Command) (s : State) :
    (command cmd s).cfg = s.cfg
    ∨ (s.phase ≠ .fault ∧ ∃ m c, cmd = some (.start m c) ∧ (command cmd s).cfg = c) := by
  unfold command
  split
  · exact .inl rfl
  · rename_i m c
    split
    · exact .inl rfl
    · exact .inr ⟨‹_›, m, c, rfl, start_cfg m c s⟩
  · split
    · exact .inl rfl
    · exact .inl rfl

theorem encodeStep_cfg {s t : State} (h : encodeStep s = .next t) : t.cfg = s.cfg := by
  unfold encodeStep at h
  split at h
  · split at h
    · cases h
      simp
    · cases h
  · cases h
    rfl

theorem unpackStep_cfg {s t : State} (h : unpackStep s = .next t) : t.cfg = s.cfg := by
  rcases unpackStep_cases s with h' | ⟨tag, rem, h'⟩ | ⟨i, rest, u, -, -, hu, h'⟩ <;> cases h'.symm.trans h
  · rfl
  · rfl
  · rw [advanceCur_cfg, hu.cfg]

/-- Without a reset only a command of IDLE or DONE brings a configuration. -/
theorem phaseStep_cfg {tk : Tick} {s t : State} (h : phaseStep tk s = .next t) :
    t.cfg = s.cfg
    ∨ ((s.phase = .idle ∨ s.phase = .done) ∧ ∃ m c, tk.cmd = some (.start m c) ∧ t.cfg = c) := by
  cases hp : s.phase <;> simp only [phaseStep, hp, Host.Outcome.next.injEq] at h
  case idle => subst h; exact (command_cfg tk.cmd s).imp_right fun hc => ⟨.inl rfl, hc.2⟩
  case done => subst h; exact (command_cfg tk.cmd s).imp_right fun hc => ⟨.inr rfl, hc.2⟩
  case fault => subst h; exact (command_cfg tk.cmd s).imp_right fun hc => absurd hp hc.1
  case load => subst h; exact .inl (loadStep_cfg _ s)
  case build => subst h; exact .inl rfl
  case encode => exact .inl (encodeStep_cfg h)
  case pack => subst h; exact .inl (pack_cfg s)
  case decode => exact .inl (unpackStep_cfg h)
  case emit => subst h; exact .inl (emitStep_cfg _ s)

/-- Settles O57: reset keeps the configuration, and so does every phase but for a START. -/
theorem onlyStartChangesTheConfiguration : Obligations.OnlyStartChangesTheConfiguration := by
  intro s t h
  by_cases hr : s.tick.rst = true
  · rw [step, if_pos hr] at h
    cases h
    exact .inl rfl
  · rw [step, if_neg hr] at h
    exact (phaseStep_cfg h).imp_right fun ⟨hp, hc⟩ => ⟨hp, by simpa using hr, hc⟩

end Sys2Proof.Machine

/-! PROOFS. The invariant (`Inv`, Sys2Proof/Safety.lean): it holds after reset, and every step from a state that has it is a
next state that has it. Inside the proof it is read phase by phase (`InPhase`); a fault has it whatever came before. -/

namespace Sys2Proof.Machine

/-! ### Capacities -/

theorem withinCap_iff (cap : Option Nat) (n : Nat) : withinCap cap n = true ↔ ∀ m, cap = some m → n ≤ m := by
  cases cap <;> simp [withinCap]

theorem withinCap_zero (cap : Option Nat) : withinCap cap 0 = true := by simp [withinCap_iff]

/-- A count below its capacity has room for one more. -/
theorem withinCap_succ {cap : Option Nat} {n : Nat} (h : withinCap cap n = true) (hne : atCapacity cap n = false) :
    withinCap cap (n + 1) = true := by
  rw [withinCap_iff] at h ⊢
  intro m hm
  have hnm : n ≠ m := fun heq => by simp [atCapacity, hm, heq] at hne
  exact Nat.lt_of_le_of_ne (h m hm) hnm

/-! ### The invariant, phase by phase -/

/-- The clauses of `Inv` that hold alike in every phase but FAULT. -/
structure PassOk (s : State) : Prop where
  memWf : s.mem.wf s.cfg = true
  posLe : s.pos ≤ s.nLines
  curLe : s.cur ≤ s.nBits
  runWf : s.rleValid = true → s.rleLast.length = s.cfg.lineW
  noFault : s.faultCode = .none
  infoZero : s.faultInfo = ⟨0, 0, 0⟩
  linesCap : withinCap s.cfg.maxLines s.nLines = true
  outCap : withinCap s.cfg.maxLines s.nOut = true
  rowsCap : withinCap s.cfg.maxRows s.nRows = true
  queueLe : s.nInstr ≤ s.pos

/-- A pass with a valid configuration that has neither walked its rows nor sent anything (R280, R303, R313). -/
def Unstarted (s : State) : Prop := cfgValid s.cfg = true ∧ s.cur = 0 ∧ s.emitted = 0

/-- The clauses of `Inv` that are particular to phase `p`. -/
def PhaseOk (p : Phase) (s : State) : Prop :=
  match p with
  | .idle => s.mem = Memory.empty ∧ s.pos = 0 ∧ s.cur = 0 ∧ s.rleValid = false ∧ s.bestValid = false
  | .load => Unstarted s
  | .build => Unstarted s ∧ s.mode = .compress
  | .encode => Unstarted s ∧ s.mode = .compress
  | .pack => Unstarted s ∧ s.mode = .compress
  | .decode => cfgValid s.cfg = true ∧ s.emitted = 0 ∧ s.mode = .decompress ∧ s.mem.flat = s.mem.rmem.flatten
  | .emit => cfgValid s.cfg = true ∧ s.emitted < (outputBeats s).length
  | .done => True
  | .fault => False

/-- `s` is in phase `p`, not FAULT, and has the invariant. -/
structure InPhase (p : Phase) (s : State) : Prop where
  phase : s.phase = p
  pass : PassOk s
  ok : PhaseOk p s

theorem InPhase.ne_fault {p : Phase} {s : State} (h : InPhase p s) : s.phase ≠ .fault := by
  rintro hf
  have hp := h.phase
  have hok := h.ok
  rw [← hp, hf] at hok
  exact hok

theorem Inv.inPhase {s : State} (h : Inv s) (hf : s.phase ≠ .fault) : InPhase s.phase s where
  phase := rfl
  pass :=
    { memWf := h.memWf hf, posLe := h.posLe hf, curLe := h.curLe hf, runWf := h.runWf hf
      noFault := by simpa [hf] using h.faultIff
      infoZero := h.infoZero hf, linesCap := (h.capacity hf).1, outCap := (h.capacity hf).2.1
      rowsCap := (h.capacity hf).2.2, queueLe := h.queueLe hf }
  ok := by
    obtain ⟨hcompress, hdecompress⟩ := h.modeOk
    obtain ⟨hleft, hnone⟩ := h.emitOk
    have hcfg := h.cfgOk
    have hcur := h.curZero
    cases hp : s.phase with
    | idle => exact h.idleEmpty hp
    | done => trivial
    | fault => exact hf hp
    | decode => simpa [PhaseOk, hp, running, h.flatRows hp, hdecompress] using And.intro hcfg hnone
    | emit => simpa [PhaseOk, hp, running] using And.intro hcfg hleft
    | load | build | encode | pack => simp_all [PhaseOk, Unstarted, running]

theorem InPhase.inv {p : Phase} {s : State} (h : InPhase p s) : Inv s := by
  have hf := h.ne_fault
  obtain ⟨rfl, hpass, hok⟩ := h
  exact
    { cfgOk := fun hr => by cases hp : s.phase <;> simp_all [PhaseOk, Unstarted, running]
      memWf := fun _ => hpass.memWf
      posLe := fun _ => hpass.posLe
      curLe := fun _ => hpass.curLe
      curZero := fun hr hd he => by cases hp : s.phase <;> simp_all [PhaseOk, Unstarted, running]
      runWf := fun _ => hpass.runWf
      faultIff := by simp [hf, hpass.noFault]
      notNonBinary := by simp [hpass.noFault]
      infoZero := fun _ => hpass.infoZero
      idleEmpty := fun hp => by rw [hp] at hok; exact hok
      capacity := fun _ => ⟨hpass.linesCap, hpass.outCap, hpass.rowsCap⟩
      queueLe := fun _ => hpass.queueLe
      modeOk := by cases hp : s.phase <;> simp_all [PhaseOk]
      flatRows := fun hp => by simp_all [PhaseOk]
      emitOk := by cases hp : s.phase <;> simp_all [PhaseOk, Unstarted, running] }

/-! ### Faults, reset and ticks -/

/-- In FAULT nothing is said of the abandoned pass (R341). -/
theorem inv_raise {k : FaultKind} (hk : Raisable k) (l t a : Nat) (s : State) : Inv (raise k l t a s) := by
  obtain ⟨hnone, hnon⟩ := hk
  constructor <;> simp [hnone, hnon, running]

/-- Empty memories, zero cursors and cleared registers are in order under every configuration (R36, R301). -/
theorem passOk_of_empty {s : State} (hmem : s.mem = Memory.empty) (hpos : s.pos = 0) (hcur : s.cur = 0)
    (hrle : s.rleValid = false) (hcode : s.faultCode = .none) (hinfo : s.faultInfo = ⟨0, 0, 0⟩) : PassOk s where
  memWf := hmem ▸ wf_empty s.cfg
  posLe := hpos ▸ Nat.zero_le _
  curLe := hcur ▸ Nat.zero_le _
  runWf := fun h => absurd h (by simp [hrle])
  noFault := hcode
  infoZero := hinfo
  linesCap := by rw [nLines_eq, hmem]; exact withinCap_zero _
  outCap := by rw [nOut_eq, hmem]; exact withinCap_zero _
  rowsCap := by rw [nRows_eq, hmem]; exact withinCap_zero _
  queueLe := by rw [nInstr_eq, hmem]; exact Nat.zero_le _

theorem inv_initialised (s : State) : Inv (initialised s) :=
  InPhase.inv (p := .idle)
    { phase := rfl
      pass := passOk_of_empty rfl rfl rfl rfl rfl rfl
      ok := ⟨rfl, rfl, rfl, rfl, rfl⟩ }

/-- The ticks to come are not the block's (log 4). -/
theorem inv_popTick {s : State} (h : Inv s) : Inv s.popTick := { h with }

/-! ### Commands (R301, R372) -/

theorem inv_start (m : Mode) (c : Cfg) (s : State) : Inv (start m c s) := by
  unfold start
  dsimp only
  split
  case isFalse => exact inv_raise (by simp [Raisable]) _ _ _ _
  case isTrue hc =>
    exact InPhase.inv (p := .load)
      { phase := rfl, pass := passOk_of_empty rfl rfl rfl rfl rfl rfl, ok := ⟨hc, rfl, rfl⟩ }

theorem inv_command {s : State} (h : Inv s) (cmd : Option Command) : Inv (command cmd s) := by
  unfold command
  split
  · exact h
  · split
    · exact h
    · exact inv_start _ _ s
  · split
    · exact h
    · exact inv_initialised s

/-! ### LOAD (R305, R308) -/

theorem inv_countBeat {s : State} (h : Inv s) : Inv (countBeat s) := by
  unfold countBeat
  split
  · exact h
  · exact { h with }

theorem inv_loadCompress {s : State} (h : InPhase .load s) (hm : s.mode = .compress) (b : Beat) :
    Inv (loadCompress b s) := by
  have hbad : Inv (badFraming b s) := inv_raise (by simp [Raisable]) _ _ _ s
  unfold loadCompress
  split
  · split
    · exact inv_raise (by simp [Raisable]) _ _ _ s
    · rename_i hroom
      have hlines : s.nLines ≤ (s.mem.lmem ++ [busElement s.cfg.lineW b.data]).length := by simp [nLines_eq]
      exact InPhase.inv (p := .load)
        { phase := h.phase
          pass :=
            { h.pass with
              memWf := wf_append_line h.pass.memWf (busElement_length _ _)
              posLe := h.pass.posLe.trans hlines
              linesCap := by simpa [nLines_eq] using withinCap_succ h.pass.linesCap (by simpa using hroom) }
          ok := h.ok }
  · exact InPhase.inv (p := .build) { phase := rfl, pass := { h.pass with }, ok := ⟨h.ok, hm⟩ }
  all_goals exact hbad

theorem inv_loadEntry {s : State} (h : InPhase .load s) {x : Bits} (hx : x.length = s.cfg.lineW) :
    Inv (loadEntry x s) := by
  have hwf := loadEntry_wf h.pass.memWf hx
  unfold loadEntry at hwf ⊢
  split
  · exact inv_raise (by simp [Raisable]) _ _ _ s
  · rename_i hroom
    rw [if_neg hroom] at hwf
    exact InPhase.inv (p := .load) { phase := h.phase, pass := { h.pass with memWf := hwf }, ok := h.ok }

/-- Reassembly begins the walk at cursor 0 (R280, R281). -/
theorem inv_enterDecode {s : State} (h : InPhase .load s) (hm : s.mode = .decompress) : Inv (enterDecode s) := by
  obtain ⟨hcfg, hcur, hemitted⟩ := h.ok
  exact InPhase.inv (p := .decode)
    { phase := rfl
      pass := { h.pass with memWf := enterDecode_wf h.pass.memWf, curLe := hcur.trans_le (Nat.zero_le _) }
      ok := ⟨hcfg, hemitted, hm, rfl⟩ }

theorem inv_loadDecompress {s : State} (h : InPhase .load s) (hm : s.mode = .decompress) (b : Beat) :
    Inv (loadDecompress b s) := by
  have hbad : Inv (badFraming b s) := inv_raise (by simp [Raisable]) _ _ _ s
  unfold loadDecompress
  split
  · split
    · exact inv_raise (by simp [Raisable]) _ _ _ s
    · rename_i hroom
      exact InPhase.inv (p := .load)
        { phase := h.phase
          pass :=
            { h.pass with
              memWf := wf_append_row h.pass.memWf (busElement_length _ _)
              rowsCap := by simpa [nRows_eq] using withinCap_succ h.pass.rowsCap (by simpa using hroom) }
          ok := h.ok }
  · exact InPhase.inv (p := .load) { phase := h.phase, pass := { h.pass with }, ok := h.ok }
  · exact inv_loadEntry h (busElement_length _ _)
  · exact inv_enterDecode h hm
  all_goals exact hbad

theorem inv_loadStep {s : State} (h : InPhase .load s) (ob : Option Beat) : Inv (loadStep ob s) := by
  cases ob with
  | none => exact h.inv
  | some b =>
    cases hm : s.mode with
    | compress => simpa only [loadStep, loadBeat, hm] using inv_countBeat (inv_loadCompress h hm b)
    | decompress => simpa only [loadStep, loadBeat, hm] using inv_countBeat (inv_loadDecompress h hm b)

/-! ### BUILD and PACK (R130, R260) -/

theorem inv_build {s : State} (h : InPhase .build s) : Inv (build s) :=
  InPhase.inv (p := .encode)
    { phase := rfl, pass := { h.pass with memWf := build_wf h.pass.memWf }, ok := h.ok }

theorem outputBeats_ne_nil (s : State) : outputBeats s ≠ [] := by
  unfold outputBeats
  split <;> simp

theorem inv_pack {s : State} (h : InPhase .pack s) : Inv (pack s) := by
  obtain ⟨⟨hcfg, hcur, hemitted⟩, -⟩ := h.ok
  have hwf := pack_wf h.pass.memWf
  unfold pack at hwf ⊢
  dsimp only at hwf ⊢
  split
  · exact inv_raise (by simp [Raisable]) _ _ _ _
  · rename_i hroom
    rw [if_neg hroom] at hwf
    exact InPhase.inv (p := .emit)
      { phase := rfl
        pass :=
          { h.pass with
            memWf := hwf
            curLe := hcur.trans_le (Nat.zero_le _)
            rowsCap := by simpa [nRows_eq, rowsOf, exceeds_eq_not_within] using hroom }
        ok := ⟨hcfg, hemitted.trans_lt (List.length_pos_of_ne_nil (outputBeats_ne_nil _))⟩ }

/-! ### ENCODE: what the compress halves find (R161) -/

/-- A result with the payload length of `st` that stands for Lines that exist (R161). -/
def ResultOk (st : Strategy) (r : CompressionResult) (s : State) : Prop :=
  r.payload.length = payloadLen s.cfg st ∧ 1 ≤ r.consumed ∧ s.pos + r.consumed ≤ s.nLines

theorem pos_lt_of_getElem? {s : State} {x : Bits} (hx : s.mem.lmem[s.pos]? = some x) : s.pos < s.nLines :=
  (List.getElem?_eq_some_iff.1 hx).1

/-- A search that offers one Line's payload for what its scan finds on an entry. -/
theorem searchEntries_map_some {α : Type} {dmem : List Bits} {scan : Bits → Option α} {payload : Nat → α → Bits}
    {r : CompressionResult} (h : searchEntries dmem (fun j e => (scan e).map fun a => ⟨payload j a, 1⟩) = some r) :
    ∃ j e a, scan e = some a ∧ r = ⟨payload j a, 1⟩ := by
  obtain ⟨j, e, -, hr⟩ := searchEntries_some h
  obtain ⟨a, ha, rfl⟩ := Option.map_eq_some_iff.1 hr
  exact ⟨j, e, a, ha, rfl⟩

/-- The mask a BMD scan finds is `MASK_W` digits wide (R171). -/
theorem scanMasks_length {c : Cfg} {x e : Bits} {sm : Nat × Bits} (h : scanMasks c x e = some sm) :
    sm.2.length = c.maskW := by
  obtain ⟨m, -, hm⟩ := List.exists_of_findSome?_eq_some h
  obtain ⟨o, -, ho⟩ := List.exists_of_findSome?_eq_some hm
  split at ho
  · cases ho
    exact enc_length _ _
  · cases ho

theorem compressFm_result {k off : Nat} {s : State} {r : CompressionResult} (h : compressFm k off s = some r) :
    r.payload.length = off + s.cfg.idxW ∧ r.consumed = 1 ∧ s.pos < s.nLines := by
  unfold compressFm at h
  split at h
  · cases h
  · obtain ⟨j, e, o, -, rfl⟩ := searchEntries_map_some h
    exact ⟨by simp, rfl, pos_lt_of_getElem? ‹_›⟩

theorem compressRle_result {s : State} {r : CompressionResult} (h : (compressRle s).2 = some r) :
    ResultOk .rle r s := by
  rcases compressRle_cases s with heq | heq | ⟨x, n, hx, hn, heq⟩ <;> rw [heq] at h
  · cases h
  · cases h
  · cases h
    have hpos := pos_lt_of_getElem? hx
    rw [List.length_drop, ← nLines_eq] at hn
    exact ⟨by simp [payloadLen], Nat.succ_pos n, by dsimp only; omega⟩

/-- Every compress half keeps the contract on its result (R161). -/
theorem evaluate_result {st : Strategy} {s : State} {r : CompressionResult} (hwf : s.mem.wf s.cfg = true)
    (h : (evaluate st s).2 = some r) : ResultOk st r s := by
  cases st with
  | rle => exact compressRle_result h
  | lit =>
    simp only [evaluate, compressLit] at h
    split at h
    · cases h
    · cases h
      exact ⟨((wf_iff _ _).1 hwf).1 _ (List.mem_of_getElem? ‹_›), le_rfl, pos_lt_of_getElem? ‹_›⟩
  | dir =>
    simp only [evaluate, compressDir] at h
    split at h
    · cases h
    · split at h
      · cases h
      · cases h
        exact ⟨enc_length _ _, le_rfl, pos_lt_of_getElem? ‹_›⟩
  | bmd =>
    simp only [evaluate, compressBmd] at h
    split at h
    · cases h
    · obtain ⟨j, e, sm, hsm, rfl⟩ := searchEntries_map_some h
      exact ⟨by simp [payloadLen, scanMasks_length hsm, Nat.add_assoc], le_rfl, pos_lt_of_getElem? ‹_›⟩
  | fm1 | fm2 | fm4 =>
    obtain ⟨hlen, hone, hpos⟩ := compressFm_result h
    exact ⟨hlen, hone.ge, by omega⟩
  | pmm =>
    simp only [evaluate, compressPmm] at h
    split at h
    · cases h
    · obtain ⟨j, e, p, -, rfl⟩ := searchEntries_map_some h
      exact ⟨by simp [payloadLen, Nat.two_mul, Nat.add_assoc], le_rfl, pos_lt_of_getElem? ‹_›⟩

/-! ### ENCODE: what the selector's registers hold (R222) -/

/-- The best-candidate registers hold a legal record for Lines that exist (R29, R223). -/
structure BestOk (s : State) : Prop where
  legal : (legalEntry s.cfg s.bestTag).isSome = true
  payload : s.bestPayload.length = payloadLenAt s.cfg s.bestTag
  consumed : 1 ≤ s.bestConsumed
  within : s.pos + s.bestConsumed ≤ s.nLines

/-- The registers of the selector mean what R30 says whenever their flags are set. -/
structure SelectorOk (s : State) : Prop where
  run : s.rleValid = true → s.rleLast.length = s.cfg.lineW
  best : s.bestValid = true → BestOk s

theorem evaluate_selectorOk {s : State} (hwf : s.mem.wf s.cfg = true) (h : SelectorOk s) (st : Strategy) :
    SelectorOk (evaluate st s).1 := by
  rcases evaluate_state_cases st s with heq | heq | ⟨x, hx, heq⟩ <;> rw [heq]
  · exact h
  · exact { run := nofun, best := fun hb => { h.best hb with } }
  · exact
      { run := fun _ => ((wf_iff _ _).1 hwf).1 x (List.mem_of_getElem? hx)
        best := fun hb => { h.best hb with } }

theorem offerBest_selectorOk {st : Strategy} {r : CompressionResult} {s : State} (h : SelectorOk s)
    (hen : s.cfg.enabled (tagOf st) = true) (hr : ResultOk st r s) : SelectorOk (offerBest (tagOf st) r s) := by
  obtain ⟨hlen, hone, hle⟩ := hr
  rcases offerBest_cases (tagOf st) r s with ⟨-, heq⟩ | ⟨-, -, heq⟩ <;> rw [heq]
  · exact
      { run := h.run
        best := fun _ =>
          { legal := by simp [legalEntry_tagOf hen]
            payload := hlen.trans (payloadLenAt_tagOf _ st).symm
            consumed := hone
            within := hle } }
  · exact h

theorem consider_selectorOk {s : State} (hwf : s.mem.wf s.cfg = true) (h : SelectorOk s) (st : Strategy) :
    SelectorOk (consider s st) := by
  have hev := evaluate_selectorOk hwf h st
  rcases consider_cases s st with ⟨-, heq⟩ | ⟨-, -, heq⟩ | ⟨r, hen, hres, heq⟩ <;> rw [heq]
  · exact h
  · exact hev
  · have hsame := evaluate_sameButSelector st s
    have hr : ResultOk st r (evaluate st s).1 := by
      simpa only [ResultOk, nLines_eq, hsame.cfg, hsame.mem, hsame.pos] using evaluate_result hwf hres
    exact offerBest_selectorOk hev (by rwa [hsame.cfg]) hr

theorem select_selectorOk {s : State} (hwf : s.mem.wf s.cfg = true)
    (hrun : s.rleValid = true → s.rleLast.length = s.cfg.lineW) : SelectorOk (select s) := by
  have hall : SameButSelector s (select s) ∧ SelectorOk (select s) :=
    List.foldlRecOn (motive := fun t => SameButSelector s t ∧ SelectorOk t) catalogue consider (b := clearBest s)
      ⟨rfl, { run := hrun, best := nofun }⟩
      fun t ⟨hsame, hok⟩ st _ =>
        ⟨hsame.trans (consider_sameButSelector t st), consider_selectorOk (by rwa [hsame.mem, hsame.cfg]) hok st⟩
  exact hall.2

/-! ### ENCODE: there is a candidate (R222) -/

theorem evaluate_bestValid (st : Strategy) (s : State) : (evaluate st s).1.bestValid = s.bestValid := by
  rcases evaluate_state_cases st s with h | h | ⟨x, -, h⟩ <;> rw [h] <;> rfl

theorem offerBest_bestValid (t : Nat) (r : CompressionResult) (s : State) : (offerBest t r s).bestValid = true := by
  rcases offerBest_cases t r s with ⟨-, h⟩ | ⟨hv, -, h⟩ <;> rw [h]
  exact hv

theorem consider_bestValid {s : State} (h : s.bestValid = true) (st : Strategy) :
    (consider s st).bestValid = true := by
  rcases consider_cases s st with ⟨-, heq⟩ | ⟨-, -, heq⟩ | ⟨r, -, -, heq⟩ <;> rw [heq]
  · exact h
  · rw [evaluate_bestValid, h]
  · exact offerBest_bestValid _ r _

/-- Where there is a Line, LIT offers it (R163). -/
theorem consider_lit_bestValid {s : State} (hlit : s.cfg.enabled 0 = true) (hpos : s.pos < s.nLines) :
    (consider s .lit).bestValid = true := by
  have hx : s.mem.lmem[s.pos]? = some s.mem.lmem[s.pos] := List.getElem?_eq_getElem hpos
  have hres : (evaluate .lit s).2 = some ⟨s.mem.lmem[s.pos], 1⟩ := by simp [evaluate, compressLit, hx]
  rcases consider_cases s .lit with ⟨hen, -⟩ | ⟨-, hnone, -⟩ | ⟨r, -, -, heq⟩
  · rw [tagOf_lit, hlit] at hen
    cases hen
  · rw [hres] at hnone
    cases hnone
  · rw [heq]
    exact offerBest_bestValid _ r _

/-- After the loop there is a candidate, LIT being first in the catalogue and enabled (R222). -/
theorem select_bestValid {s : State} (hcfg : cfgValid s.cfg = true) (hpos : s.pos < s.nLines) :
    (select s).bestValid = true := by
  have hlit : s.cfg.enabled 0 = true := ((cfgValid_iff_constraints _).1 hcfg 13 (by decide) le_rfl).1
  exact List.foldlRecOn (motive := fun t => t.bestValid = true) catalogue.tail consider
    (b := consider (clearBest s) .lit) (consider_lit_bestValid (s := clearBest s) hlit hpos)
    fun t ht st _ => consider_bestValid ht st

/-- Selection keeps the invariant (R30, R222). -/
theorem inPhase_select {s : State} (h : InPhase .encode s) : InPhase .encode (select s) := by
  have hok := select_selectorOk h.pass.memWf h.pass.runWf
  have hsame := select_sameButSelector s
  generalize select s = t at hok hsame
  have hrun := hok.run
  rw [hsame] at hrun ⊢
  exact { phase := h.phase, pass := { h.pass with runWf := hrun }, ok := h.ok }

/-- Emission queues one record and moves past its Lines (R223, R224, R227). -/
theorem inv_emitBest {s : State} (h : InPhase .encode s) (hb : BestOk s) : Inv (emitBest s) := by
  have hwf := emitBest_wf h.pass.memWf hb.legal hb.payload
  unfold emitBest at hwf ⊢
  split
  · exact inv_raise (by simp [Raisable]) _ _ _ s
  · rename_i hroom
    rw [if_neg hroom] at hwf
    have hqueue := h.pass.queueLe
    have hone := hb.consumed
    exact InPhase.inv (p := .encode)
      { phase := h.phase
        pass :=
          { h.pass with
            memWf := hwf
            posLe := hb.within
            queueLe := by simp [nInstr_eq] at hqueue ⊢; omega }
        ok := h.ok }

theorem encodeStep_inv {s : State} (h : InPhase .encode s) : ∃ t, encodeStep s = .next t ∧ Inv t := by
  unfold encodeStep
  split
  · rename_i hpos
    have hvalid := select_bestValid h.ok.1.1 hpos
    rw [if_pos hvalid]
    exact ⟨_, rfl, inv_emitBest (inPhase_select h) ((select_selectorOk h.pass.memWf h.pass.runWf).best hvalid)⟩
  · exact ⟨_, rfl, InPhase.inv (p := .pack) { phase := rfl, pass := { h.pass with }, ok := h.ok }⟩

/-! ### DECODE (R282 to R285) -/

theorem val_slice_lt {p : Bits} {i k : Nat} (h : i + k ≤ p.length) : val (slice p i k) < 2 ^ k := by
  simpa only [slice_length h] using val_lt (slice p i k)

@[simp] theorem decodeFields_strategy (c : Cfg) (st : Strategy) (p : Bits) : (decodeFields c st p).strategy = st := by
  cases st <;> rfl

/-- Fields cut out of a whole payload fit their widths (R96 to R102). -/
theorem decodeFields_fit {c : Cfg} {st : Strategy} {p : Bits} (hp : p.length = payloadLen c st) :
    fieldsFit c (decodeFields c st p) = true := by
  have hval := val_lt p
  cases st <;> simp only [payloadLen] at hp <;>
    simp only [decodeFields, fieldsFit, Bool.and_eq_true, decide_eq_true_eq, beq_iff_eq]
  case lit => exact hp
  case rle | dir => rwa [hp] at hval
  case bmd => exact ⟨⟨val_slice_lt (by omega), slice_length (by omega)⟩, val_slice_lt (by omega)⟩
  case fm1 | fm2 | fm4 => exact ⟨val_slice_lt (by omega), val_slice_lt (by omega)⟩
  case pmm => exact ⟨⟨val_slice_lt (by omega), val_slice_lt (by omega)⟩, val_slice_lt (by omega)⟩

/-- A decoded instruction has fields that fit and lies within the digits it was read from (R285). -/
theorem decode_instr {c : Cfg} {ds : Bits} {i : Instr} {rest : Bits} (h : decode c ds = .instr i rest) :
    fieldsFit c i = true ∧ instrLen c i ≤ ds.length := by
  unfold decode at h
  split at h
  · cases h
  · dsimp only at h
    split at h
    · cases h
    · rename_i st _
      split at h
      · split at h <;> cases h
      · rename_i hbody
        have hbody' : payloadLen c st ≤ (ds.drop c.tagW).length := Nat.le_of_not_lt hbody
        cases h
        refine ⟨decodeFields_fit (by rw [List.length_take, Nat.min_eq_left hbody']), ?_⟩
        rw [instrLen, decodeFields_strategy]
        rw [List.length_drop] at hbody'
        omega

/-- What DISPATCH leaves keeps the invariant once the cursor is past the instruction (R285). -/
theorem inv_advanceCur {i : Instr} {rest : Bits} {s t : State} (h : InPhase .decode s)
    (hf : fetch s = .instr i rest) (he : exec i s = .next t) (ht : OutputOnly s t) :
    Inv (advanceCur (instrLen s.cfg i) t) := by
  obtain ⟨hfit, hlen⟩ := decode_instr hf
  have hwf := exec_wf h.pass.memWf hfit he
  rcases ht with ⟨ys, rfl, hroom⟩ | ⟨k, tag, aux, ys, hk, rfl⟩
  · have hcur := h.pass.curLe
    rw [List.length_drop, ← nBits_eq] at hlen
    rw [advanceCur_of_running (s := putOut ys s) h.ne_fault]
    have hout : withinCap s.cfg.maxLines (s.nOut + ys.length) = true :=
      (withinCap_iff _ _).2 fun m hm => hroom m hm ((withinCap_iff _ _).1 h.pass.outCap m hm)
    exact InPhase.inv (p := .decode)
      { phase := h.phase
        pass :=
          { h.pass with
            memWf := hwf
            curLe := show s.cur + instrLen s.cfg i ≤ s.nBits by omega
            outCap := by simpa [nOut_eq] using hout }
        ok := h.ok }
  · rw [advanceCur_of_fault rfl]
    exact inv_raise hk _ _ _ _

theorem inv_endWalk {s : State} (h : InPhase .decode s) : Inv (endWalk s) := by
  obtain ⟨hcfg, hemitted, -, -⟩ := h.ok
  exact InPhase.inv (p := .emit)
    { phase := rfl
      pass := { h.pass with }
      ok := ⟨hcfg, hemitted.trans_lt (List.length_pos_of_ne_nil (outputBeats_ne_nil _))⟩ }

theorem unpackStep_inv {s : State} (h : InPhase .decode s) : ∃ t, unpackStep s = .next t ∧ Inv t := by
  rcases unpackStep_cases s with heq | ⟨tag, rem, heq⟩ | ⟨i, rest, t, hf, he, ht, heq⟩
  · exact ⟨_, heq, inv_endWalk h⟩
  · exact ⟨_, heq, inv_raise (by simp [Raisable]) _ _ _ s⟩
  · exact ⟨_, heq, inv_advanceCur h hf he ht⟩

/-! ### EMIT (R313) -/

/-- END is the last beat of a pass (R313). -/
theorem outputBeats_eq (s : State) : ∃ bs, outputBeats s = bs ++ [busBeat s.cfg .fin []] := by
  unfold outputBeats
  split
  · exact ⟨_, rfl⟩
  · exact ⟨_, rfl⟩

/-- A beat other than END has one after it. -/
theorem succ_lt_of_not_fin {s : State} {i : Nat} {b : Beat} (hb : (outputBeats s)[i]? = some b)
    (hk : b.kind ≠ .fin) : i + 1 < (outputBeats s).length := by
  obtain ⟨bs, heq⟩ := outputBeats_eq s
  obtain ⟨hi, hget⟩ := List.getElem?_eq_some_iff.1 hb
  refine Nat.lt_of_le_of_ne hi fun hlast => hk ?_
  have hbs : i = bs.length := by simpa [heq] using hlast
  subst hbs
  rw [← hget]
  simp [heq, busBeat]

theorem inv_emitStep {s : State} (h : InPhase .emit s) (ready : Bool) : Inv (emitStep ready s) := by
  unfold emitStep
  split
  · rename_i b hb
    rw [outBeat, if_pos h.phase] at hb
    by_cases hk : b.kind = .fin
    · exact InPhase.inv (p := .done) { phase := if_pos hk, pass := { h.pass with }, ok := trivial }
    · exact InPhase.inv (p := .emit)
        { phase := if_neg hk, pass := { h.pass with }, ok := ⟨h.ok.1, succ_lt_of_not_fin hb hk⟩ }
  · exact h.inv

/-! ### The step -/

theorem phaseStep_inv {s : State} (h : Inv s) (tk : Tick) : ∃ t, phaseStep tk s = .next t ∧ Inv t := by
  have hin (p : Phase) (hp : s.phase = p) (hf : p ≠ .fault) : InPhase p s := hp ▸ h.inPhase (hp ▸ hf)
  cases hp : s.phase <;> simp only [phaseStep, hp]
  case idle | done | fault => exact ⟨_, rfl, inv_command h tk.cmd⟩
  case load => exact ⟨_, rfl, inv_loadStep (hin _ hp (by decide)) tk.inBeat⟩
  case build => exact ⟨_, rfl, inv_build (hin _ hp (by decide))⟩
  case encode => exact encodeStep_inv (hin _ hp (by decide))
  case pack => exact ⟨_, rfl, inv_pack (hin _ hp (by decide))⟩
  case decode => exact unpackStep_inv (hin _ hp (by decide))
  case emit => exact ⟨_, rfl, inv_emitStep (hin _ hp (by decide)) tk.outReady⟩

/-- Settles O52: a reset leads to an initialised state, and each phase keeps the invariant. -/
theorem everyStepKeepsTheInvariant : Obligations.EveryStepKeepsTheInvariant := by
  intro s h
  unfold step
  split
  · exact ⟨_, rfl, inv_initialised _⟩
  · exact phaseStep_inv (inv_popTick h) s.tick

/-- Settles O51: reset initialises a state that has the configuration and the host of reset already. -/
theorem resetHasTheInvariant : Obligations.ResetHasTheInvariant :=
  inv_initialised State.reset

/-- Settles O40: every element the table of R36 gives a value has it. -/
theorem resetValues : Obligations.ResetValues := by
  unfold Obligations.ResetValues
  decide

end Sys2Proof.Machine

/-! PROOFS. What a turn of DECODE leaves (spec/45_bitstream_unpacker.md, R282 to R285): DISPATCH writes no memory but OMEM
(`exec_outputOnly`), and unless it faults it puts at least one Line there. -/

namespace Sys2Proof.Machine

/-! ### How many Lines an instruction appends (R164, R167, R170, R173 to R182) -/

/-- The Lines an instruction stands for: `count + 1` for RLE, one for every other. -/
def linesOf : Instr → Nat
  | .rle count => count + 1
  | _ => 1

theorem linesOf_pos (i : Instr) : 0 < linesOf i := by
  cases i <;> exact Nat.succ_pos _

/-- Between `s` and `t` exactly `n` Lines were appended, unless `t` is in FAULT, of which nothing is said (R341). -/
def AddsLines (n : Nat) (s t : State) : Prop := t.phase ≠ .fault → t.nOut = s.nOut + n

theorem addsLines_raise {n : Nat} {k : FaultKind} {loc tag aux : Nat} {s u : State} :
    AddsLines n s (raise k loc tag aux u) :=
  fun hne => absurd rfl hne

theorem addsLines_putOut (ys : List Bits) (s : State) : AddsLines ys.length s (putOut ys s) :=
  fun _ => putOut_nOut ys s

theorem append_addsLines (t : Nat) (y : Bits) (s : State) : AddsLines 1 s (append t y s) := by
  rcases append_cases t y s with ⟨-, h⟩ | ⟨-, h⟩ <;> rw [h]
  · exact addsLines_putOut [y] s
  · exact addsLines_raise

theorem appendCopies_addsLines (t : Nat) (y : Bits) (k : Nat) (s : State) :
    AddsLines k s (appendCopies t y k s) := by
  rcases appendCopies_cases t y k s with ⟨h, -⟩ | ⟨j, -, -, h⟩ <;> rw [h]
  · simpa using addsLines_putOut (List.replicate k y) s
  · exact addsLines_raise

theorem withEntry_addsLines (t j : Nat) (s : State) (f : Bits → Bits) :
    AddsLines 1 s (withEntry t j s fun e => append t (f e) s) := by
  rcases withEntry_cases t j s (fun e => append t (f e) s) with ⟨e, -, h⟩ | ⟨-, h⟩ <;> rw [h]
  · exact append_addsLines t (f e) s
  · exact addsLines_raise

theorem execFm_addsLines (k t offset index : Nat) (s : State) : AddsLines 1 s (execFm k t offset index s) := by
  unfold execFm
  split
  · exact addsLines_raise
  · exact withEntry_addsLines _ _ s _

/-- DISPATCH appends exactly the Lines of its instruction, or faults (R241, R242). -/
theorem exec_addsLines {i : Instr} {s t : State} (he : exec i s = .next t) : AddsLines (linesOf i) s t := by
  cases i with
  | lit line => cases he; exact append_addsLines _ _ s
  | rle count =>
    simp only [exec, execRle] at he
    split at he <;> cases he
    · exact addsLines_raise
    · exact appendCopies_addsLines _ _ _ s
  | dir index => cases he; exact withEntry_addsLines _ _ s id
  | bmd offset mask index =>
    simp only [exec, execBmd] at he
    split at he <;> cases he
    · exact addsLines_raise
    · exact withEntry_addsLines _ _ s _
  | fm1 offset index => cases he; exact execFm_addsLines _ _ _ _ s
  | fm2 offset index => cases he; exact execFm_addsLines _ _ _ _ s
  | fm4 offset index => cases he; exact execFm_addsLines _ _ _ _ s
  | pmm pos1 pos2 index =>
    simp only [exec, execPmm] at he
    split at he
    · cases he; exact addsLines_raise
    · split at he <;> cases he
      · exact addsLines_raise
      · exact withEntry_addsLines _ _ s fun e => flip (flip e pos1) pos2

/-- DISPATCH that does not fault puts the Lines of its instruction at the end of OMEM and does nothing else (R241). -/
theorem exec_eq_putOut {i : Instr} {s t : State} (he : exec i s = .next t) (hne : t.phase ≠ .fault) :
    ∃ ys, ys.length = linesOf i ∧ t = putOut ys s := by
  have hadds := exec_addsLines he hne
  obtain ⟨u, he', hu⟩ := exec_outputOnly i s
  cases he'.symm.trans he
  rcases hu with ⟨ys, rfl, -⟩ | ⟨k, tag, aux, ys, -, rfl⟩
  · exact ⟨ys, by simpa using hadds, rfl⟩
  · exact absurd rfl hne

/-! ### A turn of the walk -/

/-- The step of phase DECODE is one turn of the walk (R288). -/
theorem step_of_decode {s : State} (hp : s.phase = .decode) (hr : noReset s) : step s = unpackStep s.popTick := by
  simp [step_of_noReset hr, phaseStep, hp]

/-- A turn that does not fault ends the walk, or appends the Lines of the fetched instruction and moves the cursor past
it (R282, R284, R285). -/
theorem unpackStep_of_not_fault {s t : State} (h : unpackStep s = .next t) (hne : t.phase ≠ .fault) :
    t = endWalk s
    ∨ ∃ i rest ys, fetch s = .instr i rest ∧ ys.length = linesOf i
        ∧ t = { putOut ys s with cur := s.cur + instrLen s.cfg i } := by
  rcases unpackStep_cases s with h' | ⟨tag, rem, h'⟩ | ⟨i, rest, u, hf, he, -, h'⟩ <;> cases h'.symm.trans h
  · exact .inl rfl
  · exact absurd rfl hne
  · have hu : u.phase ≠ .fault := fun hfault => hne (by rw [advanceCur_of_fault hfault, hfault])
    obtain ⟨ys, hlen, rfl⟩ := exec_eq_putOut he hu
    exact .inr ⟨i, rest, ys, hf, hlen, advanceCur_of_running hu⟩

/-- Settles O11: a turn either ends the walk, which leaves every memory and the cursor, or appends the Lines of an
instruction, at least one, and moves past its tag and payload. -/
theorem decodeKeepsTheProgram : Obligations.DecodeKeepsTheProgram := by
  intro s t hp hr h hne
  rw [step_of_decode hp hr] at h
  obtain rfl | ⟨i, rest, ys, -, hlen, rfl⟩ := unpackStep_of_not_fault h hne
  · exact ⟨rfl, rfl, rfl, rfl, rfl, rfl, ⟨[], List.append_nil _⟩, rfl, Nat.le_refl _, nofun⟩
  · have htag : s.cfg.tagW ≤ instrLen s.cfg i := Nat.le_add_right _ _
    have hys : ys ≠ [] := List.ne_nil_of_length_pos (hlen ▸ linesOf_pos i)
    exact ⟨rfl, rfl, rfl, rfl, rfl, rfl, ⟨ys, rfl⟩, rfl, Nat.le_add_right _ _,
      fun _ => ⟨Nat.add_le_add_left htag _, by simpa using hys⟩⟩

end Sys2Proof.Machine

/-! PROOFS. The wire format (spec/30_encoding.md, rules R90 to R102): cutting a payload into fields and writing fields as a
payload undo each other, and what the decoder reads is a tag of `F` digits and the whole payload of its entry. -/

namespace Sys2Proof

/-! ### Slices of a payload, put together and written again -/

theorem slice_append_first {a b d : Bits} {k : Nat} (h : a.length = k) : slice (a ++ b ++ d) 0 k = a := by
  rw [List.append_assoc, slice_append_left h]

/-- The first field and the one after it make one longer slice. -/
theorem slice_append_slice (p : Bits) (j k : Nat) : slice p 0 j ++ slice p j k = slice p 0 (j + k) :=
  List.take_add.symm

theorem slice_zero_of_length {p : Bits} {k : Nat} (h : p.length = k) : slice p 0 k = p :=
  List.take_of_length_le h.le

/-- A numeric field read and written again gives its digits (R10, R102). -/
theorem enc_val_slice {p : Bits} {i k : Nat} (h : i + k ≤ p.length) : enc k (val (slice p i k)) = slice p i k :=
  enc_val_of_length (slice_length h)

/-! ### Payloads and their fields (R96 to R102) -/

theorem wellFormed_iff (c : Cfg) (i : Instr) :
    wellFormed c i = true
      ↔ c.enabled (tagOf i.strategy) = true ∧ tagOf i.strategy < 2 ^ c.tagW ∧ fieldsFit c i = true := by
  simp [wellFormed, and_assoc]

/-- An instruction has the length its tag announces (R90, R91). -/
theorem encode_length {c : Cfg} {i : Instr} (h : wellFormed c i = true) : (encode c i).length = instrLen c i := by
  cases i with
  | lit line => exact Laws.EncodeLength.lit line c h
  | rle count => exact Laws.EncodeLength.rle count c h
  | dir index => exact Laws.EncodeLength.dir index c h
  | bmd offset mask index => exact Laws.EncodeLength.bmd offset mask index c h
  | fm1 offset index => exact Laws.EncodeLength.fm1 offset index c h
  | fm2 offset index => exact Laws.EncodeLength.fm2 offset index c h
  | fm4 offset index => exact Laws.EncodeLength.fm4 offset index c h
  | pmm pos1 pos2 index => exact Laws.EncodeLength.pmm pos1 pos2 index c h

theorem encodePayload_length {c : Cfg} {i : Instr} (h : wellFormed c i = true) :
    (encodePayload c i).length = payloadLen c i.strategy := by
  simpa [encode, instrLen] using encode_length h

/-- The formats of FM1, FM2 and FM4 (R100): the two fields of an offset and an index are found again. -/
theorem val_slices_of_two {j k x y : Nat} (hx : x < 2 ^ j) (hy : y < 2 ^ k) :
    val (slice (enc j x ++ enc k y) 0 j) = x ∧ val (slice (enc j x ++ enc k y) j k) = y := by
  rw [slice_append_left (enc_length j x), slice_append_right (enc_length j x) (enc_length k y)]
  exact ⟨val_enc j x hx, val_enc k y hy⟩

/-- Fields that fit are read back from the payload they are written in. -/
theorem decodeFields_encodePayload {c : Cfg} {i : Instr} (h : fieldsFit c i = true) :
    decodeFields c i.strategy (encodePayload c i) = i := by
  cases i <;> simp only [fieldsFit, Bool.and_eq_true, decide_eq_true_eq, beq_iff_eq] at h <;>
    simp only [Instr.strategy, decodeFields, encodePayload]
  case rle | dir => rw [val_enc _ _ h]
  case bmd offset mask index =>
    obtain ⟨⟨hoff, hmask⟩, hidx⟩ := h
    have hpre : (enc c.offBm offset ++ mask).length = c.offBm + c.maskW := by simp [hmask]
    rw [slice_append_first (enc_length ..), slice_append_mid (enc_length ..) hmask,
      slice_append_right hpre (enc_length ..), val_enc _ _ hoff, val_enc _ _ hidx]
  case fm1 | fm2 | fm4 =>
    obtain ⟨hoff, hidx⟩ := val_slices_of_two h.1 h.2
    rw [hoff, hidx]
  case pmm pos1 pos2 index =>
    obtain ⟨⟨hp1, hp2⟩, hidx⟩ := h
    have hpre : (enc c.posW pos1 ++ enc c.posW pos2).length = 2 * c.posW := by simp [two_mul]
    rw [slice_append_first (enc_length ..), slice_append_mid (enc_length ..) (enc_length ..),
      slice_append_right hpre (enc_length ..), val_enc _ _ hp1, val_enc _ _ hp2, val_enc _ _ hidx]

/-- A whole payload is written again from the fields cut out of it: no digit is dropped. -/
theorem encodePayload_decodeFields {c : Cfg} {st : Strategy} {p : Bits} (hp : p.length = payloadLen c st) :
    encodePayload c (decodeFields c st p) = p := by
  cases st <;> simp only [payloadLen] at hp <;> simp only [decodeFields, encodePayload]
  case rle | dir => exact enc_val_of_length hp
  case bmd | fm1 | fm2 | fm4 =>
    rw [enc_val_slice (by omega), enc_val_slice (by omega)]
    simp only [slice_append_slice, slice_zero_of_length hp]
  case pmm =>
    rw [enc_val_slice (by omega), enc_val_slice (by omega), enc_val_slice (by omega), slice_append_slice,
      ← two_mul, slice_append_slice, slice_zero_of_length hp]

/-! ### The decoder's reading of an instruction (R285) -/

/-- A legal tag and a whole payload are read as the instruction of their fields. -/
theorem decode_append {c : Cfg} {tag p : Bits} {st : Strategy} (htag : tag.length = c.tagW)
    (hst : legalEntry c (val tag) = some st) (hp : p.length = payloadLen c st) (rest : Bits) :
    decode c (tag ++ (p ++ rest)) = .instr (decodeFields c st p) rest := by
  simp [decode, ← htag, ← hp, hst]

/-- Only a legal tag and a whole payload are read as an instruction. -/
theorem append_of_decode {c : Cfg} {ds rest : Bits} {i : Instr} (h : decode c ds = .instr i rest) :
    ∃ tag p st, ds = tag ++ (p ++ rest) ∧ tag.length = c.tagW ∧ legalEntry c (val tag) = some st
      ∧ p.length = payloadLen c st ∧ i = decodeFields c st p := by
  unfold decode at h
  split at h
  · cases h
  · rename_i htag
    dsimp only at h
    split at h
    · cases h
    · rename_i st hst
      split at h
      · split at h <;> cases h
      · rename_i hbody
        cases h
        exact ⟨ds.take c.tagW, (ds.drop c.tagW).take (payloadLen c st), st,
          by simp only [List.take_append_drop], List.length_take_of_le (Nat.le_of_not_lt htag), hst,
          List.length_take_of_le (Nat.le_of_not_lt hbody), rfl⟩

/-! ### The statements -/

/-- Settles O1: the tag names the instruction's entry, and its payload gives the fields back. -/
theorem decodeOfEncode : Obligations.DecodeOfEncode := by
  intro c i rest h
  obtain ⟨hen, htag, hfit⟩ := (wellFormed_iff c i).1 h
  have hst : legalEntry c (val (enc c.tagW (tagOf i.strategy))) = some i.strategy := by
    rw [val_enc _ _ htag, legalEntry_tagOf hen]
  have hread := decode_append (enc_length ..) hst (encodePayload_length h) rest
  rwa [decodeFields_encodePayload hfit, ← List.append_assoc] at hread

/-- Settles O2: the tag and the payload that were read are the ones the instruction is written with. -/
theorem decodedInstrIsEncoded : Obligations.DecodedInstrIsEncoded := by
  intro c ds i rest h
  obtain ⟨tag, p, st, rfl, htag, hst, hp, rfl⟩ := append_of_decode h
  obtain ⟨hval, hen⟩ := legalEntry_some hst
  have hlt : val tag < 2 ^ c.tagW := htag ▸ val_lt tag
  constructor
  · rw [wellFormed_iff, Machine.decodeFields_strategy, ← hval]
    exact ⟨hen, hlt, Machine.decodeFields_fit hp⟩
  · rw [encode, Machine.decodeFields_strategy, ← hval, enc_val_of_length htag, encodePayload_decodeFields hp,
      List.append_assoc]

/-- Settles O3: each tag is its entry's position in the catalogue, each length a row of `payloadLen`. -/
theorem tagMapAndPayloadLengths : Obligations.TagMapAndPayloadLengths := fun _ =>
  ⟨rfl, ⟨tagOf_lit, rfl⟩, ⟨tagOf_rle, rfl⟩, ⟨tagOf_dir, rfl⟩, ⟨tagOf_bmd, rfl⟩, ⟨tagOf_fm1, rfl⟩,
    ⟨tagOf_fm2, rfl⟩, ⟨tagOf_fm4, rfl⟩, ⟨tagOf_pmm, rfl⟩⟩

/-- An encoding is its entry's tag, then the payload (R90). -/
theorem encode_eq_of_tagOf {c : Cfg} {i : Instr} {t : Nat} (h : tagOf i.strategy = t) :
    encode c i = enc c.tagW t ++ encodePayload c i := by
  rw [encode, h]

/-- Settles O4: each instruction has its entry's tag, and its payload is its format's fields in order. -/
theorem formatsOfTheEightInstructions : Obligations.FormatsOfTheEightInstructions := fun _ _ _ _ _ _ _ _ =>
  ⟨encode_eq_of_tagOf tagOf_lit, encode_eq_of_tagOf tagOf_rle, encode_eq_of_tagOf tagOf_dir,
    encode_eq_of_tagOf tagOf_bmd, encode_eq_of_tagOf tagOf_fm1, encode_eq_of_tagOf tagOf_fm2,
    encode_eq_of_tagOf tagOf_fm4, encode_eq_of_tagOf tagOf_pmm⟩

end Sys2Proof

/-! PROOFS. The dictionary BUILD cuts from the ranked entry table (spec/40_dictionary_builder.md, R132 and R133), and the
lookup `indexOf` in it (R137). -/

namespace Sys2Proof.Machine

/-! ### The order of R132 -/

theorem ranksBefore_iff (a b : Entry) :
    ranksBefore a b = true ↔ b.count < a.count ∨ (a.count = b.count ∧ a.first < b.first) := by
  simp [ranksBefore]

theorem ranksBefore_trans {a b c : Entry} (hab : ranksBefore a b = true) (hbc : ranksBefore b c = true) :
    ranksBefore a c = true := by
  rw [ranksBefore_iff] at *
  omega

/-- Entries with different first indices are ordered one way or the other. -/
theorem ranksBefore_of_not {a b : Entry} (hne : a.first ≠ b.first) (h : ¬ ranksBefore a b = true) :
    ranksBefore b a = true := by
  rw [ranksBefore_iff] at *
  omega

/-- Between entries that describe the input, the order of R132 is the one counted in the input. -/
theorem moreCommon_of_ranksBefore {lines : List Bits} {a b : Entry} (ha : Describes lines a) (hb : Describes lines b)
    (h : ranksBefore a b = true) : MoreCommon lines a.value b.value := by
  rwa [ranksBefore_iff, ha.count, hb.count, ha.first, hb.first] at h

/-! ### RANK (R132) -/

theorem insertRanked_perm (e : Entry) (es : List Entry) : (insertRanked e es).Perm (e :: es) := by
  induction es with
  | nil => exact .refl _
  | cons f fs ih =>
    rw [insertRanked]
    split
    · exact .refl _
    · exact (ih.cons f).trans (.swap e f fs)

theorem rank_perm (es : List Entry) : (rank es).Perm es := by
  induction es with
  | nil => exact .refl _
  | cons e es ih => exact (insertRanked_perm e (rank es)).trans (ih.cons e)

/-- Insertion keeps a ranked list ranked: what follows the place found comes after the entry there, so after `e` too. -/
theorem insertRanked_pairwise {e : Entry} {es : List Entry} (hne : ∀ f ∈ es, e.first ≠ f.first)
    (h : es.Pairwise (ranksBefore · ·)) : (insertRanked e es).Pairwise (ranksBefore · ·) := by
  induction es with
  | nil => exact List.pairwise_singleton ..
  | cons f fs ih =>
    obtain ⟨hf, hfs⟩ := List.pairwise_cons.1 h
    obtain ⟨hef, hefs⟩ := List.forall_mem_cons.1 hne
    rw [insertRanked]
    split
    next hlt => exact .cons (List.forall_mem_cons.2 ⟨hlt, fun g hg => ranksBefore_trans hlt (hf g hg)⟩) h
    next hge =>
      refine .cons (fun g hg => ?_) (ih hefs hfs)
      obtain rfl | hg := mem_insertRanked.1 hg
      · exact ranksBefore_of_not hef hge
      · exact hf g hg

/-- Ranking a table in order of first occurrence sorts it by R132. -/
theorem rank_pairwise {es : List Entry} (h : (es.map Entry.first).Pairwise (· < ·)) :
    (rank es).Pairwise (ranksBefore · ·) := by
  induction es with
  | nil => exact .nil
  | cons e es ih =>
    obtain ⟨he, hes⟩ := List.pairwise_cons.1 h
    exact insertRanked_pairwise (fun f hf => (he _ (List.mem_map_of_mem (mem_rank.1 hf))).ne) (ih hes)

/-! ### The ranked values of an entry table, and their cut (R133) -/

/-- All values of an entry table in ranked order, before the cut. -/
def rankedValues (es : List Entry) : List Bits := (rank es).map Entry.value

theorem topValues_eq_take (cap : Nat) (es : List Entry) : topValues cap es = (rankedValues es).take cap :=
  List.map_take

theorem rankedValues_perm (es : List Entry) : (rankedValues es).Perm (es.map Entry.value) :=
  (rank_perm es).map _

theorem TableOf.rankedValues_nodup {lines : List Bits} {es : List Entry} (h : TableOf lines es) :
    (rankedValues es).Nodup :=
  (rankedValues_perm es).nodup_iff.2 h.nodup

/-- The ranked values are the Lines of the input. -/
theorem TableOf.mem_rankedValues {lines : List Bits} {es : List Entry} (h : TableOf lines es) {x : Bits} :
    x ∈ rankedValues es ↔ x ∈ lines := by
  rw [(rankedValues_perm es).mem_iff, List.mem_map]
  constructor
  · rintro ⟨e, he, rfl⟩
    exact (h.describes e he).mem
  · exact h.covers x

theorem TableOf.rankedValues_pairwise {lines : List Bits} {es : List Entry} (h : TableOf lines es) :
    (rankedValues es).Pairwise (MoreCommon lines) :=
  List.pairwise_map.2 <| (rank_pairwise h.ordered).imp_of_mem fun ha hb =>
    moreCommon_of_ranksBefore (h.describes _ (mem_rank.1 ha)) (h.describes _ (mem_rank.1 hb))

theorem topValues_length (cap : Nat) (es : List Entry) : (topValues cap es).length = min cap es.length := by
  rw [topValues, List.length_map, List.length_take, (rank_perm es).length_eq]

/-- What the cut leaves out comes after all it keeps. -/
theorem TableOf.moreCommon_of_cut {lines : List Bits} {es : List Entry} (h : TableOf lines es) {cap : Nat} {x y : Bits}
    (hx : x ∈ lines) (hcut : x ∉ topValues cap es) (hy : y ∈ topValues cap es) : MoreCommon lines y x := by
  rw [topValues_eq_take] at hcut hy
  have hsplit := (rankedValues es).take_append_drop cap
  have hdrop : x ∈ (rankedValues es).drop cap := by
    have hmem : x ∈ rankedValues es := h.mem_rankedValues.2 hx
    rw [← hsplit] at hmem
    exact (List.mem_append.1 hmem).resolve_left hcut
  have hpair := h.rankedValues_pairwise
  rw [← hsplit] at hpair
  obtain ⟨-, -, hcross⟩ := List.pairwise_append.1 hpair
  exact hcross y hy x hdrop

/-- Settles O31: DMEM is cut from the ranked values of LMEM's entry table. -/
theorem buildKeepsTheMostCommonLines : Obligations.BuildKeepsTheMostCommonLines := by
  intro s hp hr
  have htab : TableOf s.mem.lmem (countLines s.mem.lmem) := tableOf_countLines _
  have hdmem : (build s.popTick).mem.dmem = (rankedValues (countLines s.mem.lmem)).take s.cfg.dictCap :=
    topValues_eq_take _ _
  refine ⟨build s.popTick, step_of_build hp hr, topValues_length _ _, ?_, ?_, ?_, fun x hx hcut y hy =>
    htab.moreCommon_of_cut hx hcut hy⟩
  · rw [hdmem]
    exact htab.rankedValues_nodup.take
  · intro y hy
    exact htab.mem_rankedValues.1 (List.mem_of_mem_take (hdmem ▸ hy))
  · rw [hdmem]
    exact htab.rankedValues_pairwise.take

/-! ### The lookup (R137) -/

/-- The lookup is the library's, which scans for the first equal entry. -/
theorem indexOf_eq_idxOf? (dmem : List Bits) (x : Bits) : indexOf dmem x = dmem.idxOf? x := by
  cases h : dmem.idxOf? x with
  | none => simp [indexOf, List.idxOf?_eq_none_iff.1 h]
  | some j =>
    have hx : x ∈ dmem := List.isSome_idxOf?.1 (by simp [h])
    simp [indexOf, hx, List.idxOf_eq_getD_idxOf?, h]

theorem indexOf_eq_none_iff {dmem : List Bits} {x : Bits} : indexOf dmem x = none ↔ x ∉ dmem := by
  rw [indexOf_eq_idxOf?, List.idxOf?_eq_none_iff]

/-- The index found holds the Line, and no index below it does. -/
theorem indexOf_eq_some_iff {dmem : List Bits} {x : Bits} {j : Nat} :
    indexOf dmem x = some j ↔ dmem[j]? = some x ∧ ∀ i, i < j → dmem[i]? ≠ some x := by
  rw [indexOf_eq_idxOf?, List.idxOf?_eq_some_iff]
  constructor
  · rintro ⟨hj, rfl, hmin⟩
    refine ⟨List.getElem?_eq_getElem hj, fun i hi heq => ?_⟩
    obtain ⟨_, hx⟩ := List.getElem?_eq_some_iff.1 heq
    exact hmin i hi hx
  · rintro ⟨hx, hmin⟩
    obtain ⟨hj, hx⟩ := List.getElem?_eq_some_iff.1 hx
    exact ⟨hj, hx, fun i hi heq => hmin i hi (heq ▸ List.getElem?_eq_getElem _)⟩

/-- Settles O32: the two answers of the lookup. -/
theorem indexOfFindsTheLowestIndex : Obligations.IndexOfFindsTheLowestIndex := fun _ _ =>
  ⟨fun _ => indexOf_eq_some_iff, indexOf_eq_none_iff⟩

end Sys2Proof.Machine

/-! PROOFS. What each instruction appends or raises (spec/41_catalog_strategies.md, decompress halves: R162, R164, R167,
R170, R173 to R182). -/

namespace Sys2Proof.Machine

/-! ### Faults, `append` and `get` as the claims speak of them (R138, R162, R340) -/

/-- Fault entry is a fault taken, whatever was put out before it: nothing is said of OMEM in FAULT (R341). -/
theorem raises_raise (k : FaultKind) (loc tag aux : Nat) {s u : State} (hcfg : u.cfg = s.cfg) (hsent : u.sent = s.sent) :
    Raises (.next (raise k loc tag aux u)) k ⟨loc, tag, aux⟩ s :=
  ⟨_, rfl, rfl, rfl, rfl, hcfg, hsent⟩

theorem append_appendsOrOverflows (t : Nat) (y : Bits) (s : State) :
    AppendsOrOverflows (.next (append t y s)) t y s := by
  rcases append_cases t y s with ⟨hroom, h⟩ | ⟨hfull, h⟩ <;> rw [h]
  · exact ⟨fun _ => rfl, fun hfull => absurd hfull hroom⟩
  · exact ⟨fun hroom => absurd hfull hroom, fun _ => raises_raise _ _ _ _ rfl rfl⟩

theorem withEntry_appendsOrOverflows {t j : Nat} {s : State} {e : Bits} (h : s.mem.dmem[j]? = some e)
    (f : Bits → Bits) : AppendsOrOverflows (.next (withEntry t j s fun e => append t (f e) s)) t (f e) s := by
  rw [withEntry_of_some h]
  exact append_appendsOrOverflows t (f e) s

theorem withEntry_raises {t j : Nat} {s : State} (h : s.dictSize ≤ j) (use : Bits → State) :
    Raises (.next (withEntry t j s use)) .outOfRange ⟨s.cur, t, j⟩ s := by
  rw [withEntry_of_missing h]
  exact raises_raise _ _ _ _ rfl rfl

/-! ### LIT and DIR (R164, R170) -/

/-- Settles O14: LIT is `append`. -/
theorem litAppendsItsLine : Obligations.LitAppendsItsLine := fun line s =>
  append_appendsOrOverflows (tagOf .lit) line s

/-- Settles O16: DIR is `get`, then `append`. -/
theorem dirAppendsTheEntry : Obligations.DirAppendsTheEntry := fun _ _ =>
  ⟨fun hmissing => withEntry_raises (t := tagOf .dir) hmissing _,
    fun _ he => withEntry_appendsOrOverflows (t := tagOf .dir) he id⟩

/-! ### RLE (R167) -/

/-- RLE over a decoded Line makes `count + 1` appends of the last one. -/
theorem exec_rle_of_getLast {count : Nat} {s : State} {y : Bits} (h : s.mem.omem.getLast? = some y) :
    exec (.rle count) s = .next (appendCopies (tagOf .rle) y (count + 1) s) := by
  simp [exec, execRle, h]

theorem exec_rle_of_empty {count : Nat} {s : State} (h : s.mem.omem = []) :
    exec (.rle count) s = .next (raise .noPriorLine s.cur (tagOf .rle) count s) := by
  simp [exec, execRle, h]

/-- Settles O15: the appends either all fit, or stop at the one copy that finds OMEM full. -/
theorem rleRepeatsTheLastLine : Obligations.RleRepeatsTheLastLine := by
  intro count s
  refine ⟨fun hempty => ?_, fun y hy => ⟨fun hroom => ?_, fun i hi hfull => ?_⟩⟩
  · rw [exec_rle_of_empty hempty]
    exact raises_raise _ _ _ _ rfl rfl
  · rw [exec_rle_of_getLast hy]
    rcases appendCopies_cases (tagOf .rle) y (count + 1) s with ⟨h, -⟩ | ⟨j, hj, hfull, -⟩
    · rw [h]
      rfl
    · exact absurd hfull (hroom j (Nat.le_of_lt_succ hj))
  · rw [exec_rle_of_getLast hy]
    rcases appendCopies_cases (tagOf .rle) y (count + 1) s with ⟨-, hroom⟩ | ⟨j, -, hfull', h⟩
    · have hle := hroom _ hfull (Nat.le_add_right _ _)
      omega
    · have hij : s.nOut + j = s.nOut + i := Option.some.inj (hfull'.symm.trans hfull)
      rw [h, hij]
      exact raises_raise _ _ _ _ rfl rfl

/-! ### BMD (R173) -/

theorem exec_bmd_of_past {offset index : Nat} {mask : Bits} {s : State} (h : s.cfg.lineW < offset + s.cfg.maskW) :
    exec (.bmd offset mask index) s = .next (raise .badField s.cur (tagOf .bmd) offset s) :=
  if_pos h

/-- A BMD whose mask fits is `get`, then `append` of the entry under the mask. -/
theorem exec_bmd_of_fits {offset index : Nat} {mask : Bits} {s : State} (h : offset + s.cfg.maskW ≤ s.cfg.lineW) :
    exec (.bmd offset mask index) s = .next (withEntry (tagOf .bmd) index s fun e =>
      append (tagOf .bmd) (xorBits e (place s.cfg.lineW offset mask)) s) :=
  if_neg (Nat.not_lt.2 h)

/-- Settles O17: field range, lookup, append; the placed mask inverts the digits under its 1s. -/
theorem bmdAppendsTheMaskedEntry : Obligations.BmdAppendsTheMaskedEntry := by
  intro offset index mask s hmask
  refine ⟨fun hpast => ?_, fun hfits hmissing => ?_, fun e hfits he hlen => ?_⟩
  · rw [exec_bmd_of_past hpast]
    exact raises_raise _ _ _ _ rfl rfl
  · rw [exec_bmd_of_fits hfits]
    exact withEntry_raises hmissing _
  · rw [exec_bmd_of_fits hfits, ← hlen]
    exact ⟨_, xor_place_flippedAt (by omega),
      withEntry_appendsOrOverflows he fun e' => xorBits e' (place e.length offset mask)⟩

/-! ### FM1, FM2 and FM4 (R174, R176, R178, R180) -/

theorem execFm_of_past {k t offset index : Nat} {s : State} (h : s.cfg.lineW < offset + k) :
    execFm k t offset index s = raise .badField s.cur t offset s :=
  if_pos h

/-- A FixedMismatch whose digits fit is `get`, then `append` of the entry with them inverted. -/
theorem execFm_of_fits {k t offset index : Nat} {s : State} (h : offset + k ≤ s.cfg.lineW) :
    execFm k t offset index s
      = withEntry t index s fun e => append t (xorBits e (place s.cfg.lineW offset (ones k))) s :=
  if_neg (Nat.not_lt.2 h)

/-- `fm_decompress` (R174) for every `k`: field range, lookup, append. `p` is the set of the `k` digits from `offset` on,
in whatever words. -/
theorem execFm_appendsOrRaises {k offset : Nat} {p : Nat → Bool} (hp : ∀ i, decide (offset ≤ i ∧ i < offset + k) = p i)
    (t index : Nat) (s : State) :
    (s.cfg.lineW < offset + k → Raises (.next (execFm k t offset index s)) .badField ⟨s.cur, t, offset⟩ s)
    ∧ (offset + k ≤ s.cfg.lineW → s.dictSize ≤ index →
      Raises (.next (execFm k t offset index s)) .outOfRange ⟨s.cur, t, index⟩ s)
    ∧ ∀ e, offset + k ≤ s.cfg.lineW → s.mem.dmem[index]? = some e → e.length = s.cfg.lineW →
      ∃ y, FlippedAt p e y ∧ AppendsOrOverflows (.next (execFm k t offset index s)) t y s := by
  refine ⟨fun hpast => ?_, fun hfits hmissing => ?_, fun e hfits he hlen => ?_⟩
  · rw [execFm_of_past hpast]
    exact raises_raise _ _ _ _ rfl rfl
  · rw [execFm_of_fits hfits]
    exact withEntry_raises hmissing _
  · rw [execFm_of_fits hfits, ← hlen, ← funext hp]
    exact ⟨_, xor_ones_flippedAt (by omega),
      withEntry_appendsOrOverflows he fun e' => xorBits e' (place e.length offset (ones k))⟩

/-- Settles O18: the three instructions are `fm_decompress` for k = 1, 2 and 4. -/
theorem fixedMismatchAppendsTheFlippedEntry : Obligations.FixedMismatchAppendsTheFlippedEntry := by
  intro offset index s
  have hone (i : Nat) : decide (offset ≤ i ∧ i < offset + 1) = decide (i = offset) :=
    decide_eq_decide.2 (by omega)
  have htwo (i : Nat) : decide (offset ≤ i ∧ i < offset + 2) = decide (i = offset ∨ i = offset + 1) :=
    decide_eq_decide.2 (by omega)
  have hfour (i : Nat) : decide (offset ≤ i ∧ i < offset + 4) = decide (offset ≤ i ∧ i ≤ offset + 3) :=
    decide_eq_decide.2 (by omega)
  exact ⟨execFm_appendsOrRaises hone (tagOf .fm1) index s, execFm_appendsOrRaises htwo (tagOf .fm2) index s,
    execFm_appendsOrRaises hfour (tagOf .fm4) index s⟩

/-! ### PMM (R182) -/

/-- Two inversions, one after the other: an index met twice keeps its digit. -/
theorem flip_flip_flippedAt (e : Bits) (i j : Nat) :
    FlippedAt (fun l => decide (l = i) ^^ decide (l = j)) e (flip (flip e i) j) :=
  FlippedAt_comp (flip_flippedAt e i) (flip_flippedAt (flip e i) j)

theorem flip_comm (e : Bits) (i j : Nat) : flip (flip e i) j = flip (flip e j) i :=
  FlippedAt_unique (flip_flip_flippedAt e i j) (flip_flip_flippedAt e j i) fun _ _ => Bool.xor_comm _ _

theorem flippedAt_refl (e : Bits) : FlippedAt (fun _ => false) e e := fun i => by simp

theorem flip_flip_self (e : Bits) (i : Nat) : flip (flip e i) i = e :=
  FlippedAt_unique (flip_flip_flippedAt e i i) (flippedAt_refl e) fun _ _ => Bool.xor_self _

theorem exec_pmm_of_past_first {pos1 pos2 index : Nat} {s : State} (h : s.cfg.lineW ≤ pos1) :
    exec (.pmm pos1 pos2 index) s = .next (raise .badField s.cur (tagOf .pmm) pos1 s) :=
  if_pos h

theorem exec_pmm_of_past_second {pos1 pos2 index : Nat} {s : State} (h1 : pos1 < s.cfg.lineW)
    (h2 : s.cfg.lineW ≤ pos2) :
    exec (.pmm pos1 pos2 index) s = .next (raise .badField s.cur (tagOf .pmm) pos2 s) :=
  (if_neg (Nat.not_le.2 h1)).trans (if_pos h2)

/-- A PMM with both positions on the Line is `get`, then `append` of the entry with both inverted. -/
theorem exec_pmm_of_fits {pos1 pos2 index : Nat} {s : State} (h1 : pos1 < s.cfg.lineW) (h2 : pos2 < s.cfg.lineW) :
    exec (.pmm pos1 pos2 index) s
      = .next (withEntry (tagOf .pmm) index s fun e => append (tagOf .pmm) (flip (flip e pos1) pos2) s) :=
  (if_neg (Nat.not_le.2 h1)).trans (if_neg (Nat.not_le.2 h2))

/-- Settles O19: both positions, lookup, append; inversions commute, and cancel at equal positions. -/
theorem pmmAppendsTheDoublyFlippedEntry : Obligations.PmmAppendsTheDoublyFlippedEntry := by
  intro pos1 pos2 index s
  refine ⟨fun h1 => ?_, fun h1 h2 => ?_, fun h1 h2 hmissing => ?_, fun e h1 h2 he _ => ?_⟩
  · rw [exec_pmm_of_past_first h1]
    exact raises_raise _ _ _ _ rfl rfl
  · rw [exec_pmm_of_past_second h1 h2]
    exact raises_raise _ _ _ _ rfl rfl
  · rw [exec_pmm_of_fits h1 h2]
    exact withEntry_raises hmissing _
  · refine ⟨flip (flip e pos1) pos2, flip_flip_flippedAt e pos1 pos2, ?_, ?_, ?_⟩
    · rintro rfl
      exact flip_flip_self e pos1
    · rw [exec_pmm_of_fits h1 h2]
      exact withEntry_appendsOrOverflows he fun e' => flip (flip e' pos1) pos2
    · simp only [exec_pmm_of_fits h1 h2, exec_pmm_of_fits h2 h1, flip_comm _ pos2 pos1]

end Sys2Proof.Machine

/-! PROOFS. The compress halves (spec/41_catalog_strategies.md): the search order the dictionary strategies share (R168),
LIT, DIR and RLE (R163, R165, R169), and the contract that all eight keep (R161). -/

namespace Sys2Proof.Machine

/-! ### The search order (R168) -/

/-- A first-match scan gives what the lowest index that matches gives. -/
theorem findSome?_eq_some_iff_lowest {α β : Type} {f : α → Option β} {l : List α} {r : β} :
    l.findSome? f = some r
      ↔ ∃ (j : Nat) (a : α), l[j]? = some a ∧ f a = some r ∧ ∀ i b, i < j → l[i]? = some b → f b = none := by
  rw [List.findSome?_eq_some_iff]
  constructor
  · rintro ⟨l₁, a, l₂, rfl, ha, hbefore⟩
    refine ⟨l₁.length, a, by simp, ha, fun i b hi hb => hbefore b ?_⟩
    rw [List.getElem?_append_left hi] at hb
    exact List.mem_of_getElem? hb
  · rintro ⟨j, a, hj, ha, hbefore⟩
    obtain ⟨hlt, rfl⟩ := List.getElem?_eq_some_iff.1 hj
    refine ⟨l.take j, l[j], l.drop (j + 1), by simp, ha, fun b hb => ?_⟩
    obtain ⟨i, hi, rfl⟩ := List.mem_take_iff_getElem.1 hb
    exact hbefore i _ (by omega) (List.getElem?_eq_getElem _)

/-- The search of R168 looks at entry `j` under index `j`. -/
theorem zipIdx_getElem?_iff {dmem : List Bits} {j : Nat} {ej : Bits × Nat} :
    dmem.zipIdx[j]? = some ej ↔ dmem[j]? = some ej.1 ∧ ej.2 = j := by
  obtain ⟨e, i⟩ := ej
  simp [List.getElem?_zipIdx, eq_comm]

/-- Settles O58: the search scans the entries in index order. -/
theorem searchTakesTheLowestMatch : Obligations.SearchTakesTheLowestMatch := by
  intro dmem f
  refine ⟨fun r => ?_, ?_⟩
  · simp only [searchEntries, findSome?_eq_some_iff_lowest, zipIdx_getElem?_iff]
    constructor
    · rintro ⟨j, ⟨e, i⟩, ⟨he, rfl⟩, hr, hbefore⟩
      exact ⟨_, e, he, hr, fun i e' hi he' => hbefore i (e', i) hi ⟨he', rfl⟩⟩
    · rintro ⟨j, e, he, hr, hbefore⟩
      refine ⟨j, (e, j), ⟨he, rfl⟩, hr, ?_⟩
      rintro i ⟨e', i'⟩ hi ⟨he', rfl⟩
      exact hbefore _ e' hi he'
  · simp only [searchEntries, List.findSome?_eq_none_iff, List.mem_zipIdx_iff_getElem?, Prod.forall]
    exact forall_comm

/-! ### LIT and DIR (R163, R169) -/

theorem compressLit_of_line {s : State} {x : Bits} (hx : s.mem.lmem[s.pos]? = some x) :
    compressLit s = some ⟨x, 1⟩ := by
  simp [compressLit, hx]

/-- DIR's result is the lookup of R137, written as a payload. -/
theorem compressDir_of_line {s : State} {x : Bits} (hx : s.mem.lmem[s.pos]? = some x) :
    compressDir s = (indexOf s.mem.dmem x).map fun j => ⟨enc s.cfg.idxW j, 1⟩ := by
  cases h : indexOf s.mem.dmem x <;> simp [compressDir, hx, h]

/-- Settles O21: DIR finds what the lookup `indexOf` finds. -/
theorem litAndDirCompress : Obligations.LitAndDirCompress := by
  intro s x hx
  rw [compressDir_of_line hx]
  refine ⟨compressLit_of_line hx, fun hmissing => ?_, fun j hj hlowest => ?_⟩
  · rw [indexOf_eq_none_iff.2 hmissing, Option.map_none]
  · rw [indexOf_eq_some_iff.2 ⟨hj, hlowest⟩, Option.map_some]

/-! ### RLE (R165) -/

theorem runRemembered_iff {x : Bits} {s : State} :
    runRemembered x s = true ↔ s.rleValid = true ∧ s.rleLast = x := by
  simp [runRemembered]

section
variable {s : State} {x : Bits} (hx : s.mem.lmem[s.pos]? = some x)
include hx

theorem compressRle_of_failed (hback : s.pos = 0 ∨ s.mem.lmem[s.pos - 1]? ≠ some x) :
    compressRle s = (clearRun s, none) := by
  simp only [compressRle, hx, if_pos hback]

theorem compressRle_of_refused (hback : ¬(s.pos = 0 ∨ s.mem.lmem[s.pos - 1]? ≠ some x))
    (hrun : runRemembered x s = true) : compressRle s = (s, none) := by
  simp only [compressRle, hx, if_neg hback, if_pos hrun]

theorem compressRle_of_run (hback : ¬(s.pos = 0 ∨ s.mem.lmem[s.pos - 1]? ≠ some x))
    (hrun : ¬ runRemembered x s = true) :
    compressRle s = (rememberRun x s,
      some ⟨enc s.cfg.runW (runCount x (2 ^ s.cfg.runW - 1) (s.mem.lmem.drop (s.pos + 1))),
        runCount x (2 ^ s.cfg.runW - 1) (s.mem.lmem.drop (s.pos + 1)) + 1⟩) := by
  simp only [compressRle, hx, if_neg hback, if_neg hrun]

end

/-- Settles O22: the three ways of RLE, and what its look-ahead counts. -/
theorem rleCompressCountsTheRun : Obligations.RleCompressCountsTheRun := by
  intro s x hx
  refine ⟨compressRle_of_failed hx, fun hpos hback hvalid hlast => ?_, fun hpos hback hfresh => ?_⟩
  · exact compressRle_of_refused hx (by simp [hpos.ne', hback]) (runRemembered_iff.2 ⟨hvalid, hlast⟩)
  · obtain ⟨hcap, -, hrun, hend⟩ := runCount_cases x (2 ^ s.cfg.runW - 1) (s.mem.lmem.drop (s.pos + 1))
    simp only [List.getElem?_drop] at hrun hend
    exact ⟨_, compressRle_of_run hx (by simp [hpos.ne', hback]) (runRemembered_iff.not.2 hfresh), hcap, hrun, hend⟩

/-! ### The contract (R161) -/

/-- The RunLength memory is all that an evaluation writes. -/
theorem evaluate_writes_run (st : Strategy) (s : State) :
    ∃ v x, (evaluate st s).1 = { s with rleValid := v, rleLast := x } := by
  rcases evaluate_state_cases st s with h | h | ⟨x, -, h⟩ <;> exact ⟨_, _, h⟩

/-- Only RLE's evaluation writes state. -/
theorem evaluate_state_of_ne_rle {st : Strategy} (hst : st ≠ .rle) (s : State) : (evaluate st s).1 = s := by
  cases st with
  | rle => exact absurd rfl hst
  | _ => rfl

/-- `u` has in common with `s` what the compress half of `st` may read. -/
structure SameReads (st : Strategy) (s u : State) : Prop where
  cfg : u.cfg = s.cfg
  lmem : u.mem.lmem = s.mem.lmem
  dmem : u.mem.dmem = s.mem.dmem
  pos : u.pos = s.pos
  run : st = .rle → u.rleValid = s.rleValid ∧ u.rleLast = s.rleLast

theorem compressRle_result_eq {s u : State} (h : SameReads .rle s u) : (compressRle u).2 = (compressRle s).2 := by
  obtain ⟨hvalid, hlast⟩ := h.run rfl
  simp only [compressRle, runRemembered, h.cfg, h.lmem, h.pos, hvalid, hlast]
  cases s.mem.lmem[s.pos]? with
  | none => rfl
  | some x => simp [apply_ite Prod.snd]

/-- The result of an evaluation depends on nothing else. -/
theorem evaluate_result_eq {st : Strategy} {s u : State} (h : SameReads st s u) :
    (evaluate st u).2 = (evaluate st s).2 := by
  cases st with
  | rle => exact compressRle_result_eq h
  | lit | dir => simp only [evaluate, compressLit, compressDir, h.cfg, h.lmem, h.dmem, h.pos]
  | bmd | pmm => simp only [evaluate, compressBmd, compressPmm, h.cfg, h.lmem, h.dmem, h.pos]
  | fm1 | fm2 | fm4 =>
    simp only [evaluate, compressFm1, compressFm2, compressFm4, compressFm, h.cfg, h.lmem, h.dmem, h.pos]

/-- Settles O26: the parts of the contract. -/
theorem compressContractHolds : Obligations.CompressContractHolds := fun st s _ _ hwf _ =>
  ⟨evaluate_writes_run st s, fun hst => evaluate_state_of_ne_rle hst s, fun _ hr => evaluate_result hwf hr,
    fun _ hcfg hlmem hdmem hpos hrun => evaluate_result_eq ⟨hcfg, hlmem, hdmem, hpos, hrun⟩⟩

end Sys2Proof.Machine

/-! PROOFS. The searches of BMD, FM1, FM2, FM4 and PMM as closed forms over the digits in which an entry differs from the
Line (spec/41_catalog_strategies.md, R171 to R181). -/

namespace Sys2Proof.Machine

/-! ### The 1s of a digit string -/

/-- The indices of the 1s of a digit string. -/
def onesOf (d : Bits) : Finset Nat := (Finset.range d.length).filter fun i => d[i]? = some true

theorem mem_onesOf {d : Bits} {i : Nat} : i ∈ onesOf d ↔ d[i]? = some true := by
  simp only [onesOf, Finset.mem_filter, Finset.mem_range, and_iff_right_iff_imp]
  exact fun h => (List.getElem?_eq_some_iff.1 h).1

theorem lt_length_of_mem_onesOf {d : Bits} {i : Nat} (h : i ∈ onesOf d) : i < d.length :=
  (List.getElem?_eq_some_iff.1 (mem_onesOf.1 h)).1

theorem onesOf_nonempty_iff {d : Bits} : (onesOf d).Nonempty ↔ true ∈ d := by
  simp only [Finset.Nonempty, mem_onesOf, List.mem_iff_getElem?]

theorem card_onesOf (d : Bits) : (onesOf d).card = d.count true := by
  rw [onesOf, Finset.card_filter]
  induction d with
  | nil => rfl
  | cons b d ih =>
    rw [List.length_cons, Finset.sum_range_succ', List.count_cons, ← ih]
    simp

theorem isLeast_idxOf {d : Bits} (h : (onesOf d).Nonempty) : IsLeast (onesOf d : Set Nat) (d.idxOf true) := by
  refine ⟨mem_onesOf.2 (List.getElem?_idxOf (onesOf_nonempty_iff.1 h)), fun i hi => ?_⟩
  obtain ⟨hlt, htrue⟩ := List.getElem?_eq_some_iff.1 (mem_onesOf.1 hi)
  by_contra hbefore
  have hfalse := List.not_of_lt_findIdx (Nat.lt_of_not_le hbefore)
  simp [htrue] at hfalse

/-- The 1s read from the right. -/
theorem mem_onesOf_reverse {d : Bits} {i : Nat} (hi : i < d.length) :
    i ∈ onesOf d.reverse ↔ d.length - 1 - i ∈ onesOf d := by
  rw [mem_onesOf, mem_onesOf, List.getElem?_reverse hi]

theorem isGreatest_lastOne {d : Bits} (h : (onesOf d).Nonempty) : IsGreatest (onesOf d : Set Nat) (lastOne d) := by
  have hne : (onesOf d.reverse).Nonempty := by simpa [onesOf_nonempty_iff] using h
  obtain ⟨hmem, hmin⟩ := isLeast_idxOf hne
  have hlt : d.reverse.idxOf true < d.length := by simpa using lt_length_of_mem_onesOf hmem
  refine ⟨(mem_onesOf_reverse hlt).1 hmem, fun i hi => ?_⟩
  have hil : i < d.length := lt_length_of_mem_onesOf hi
  have hle : d.reverse.idxOf true ≤ d.length - 1 - i := by
    refine hmin ((mem_onesOf_reverse (by omega)).2 ?_)
    rwa [show d.length - 1 - (d.length - 1 - i) = i by omega]
  rw [lastOne]
  omega

/-! ### The difference of an entry and a Line (R11) -/

theorem xorBits_xorBits {e m : Bits} (h : m.length = e.length) : xorBits e (xorBits e m) = m :=
  List.ext_getElem (by simp [h]) fun i _ _ => by simp [xorBits]

/-- What must be laid over the entry to give the Line is their difference. -/
theorem xorBits_eq_iff {e m x : Bits} (hm : m.length = e.length) (hx : x.length = e.length) :
    xorBits e m = x ↔ m = xorBits e x := by
  constructor
  · rintro rfl
    exact (xorBits_xorBits hm).symm
  · rintro rfl
    exact xorBits_xorBits hx

/-- The Line is the entry with the digits of their difference inverted. -/
theorem xorBits_flippedAt {e x : Bits} (hx : x.length = e.length) :
    FlippedAt (fun i => decide (i ∈ onesOf (xorBits e x))) e x := by
  intro i
  by_cases hi : i < e.length
  · cases he : e[i] <;> simp [mem_onesOf, xorBits, hi, hx, he]
  · simp [hi, hx]

theorem FlippedAt.mem_onesOf_iff {p : Nat → Bool} {e y : Bits} (h : FlippedAt p e y) {i : Nat} (hi : i < e.length) :
    i ∈ onesOf (xorBits e y) ↔ p i = true := by
  cases he : e[i] <;> simp [mem_onesOf, xorBits, List.getElem?_zipWith, h i, hi, he]

/-- Inverting the digits of `p` gives the Line exactly when these are the digits that differ. -/
theorem FlippedAt.eq_iff {p : Nat → Bool} {e y x : Bits} (h : FlippedAt p e y) (hx : x.length = e.length) :
    y = x ↔ ∀ i < e.length, (i ∈ onesOf (xorBits e x) ↔ p i = true) := by
  constructor
  · rintro rfl i hi
    exact h.mem_onesOf_iff hi
  · intro hp
    exact FlippedAt_unique h (xorBits_flippedAt hx) fun i hi => Bool.eq_iff_iff.2 (by simp [hp i hi])

/-! ### First matches -/

/-- In a scan the first match decides: nothing that comes before it in the order of the scan may match. -/
theorem findSome?_eq_some_of_first {α β : Type} {R : α → α → Prop} {l : List α} (hl : l.Pairwise R) {a : α}
    (ha : a ∈ l) {f : α → Option β} {r : β} (hr : f a = some r) (hbefore : ∀ b ∈ l, R b a → f b = none) :
    l.findSome? f = some r := by
  obtain ⟨l₁, l₂, rfl⟩ := List.append_of_mem ha
  refine List.findSome?_eq_some_iff.2 ⟨l₁, a, l₂, rfl, hr, fun b hb => ?_⟩
  obtain ⟨-, -, hcross⟩ := List.pairwise_append.1 hl
  exact hbefore b (List.mem_append_left _ hb) (hcross b hb a List.mem_cons_self)

/-- An upward scan. -/
theorem findSome?_range_eq_some {β : Type} {n j : Nat} {f : Nat → Option β} {r : β} (hj : j < n)
    (hr : f j = some r) (hbefore : ∀ i, i < j → f i = none) : (List.range n).findSome? f = some r :=
  findSome?_eq_some_of_first List.pairwise_lt_range (List.mem_range.2 hj) hr fun i _ => hbefore i

theorem findSome?_range_eq_none_iff {β : Type} {n : Nat} {f : Nat → Option β} :
    (List.range n).findSome? f = none ↔ ∀ i, i < n → f i = none := by
  simp only [List.findSome?_eq_none_iff, List.mem_range]

/-- Two searches that agree on every entry agree (R168). -/
theorem searchEntries_congr {dmem : List Bits} {f g : Nat → Bits → Option CompressionResult}
    (h : ∀ j, ∀ e ∈ dmem, f j e = g j e) : searchEntries dmem f = searchEntries dmem g := by
  have hmap : dmem.zipIdx.map (fun ej => f ej.2 ej.1) = dmem.zipIdx.map (fun ej => g ej.2 ej.1) :=
    List.map_congr_left fun ej hej => h _ _ (List.mem_of_getElem? (List.mem_zipIdx_iff_getElem?.1 hej))
  have hscan := congrArg (List.findSome? id) hmap
  rwa [List.findSome?_map, List.findSome?_map] at hscan

/-! ### Masks laid over a zero Line (R11) -/

/-- Digit strings of one length are equal when their 1s are at the same indices. -/
theorem eq_iff_onesOf {a b : Bits} (h : a.length = b.length) : a = b ↔ ∀ j, j ∈ onesOf a ↔ j ∈ onesOf b := by
  refine ⟨fun hab j => by rw [hab], fun hones => List.ext_getElem h fun j hja hjb => ?_⟩
  exact Bool.eq_iff_iff.2 (by simpa [mem_onesOf, hja, hjb] using hones j)

theorem mem_onesOf_ones {k j : Nat} : j ∈ onesOf (ones k) ↔ j < k := by
  simp [mem_onesOf, ones, List.getElem?_replicate]

theorem mem_onesOf_slice {d : Bits} {i k j : Nat} : j ∈ onesOf (slice d i k) ↔ j < k ∧ i + j ∈ onesOf d := by
  simp [mem_onesOf, slice, List.getElem?_take]

theorem mem_onesOf_place {n i j : Nat} {w : Bits} (h : i + w.length ≤ n) :
    j ∈ onesOf (place n i w) ↔ i ≤ j ∧ j - i ∈ onesOf w := by
  rw [mem_onesOf, place_getElem? h]
  cases hw : w[j - i]? with
  | none => simp [mem_onesOf, hw]
  | some b =>
    obtain ⟨hj, -⟩ := List.getElem?_eq_some_iff.1 hw
    simp [mem_onesOf, hw, show j < n by omega]

/-- Only a mask laid where all 1s of `d` are, and equal to `d` there, gives `d`. -/
theorem place_eq_iff {d w : Bits} {i : Nat} (h : i + w.length ≤ d.length) :
    place d.length i w = d ↔ slice d i w.length = w ∧ onesOf d ⊆ Finset.Ico i (i + w.length) := by
  rw [eq_iff_onesOf (place_length h)]
  constructor
  · intro hones
    simp only [mem_onesOf_place h] at hones
    refine ⟨(eq_iff_onesOf (slice_length h)).2 fun j => ?_, fun j hj => ?_⟩
    · rw [mem_onesOf_slice, ← hones, Nat.add_sub_cancel_left]
      exact ⟨fun hj => hj.2.2, fun hj => ⟨lt_length_of_mem_onesOf hj, Nat.le_add_right i j, hj⟩⟩
    · obtain ⟨hij, hw⟩ := (hones j).2 hj
      have hlt := lt_length_of_mem_onesOf hw
      exact Finset.mem_Ico.2 ⟨hij, by omega⟩
  · rintro ⟨hw, hcover⟩ j
    rw [mem_onesOf_place h, ← hw, mem_onesOf_slice]
    constructor
    · rintro ⟨hij, -, hj⟩
      rwa [Nat.add_sub_cancel' hij] at hj
    · intro hj
      obtain ⟨hij, hlt⟩ := Finset.mem_Ico.1 (hcover hj)
      exact ⟨hij, by omega, by rwa [Nat.add_sub_cancel' hij]⟩

theorem slice_eq_ones_iff {d : Bits} {i k : Nat} (h : i + k ≤ d.length) :
    slice d i k = ones k ↔ Finset.Ico i (i + k) ⊆ onesOf d := by
  rw [eq_iff_onesOf (by rw [slice_length h, ones_length])]
  simp only [mem_onesOf_slice, mem_onesOf_ones, and_iff_left_iff_imp]
  constructor
  · intro hones j hj
    obtain ⟨hij, hlt⟩ := Finset.mem_Ico.1 hj
    have hmem := hones (j - i) (by omega)
    rwa [Nat.add_sub_cancel' hij] at hmem
  · exact fun hones j hj => hones (Finset.mem_Ico.2 ⟨Nat.le_add_right i j, Nat.add_lt_add_left hj i⟩)

/-- A mask laid over the entry gives the Line exactly when it is their difference. -/
theorem xor_place_eq_iff {e x w : Bits} {i : Nat} (hx : x.length = e.length) (h : i + w.length ≤ e.length) :
    xorBits e (place e.length i w) = x
      ↔ slice (xorBits e x) i w.length = w ∧ onesOf (xorBits e x) ⊆ Finset.Ico i (i + w.length) := by
  have hlen : (xorBits e x).length = e.length := by simp [hx]
  rw [xorBits_eq_iff (place_length h) hx, ← place_eq_iff (by rwa [hlen]), hlen]

/-! ### FM1, FM2 and FM4 (R174, R175, R177, R179) -/

theorem xor_ones_eq_iff {e x : Bits} {i k : Nat} (hx : x.length = e.length) (h : i + k ≤ e.length) :
    xorBits e (place e.length i (ones k)) = x ↔ onesOf (xorBits e x) = Finset.Ico i (i + k) := by
  rw [xor_place_eq_iff hx (by simpa using h), ones_length, slice_eq_ones_iff (by simpa [hx] using h),
    Finset.Subset.antisymm_iff, and_comm]

theorem add_le_length_of_Ico_subset {d : Bits} {i k : Nat} (hk : 0 < k) (h : Finset.Ico i (i + k) ⊆ onesOf d) :
    i + k ≤ d.length := by
  have hlast := lt_length_of_mem_onesOf (h (Finset.mem_Ico.2 ⟨by omega, by omega⟩ : i + k - 1 ∈ _))
  omega

/-- The closed form finds the one place where `k` contiguous digits are all that differ. -/
theorem contiguousAt_eq_some_iff {k i : Nat} (hk : 0 < k) (x e : Bits) :
    contiguousAt k x e = some i ↔ onesOf (xorBits e x) = Finset.Ico i (i + k) := by
  unfold contiguousAt
  generalize xorBits e x = d
  simp only [Bool.and_eq_true, beq_iff_eq, Option.ite_none_right_eq_some, Option.some.injEq]
  constructor
  · rintro ⟨⟨hcount, hslice⟩, rfl⟩
    have hlen := congrArg List.length hslice
    simp only [slice, List.length_take, List.length_drop, ones_length] at hlen
    have hsub := (slice_eq_ones_iff (by omega)).1 hslice
    exact (Finset.eq_of_subset_of_card_le hsub (by simp [card_onesOf, hcount])).symm
  · intro h
    have hleast := isLeast_idxOf (h ▸ Finset.nonempty_Ico.2 (by omega))
    rw [h, Finset.coe_Ico] at hleast
    have hidx : d.idxOf true = i := hleast.unique (isLeast_Ico (by omega))
    refine ⟨⟨by simp [← card_onesOf, h], ?_⟩, hidx⟩
    rw [hidx]
    exact (slice_eq_ones_iff (add_le_length_of_Ico_subset hk h.ge)).2 h.ge

theorem scanOffsets_eq_contiguousAt {c : Cfg} {x e : Bits} (hx : x.length = c.lineW) (he : e.length = c.lineW)
    {k : Nat} (hk : 0 < k) : scanOffsets c k x e = contiguousAt k x e := by
  have hmatch (i : Nat) (hi : i + k ≤ c.lineW) :
      xorBits e (place c.lineW i (ones k)) = x ↔ contiguousAt k x e = some i := by
    rw [← he] at hi ⊢
    rw [xor_ones_eq_iff (hx.trans he.symm) hi, contiguousAt_eq_some_iff hk]
  cases h : contiguousAt k x e with
  | none =>
    refine findSome?_range_eq_none_iff.2 fun i hi => if_neg fun hxor => ?_
    rw [hmatch i (by omega), h] at hxor
    cases hxor
  | some i =>
    have hi : i + k ≤ c.lineW := by
      simpa [hx, he] using add_le_length_of_Ico_subset hk ((contiguousAt_eq_some_iff hk x e).1 h).ge
    refine findSome?_range_eq_some (by omega) (if_pos ((hmatch i hi).2 h)) fun j hj => if_neg fun hxor => ?_
    rw [hmatch j (by omega), h] at hxor
    cases hxor
    exact absurd hj (lt_irrefl _)

theorem compressFm_eq_closedForm {s : State} {x : Bits} (hline : s.mem.lmem[s.pos]? = some x)
    (hx : x.length = s.cfg.lineW) (hdict : ∀ e ∈ s.mem.dmem, e.length = s.cfg.lineW) {k : Nat} (hk : 0 < k)
    (off : Nat) :
    compressFm k off s = searchEntries s.mem.dmem fun j e =>
      (contiguousAt k x e).map fun o => ⟨enc off o ++ enc s.cfg.idxW j, 1⟩ := by
  simp only [compressFm, hline]
  exact searchEntries_congr fun j e he => by rw [scanOffsets_eq_contiguousAt hx (hdict e he) hk]

/-- Settles O24: the three searches are `fm_compress` for k = 1, 2 and 4. -/
theorem fixedMismatchSearchIsItsClosedForm : Obligations.FixedMismatchSearchIsItsClosedForm :=
  fun _ _ hline hx hdict =>
    ⟨compressFm_eq_closedForm hline hx hdict (by decide) _, compressFm_eq_closedForm hline hx hdict (by decide) _,
      compressFm_eq_closedForm hline hx hdict (by decide) _⟩

/-! ### PMM (R181) -/

theorem flip_flip_eq_iff {e x : Bits} {i j : Nat} (hx : x.length = e.length) (hi : i < e.length) (hj : j < e.length)
    (hij : j ≠ i) : flip (flip e i) j = x ↔ onesOf (xorBits e x) = {i, j} := by
  rw [(flip_flip_flippedAt e i j).eq_iff hx, Finset.ext_iff]
  have hxor (l : Nat) : (decide (l = i) ^^ decide (l = j)) = true ↔ l ∈ ({i, j} : Finset Nat) := by
    by_cases hl : l = i <;> simp [hl, hij.symm]
  refine forall_congr' fun l => ⟨fun h => ?_, fun h _ => by rw [h, hxor]⟩
  by_cases hl : l < e.length
  · rw [h hl, hxor]
  · have hout : l ∉ onesOf (xorBits e x) := fun hmem => hl (by simpa [hx] using lt_length_of_mem_onesOf hmem)
    simp only [hout, false_iff, Finset.mem_insert, Finset.mem_singleton]
    omega

/-- The closed form finds the first and the second of exactly two digits that differ. -/
theorem differingPair_eq_some_iff {x e : Bits} {p q : Nat} :
    differingPair x e = some (p, q) ↔ p < q ∧ onesOf (xorBits e x) = {p, q} := by
  unfold differingPair
  generalize xorBits e x = d
  simp only [beq_iff_eq, Option.ite_none_right_eq_some, Option.some.injEq, Prod.mk.injEq]
  constructor
  · rintro ⟨hcount, rfl, rfl⟩
    have hcard : (onesOf d).card = 2 := by rw [card_onesOf, hcount]
    have hne : (onesOf d).Nonempty := Finset.card_pos.1 (by omega)
    obtain ⟨hfirst, hmin⟩ := isLeast_idxOf hne
    obtain ⟨hlast, hmax⟩ := isGreatest_lastOne hne
    have hlt : d.idxOf true < lastOne d := by
      by_contra hge
      have hsub : onesOf d ⊆ {d.idxOf true} := fun i hi =>
        Finset.mem_singleton.2 (le_antisymm ((hmax hi).trans (Nat.le_of_not_lt hge)) (hmin hi))
      have hone := Finset.card_le_card hsub
      rw [hcard, Finset.card_singleton] at hone
      omega
    have hsub : {d.idxOf true, lastOne d} ⊆ onesOf d :=
      Finset.insert_subset hfirst (Finset.singleton_subset_iff.2 hlast)
    exact ⟨hlt, (Finset.eq_of_subset_of_card_le hsub (by rw [hcard, Finset.card_pair hlt.ne])).symm⟩
  · rintro ⟨hlt, h⟩
    have hne : (onesOf d).Nonempty := h ▸ Finset.insert_nonempty p {q}
    have hleast := isLeast_idxOf hne
    have hgreatest := isGreatest_lastOne hne
    rw [h, Finset.coe_pair] at hleast hgreatest
    have hcount : d.count true = 2 := by rw [← card_onesOf, h, Finset.card_pair hlt.ne]
    exact ⟨hcount, by simpa [hlt.le] using hleast.unique isLeast_pair,
      by simpa [hlt.le] using hgreatest.unique isGreatest_pair⟩

theorem scanPairs_eq_differingPair {c : Cfg} {x e : Bits} (hx : x.length = c.lineW) (he : e.length = c.lineW) :
    scanPairs c x e = differingPair x e := by
  have hmatch (i j : Nat) (hi : i < c.lineW) (hj : j < c.lineW) :
      (j ≠ i ∧ flip (flip e i) j = x) ↔ j ≠ i ∧ onesOf (xorBits e x) = {i, j} :=
    and_congr_right (flip_flip_eq_iff (hx.trans he.symm) (he ▸ hi) (he ▸ hj))
  cases h : differingPair x e with
  | none =>
    refine findSome?_range_eq_none_iff.2 fun i hi => findSome?_range_eq_none_iff.2 fun j hj => if_neg fun hflip => ?_
    obtain ⟨hne, hones⟩ := (hmatch i j hi hj).1 hflip
    rcases hne.lt_or_gt with hlt | hlt
    · rw [differingPair_eq_some_iff.2 ⟨hlt, hones.trans (Finset.pair_comm i j)⟩] at h
      cases h
    · rw [differingPair_eq_some_iff.2 ⟨hlt, hones⟩] at h
      cases h
  | some pq =>
    obtain ⟨p, q⟩ := pq
    obtain ⟨hlt, hones⟩ := differingPair_eq_some_iff.1 h
    have hmem : q ∈ onesOf (xorBits e x) := by simp [hones]
    have hq : q < c.lineW := by simpa [hx, he] using lt_length_of_mem_onesOf hmem
    have hp : p < c.lineW := hlt.trans hq
    refine findSome?_range_eq_some hp (findSome?_range_eq_some hq
      (if_pos ((hmatch p q hp hq).2 ⟨hlt.ne', hones⟩)) fun j hj => if_neg fun hflip => ?_)
      fun i hi => findSome?_range_eq_none_iff.2 fun j hj => if_neg fun hflip => ?_
    · obtain ⟨-, hones'⟩ := (hmatch p j hp (hj.trans hq)).1 hflip
      have hmem : q ∈ ({p, j} : Finset Nat) := hones' ▸ hones ▸ by simp
      simp only [Finset.mem_insert, Finset.mem_singleton] at hmem
      omega
    · obtain ⟨-, hones'⟩ := (hmatch i j (hi.trans hp) hj).1 hflip
      have hmem : i ∈ ({p, q} : Finset Nat) := hones ▸ hones' ▸ by simp
      simp only [Finset.mem_insert, Finset.mem_singleton] at hmem
      omega

/-- Settles O25: the scan of each entry has its closed form. -/
theorem pmmSearchIsItsClosedForm : Obligations.PmmSearchIsItsClosedForm := by
  intro s x hline hx hdict
  simp only [compressPmm, hline]
  exact searchEntries_congr fun j e he => by rw [scanPairs_eq_differingPair hx (hdict e he)]

/-! ### BMD (R171, R172) -/

theorem val_append (a b : Bits) : val (a ++ b) = val a * 2 ^ b.length + val b := by
  induction a with
  | nil => simp [val]
  | cons d ds ih => simp only [List.cons_append, val, List.length_append, ih]; ring

theorem val_place (n i : Nat) (w : Bits) : val (place n i w) = val w * 2 ^ (n - i - w.length) := by
  simp [place, val_append]

theorem val_pos_iff {d : Bits} : 0 < val d ↔ (onesOf d).Nonempty := by
  rw [onesOf_nonempty_iff]
  induction d with
  | nil => simp [val]
  | cons b ds ih => cases b <;> simp [val, ih]

/-- A window that covers all 1s has the value of the whole string, but for the zeros after it. -/
theorem val_eq_of_cover {d : Bits} {i k : Nat} (h : i + k ≤ d.length) (hcover : onesOf d ⊆ Finset.Ico i (i + k)) :
    val d = val (slice d i k) * 2 ^ (d.length - i - k) := by
  have hlen : (slice d i k).length = k := slice_length h
  have hplace : place d.length i (slice d i k) = d := 
    (place_eq_iff (by rwa [hlen])).2 (by rw [hlen]; exact ⟨rfl, hcover⟩)
  calc val d = val (place d.length i (slice d i k)) := by rw [hplace]
    _ = val (slice d i k) * 2 ^ (d.length - i - k) := by rw [val_place, hlen]

/-- Of two windows that cover all 1s the one further right has the greater value. -/
theorem val_slice_lt_of_cover {d : Bits} {i j k : Nat} (hne : (onesOf d).Nonempty) (hji : j < i) (h : i + k ≤ d.length)
    (hj : onesOf d ⊆ Finset.Ico j (j + k)) (hi : onesOf d ⊆ Finset.Ico i (i + k)) :
    val (slice d j k) < val (slice d i k) := by
  have hpos : 0 < val d := val_pos_iff.2 hne
  have hleft := val_eq_of_cover (by omega) hj
  have hright := val_eq_of_cover h hi
  by_contra hge
  have hpow : 2 ^ (d.length - i - k) < 2 ^ (d.length - j - k) := Nat.pow_lt_pow_right (by decide) (by omega)
  have hslice : 0 < val (slice d j k) := Nat.pos_of_mul_pos_right (hleft ▸ hpos)
  have hlt := Nat.mul_lt_mul_of_le_of_lt (Nat.le_of_not_lt hge) hpow hslice
  omega

/-- Where the closed form puts its window: on the first 1, or as far right as a window fits. -/
def windowStart (c : Cfg) (d : Bits) : Nat := min (d.idxOf true) (c.lineW - c.maskW)

theorem windowStart_add_le {c : Cfg} (d : Bits) (hM : c.maskW ≤ c.lineW) :
    windowStart c d + c.maskW ≤ c.lineW := by
  unfold windowStart
  omega

/-- The window of the closed form covers all 1s exactly when they span at most `MASK_W` digits. -/
theorem cover_windowStart_iff {c : Cfg} {d : Bits} (hd : d.length = c.lineW) (hM : c.maskW ≤ c.lineW)
    (hne : (onesOf d).Nonempty) :
    onesOf d ⊆ Finset.Ico (windowStart c d) (windowStart c d + c.maskW) ↔ lastOne d - d.idxOf true + 1 ≤ c.maskW := by
  obtain ⟨hfirst, hmin⟩ := isLeast_idxOf hne
  obtain ⟨hlast, hmax⟩ := isGreatest_lastOne hne
  have hlt := lt_length_of_mem_onesOf hlast
  have hle := hmin hlast
  unfold windowStart
  constructor
  · intro hcover
    have hin := Finset.mem_Ico.1 (hcover hlast)
    omega
  · intro hspan i hi
    have hge := hmin hi
    have hle' := hmax hi
    rw [Finset.mem_Ico]
    omega

/-- A window that covers all 1s is no further right than that of the closed form, which then covers them too. -/
theorem cover_windowStart_of_cover {c : Cfg} {d : Bits} (hd : d.length = c.lineW) (hne : (onesOf d).Nonempty) {i : Nat}
    (hi : i + c.maskW ≤ c.lineW) (hcover : onesOf d ⊆ Finset.Ico i (i + c.maskW)) :
    i ≤ windowStart c d ∧ onesOf d ⊆ Finset.Ico (windowStart c d) (windowStart c d + c.maskW) := by
  obtain ⟨hfirst, hmin⟩ := isLeast_idxOf hne
  obtain ⟨hlast, hmax⟩ := isGreatest_lastOne hne
  rw [cover_windowStart_iff hd (by omega) hne]
  have hin := Finset.mem_Ico.1 (hcover hfirst)
  have hin' := Finset.mem_Ico.1 (hcover hlast)
  unfold windowStart
  omega

theorem maskWindow_eq_some_iff {c : Cfg} {x e w : Bits} {i : Nat} (hx : x.length = c.lineW) (he : e.length = c.lineW)
    (hM : c.maskW ≤ c.lineW) :
    maskWindow c x e = some (i, w)
      ↔ (onesOf (xorBits e x)).Nonempty ∧ onesOf (xorBits e x) ⊆ Finset.Ico i (i + c.maskW)
        ∧ i = windowStart c (xorBits e x) ∧ w = slice (xorBits e x) i c.maskW := by
  have hd : (xorBits e x).length = c.lineW := by simp [hx, he]
  unfold maskWindow
  generalize xorBits e x = d at hd
  simp only [Bool.and_eq_true, List.contains_iff_mem, decide_eq_true_eq, Option.ite_none_right_eq_some,
    Option.some.injEq, Prod.mk.injEq, ← onesOf_nonempty_iff]
  constructor
  · rintro ⟨⟨hne, hspan⟩, rfl, rfl⟩
    exact ⟨hne, (cover_windowStart_iff hd hM hne).2 hspan, rfl, rfl⟩
  · rintro ⟨hne, hcover, rfl, rfl⟩
    exact ⟨⟨hne, (cover_windowStart_iff hd hM hne).1 hcover⟩, rfl, rfl⟩

theorem mem_maskValues {k m : Nat} : m ∈ maskValues k ↔ 0 < m ∧ m < 2 ^ k := by
  simp only [maskValues, List.mem_map, List.mem_reverse, List.mem_range]
  constructor
  · rintro ⟨a, ha, rfl⟩
    omega
  · rintro ⟨hpos, hlt⟩
    exact ⟨m - 1, by omega, by omega⟩

/-- The mask values are scanned downward (R171). -/
theorem maskValues_pairwise (k : Nat) : (maskValues k).Pairwise (· > ·) := by
  rw [maskValues, List.pairwise_map, List.pairwise_reverse]
  exact List.pairwise_lt_range.imp fun h => Nat.succ_lt_succ h

/-- A window that covers all 1s, where there are any, is a mask of the scan. -/
theorem val_slice_mem_maskValues {d : Bits} {i k : Nat} (hne : (onesOf d).Nonempty) (h : i + k ≤ d.length)
    (hcover : onesOf d ⊆ Finset.Ico i (i + k)) : val (slice d i k) ∈ maskValues k := by
  have hpos := val_pos_iff.2 hne
  rw [val_eq_of_cover h hcover] at hpos
  exact mem_maskValues.2
    ⟨Nat.pos_of_mul_pos_right hpos, by simpa only [slice_length h] using val_lt (slice d i k)⟩

section
variable {c : Cfg} {x e : Bits} (hx : x.length = c.lineW) (he : e.length = c.lineW)
include hx he

/-- A mask that makes the entry the Line is their difference, seen through a window that covers it. -/
theorem window_of_xor_place {m i : Nat} (hm : m ∈ maskValues c.maskW) (hi : i + c.maskW ≤ c.lineW)
    (h : xorBits e (place c.lineW i (enc c.maskW m)) = x) :
    (onesOf (xorBits e x)).Nonempty ∧ onesOf (xorBits e x) ⊆ Finset.Ico i (i + c.maskW)
      ∧ val (slice (xorBits e x) i c.maskW) = m := by
  rw [← he] at h hi
  obtain ⟨hslice, hcover⟩ := (xor_place_eq_iff (hx.trans he.symm) (by simpa using hi)).1 h
  rw [enc_length] at hslice hcover
  obtain ⟨hpos, hlt⟩ := mem_maskValues.1 hm
  have hval : val (slice (xorBits e x) i c.maskW) = m := by rw [hslice, val_enc _ _ hlt]
  refine ⟨val_pos_iff.1 ?_, hcover, hval⟩
  rw [val_eq_of_cover (by simpa [hx, he] using hi) hcover, hval]
  positivity

/-- The window of the closed form makes the entry the Line. -/
theorem xor_place_of_cover {i : Nat} (hi : i + c.maskW ≤ c.lineW)
    (hcover : onesOf (xorBits e x) ⊆ Finset.Ico i (i + c.maskW)) :
    xorBits e (place c.lineW i (slice (xorBits e x) i c.maskW)) = x := by
  have hlen : (slice (xorBits e x) i c.maskW).length = c.maskW := slice_length (by simpa [hx, he] using hi)
  rw [← he, xor_place_eq_iff (hx.trans he.symm) (by rwa [hlen, he]), hlen]
  exact ⟨rfl, hcover⟩

/-- No mask that makes the entry the Line is greater than the closed form's, and no other offset has that mask. -/
theorem mask_lt_or_eq_of_xor_place {m j : Nat} (hm : m ∈ maskValues c.maskW) (hj : j + c.maskW ≤ c.lineW)
    (h : xorBits e (place c.lineW j (enc c.maskW m)) = x) :
    m < val (slice (xorBits e x) (windowStart c (xorBits e x)) c.maskW)
    ∨ (m = val (slice (xorBits e x) (windowStart c (xorBits e x)) c.maskW) ∧ j = windowStart c (xorBits e x)) := by
  have hd : (xorBits e x).length = c.lineW := by simp [hx, he]
  obtain ⟨hne, hcover, rfl⟩ := window_of_xor_place hx he hm hj h
  obtain ⟨hle, hcover'⟩ := cover_windowStart_of_cover hd hne hj hcover
  rcases hle.eq_or_lt with hj | hlt
  · exact .inr ⟨by rw [← hj], hj⟩
  · have hfit := windowStart_add_le (xorBits e x) (show c.maskW ≤ c.lineW by omega)
    exact .inl (val_slice_lt_of_cover hne hlt (by rwa [hd]) hcover hcover')

/-- The scan meets the closed form's mask before any other that matches, and its offset is the only one there. -/
theorem scanMasks_eq_maskWindow (hM : c.maskW ≤ c.lineW) : scanMasks c x e = maskWindow c x e := by
  have hd : (xorBits e x).length = c.lineW := by simp [hx, he]
  have hclosed (i : Nat) (w : Bits) := maskWindow_eq_some_iff (i := i) (w := w) hx he hM
  cases h : maskWindow c x e with
  | none =>
    refine List.findSome?_eq_none_iff.2 fun m hm => findSome?_range_eq_none_iff.2 fun i hi => if_neg fun hxor => ?_
    obtain ⟨hne, hcover, -⟩ := window_of_xor_place hx he hm (by omega) hxor
    obtain ⟨-, hcover'⟩ := cover_windowStart_of_cover hd hne (by omega) hcover
    rw [(hclosed _ _).2 ⟨hne, hcover', rfl, rfl⟩] at h
    cases h
  | some iw =>
    obtain ⟨i, w⟩ := iw
    obtain ⟨hne, hcover, rfl, rfl⟩ := (hclosed i w).1 h
    have hfit := windowStart_add_le (xorBits e x) hM
    have hmem := val_slice_mem_maskValues hne (by rwa [hd]) hcover
    refine findSome?_eq_some_of_first (maskValues_pairwise _) hmem
      (findSome?_range_eq_some (j := windowStart c (xorBits e x)) (by omega) ?_ fun j hj => if_neg fun hxor => ?_)
      fun m hm hgt => findSome?_range_eq_none_iff.2 fun j hj => if_neg fun hxor => ?_
    · rw [enc_val_of_length (slice_length (by rwa [hd])), if_pos (xor_place_of_cover hx he hfit hcover)]
    · have hle := mask_lt_or_eq_of_xor_place hx he hmem (by omega) hxor
      omega
    · have hle := mask_lt_or_eq_of_xor_place hx he hm (by omega) hxor
      omega

end

/-- Settles O23: the scan of each entry has its closed form. -/
theorem bmdSearchIsItsClosedForm : Obligations.BmdSearchIsItsClosedForm := by
  intro s x hline hx hdict _ hM
  simp only [compressBmd, hline]
  exact searchEntries_congr fun j e he => by rw [scanMasks_eq_maskWindow hx (hdict e he) hM]

end Sys2Proof.Machine

/-! PROOFS. One step of ENCODE (spec/42_encoder_selector.md, R221 to R224): the selection loop keeps the cheapest result of
the strategies it has had, the earlier tag on ties, and every strategy is evaluated as in the state before the step. -/

namespace Sys2Proof.Machine

/-! ### The order of the catalogue (R92) -/

theorem tagOf_lt_length (st : Strategy) : tagOf st < catalogue.length :=
  (List.getElem?_eq_some_iff.1 (catalogue_tagOf st)).1

theorem tagOf_injective : Function.Injective tagOf := fun a b h =>
  Option.some.inj (by rw [← catalogue_tagOf a, h, catalogue_tagOf b])

/-- Below the next tag stand the strategies before this one, and this one. -/
theorem tagOf_lt_succ {st st' : Strategy} (h : tagOf st' < tagOf st + 1) : tagOf st' < tagOf st ∨ st' = st :=
  (Nat.lt_succ_iff_lt_or_eq.1 h).imp_right fun heq => tagOf_injective heq

theorem tagOf_of_drop {n : Nat} {st : Strategy} {rest : List Strategy} (h : catalogue.drop n = st :: rest) :
    tagOf st = n :=
  (catalogue_inv (by rw [← Nat.add_zero n, ← List.getElem?_drop, h]; rfl)).symm

/-! ### The RunLength memory through a selection (R165, R221) -/

/-- The RunLength memory (R34). -/
def runMemory (s : State) : Bool × Bits := (s.rleValid, s.rleLast)

@[simp] theorem runMemory_offerBest (t : Nat) (r : CompressionResult) (s : State) :
    runMemory (offerBest t r s) = runMemory s := by
  rcases offerBest_cases t r s with ⟨-, h⟩ | ⟨-, -, h⟩
  · rw [h]; rfl
  · rw [h]

/-- A turn of the loop leaves what the evaluation leaves (R221). -/
theorem runMemory_consider_of_enabled {st : Strategy} {s : State} (hen : s.cfg.enabled (tagOf st) = true) :
    runMemory (consider s st) = runMemory (evaluate st s).1 := by
  rcases consider_cases s st with ⟨hdis, -⟩ | ⟨-, -, h⟩ | ⟨r, -, -, h⟩
  · rw [hen] at hdis
    cases hdis
  · rw [h]
  · rw [h, runMemory_offerBest]

theorem consider_of_disabled {st : Strategy} {s : State} (hdis : s.cfg.enabled (tagOf st) = false) :
    consider s st = s := by
  simp [consider, hdis]

theorem runMemory_consider_of_ne_rle {st : Strategy} (hst : st ≠ .rle) (s : State) :
    runMemory (consider s st) = runMemory s := by
  cases hen : s.cfg.enabled (tagOf st) with
  | true => rw [runMemory_consider_of_enabled hen, evaluate_state_of_ne_rle hst]
  | false => rw [consider_of_disabled hen]

/-- A failed look-back forgets the run; otherwise the Line at `pos` is remembered, newly or still (R165). -/
theorem runMemory_compressRle {s : State} {x : Bits} (hx : s.mem.lmem[s.pos]? = some x) :
    runMemory (compressRle s).1
      = if s.pos = 0 ∨ s.mem.lmem[s.pos - 1]? ≠ some x then (false, s.rleLast) else (true, x) := by
  by_cases hback : s.pos = 0 ∨ s.mem.lmem[s.pos - 1]? ≠ some x
  · rw [compressRle_of_failed hx hback, if_pos hback]
    rfl
  · rw [if_neg hback]
    by_cases hrun : runRemembered x s = true
    · obtain ⟨hvalid, hlast⟩ := runRemembered_iff.1 hrun
      rw [compressRle_of_refused hx hback hrun, runMemory, hvalid, hlast]
    · rw [compressRle_of_run hx hback hrun]
      rfl

/-- What RLE leaves in its memory depends on what RLE reads only (R161). -/
theorem runMemory_compressRle_eq {s u : State} (h : SameReads .rle s u) :
    runMemory (compressRle u).1 = runMemory (compressRle s).1 := by
  obtain ⟨hvalid, hlast⟩ := h.run rfl
  cases hx : s.mem.lmem[s.pos]? with
  | none => simp [compressRle, h.lmem, h.pos, hx, runMemory, hvalid, hlast]
  | some x => rw [runMemory_compressRle hx, runMemory_compressRle (by rwa [h.lmem, h.pos]), h.lmem, h.pos, hlast]

/-- A turn of the loop leaves what any other strategy reads. -/
theorem SameReads.consider {st st' : Strategy} {s t : State} (h : SameReads st' s t) (hne : st' ≠ st) :
    SameReads st' s (consider t st) := by
  have hsame := consider_sameButSelector t st
  have hrun (hrle : st' = .rle) : runMemory (Machine.consider t st) = runMemory t :=
    runMemory_consider_of_ne_rle (hrle ▸ hne.symm) t
  exact
    { cfg := hsame.cfg.trans h.cfg
      lmem := (congrArg Memory.lmem hsame.mem).trans h.lmem
      dmem := (congrArg Memory.dmem hsame.mem).trans h.dmem
      pos := hsame.pos.trans h.pos
      run := fun hrle =>
        ⟨(congrArg Prod.fst (hrun hrle)).trans (h.run hrle).1, (congrArg Prod.snd (hrun hrle)).trans (h.run hrle).2⟩ }

/-- A selection starts from what every strategy reads in the state before the step. -/
theorem sameReads_clearBest_popTick (st : Strategy) (s : State) : SameReads st s (clearBest s.popTick) where
  cfg := rfl
  lmem := rfl
  dmem := rfl
  pos := rfl
  run _ := ⟨rfl, rfl⟩

/-- LIT's turn before it leaves what RLE reads. -/
theorem sameReads_rle_after_lit (s : State) : SameReads .rle s (consider (clearBest s.popTick) .lit) :=
  (sameReads_clearBest_popTick .rle s).consider (by decide)

/-- The loop writes the memory in RLE's turn only. -/
theorem runMemory_select (s : State) :
    runMemory (select s) = runMemory (consider (consider (clearBest s) .lit) .rle) := by
  have hselect : select s
      = [.dir, .bmd, .fm1, .fm2, .fm4, .pmm].foldl consider (consider (consider (clearBest s) .lit) .rle) := rfl
  rw [hselect]
  generalize consider (consider (clearBest s) .lit) .rle = u
  exact List.foldlRecOn (motive := fun t => runMemory t = runMemory u) _ consider rfl
    fun t ht st hst => (runMemory_consider_of_ne_rle (by rintro rfl; simp at hst) t).trans ht

theorem runMemory_select_of_enabled {s : State} (hen : s.cfg.enabled 1 = true) :
    runMemory (select s.popTick) = runMemory (compressRle s).1 := by
  have hreads := sameReads_rle_after_lit s
  rw [runMemory_select, runMemory_consider_of_enabled (by rwa [hreads.cfg])]
  exact runMemory_compressRle_eq hreads

theorem runMemory_select_of_disabled {s : State} (hdis : s.cfg.enabled 1 = false) :
    runMemory (select s.popTick) = runMemory s := by
  have hreads := sameReads_rle_after_lit s
  rw [runMemory_select, consider_of_disabled (by rwa [hreads.cfg]), runMemory_consider_of_ne_rle (by decide)]
  rfl

/-! ### The cheapest result (R222) -/

/-- `st` is enabled and its evaluation in `s` gives `r` (R221). -/
def Offers (s : State) (st : Strategy) (r : CompressionResult) : Prop :=
  s.cfg.enabled (tagOf st) = true ∧ (evaluate st s).2 = some r

/-- `st` offers `r` in `s`, and no strategy with a tag below `n` offers a smaller payload, nor as small a one under an
earlier tag. -/
structure Cheapest (s : State) (n : Nat) (st : Strategy) (r : CompressionResult) : Prop where
  offers : Offers s st r
  before : tagOf st < n
  least : ∀ st' r', tagOf st' < n → Offers s st' r' →
    payloadLen s.cfg st < payloadLen s.cfg st'
    ∨ (payloadLen s.cfg st = payloadLen s.cfg st' ∧ tagOf st ≤ tagOf st')

/-- The cheapest so far stays the cheapest unless the next strategy offers a strictly smaller payload. -/
theorem Cheapest.keep {s : State} {st st' : Strategy} {r : CompressionResult} (h : Cheapest s (tagOf st') st r)
    (hle : ∀ r', Offers s st' r' → payloadLen s.cfg st ≤ payloadLen s.cfg st') :
    Cheapest s (tagOf st' + 1) st r where
  offers := h.offers
  before := Nat.lt_succ_of_lt h.before
  least u r' hu hr' := by
    rcases tagOf_lt_succ hu with hlt | rfl
    · exact h.least u r' hlt hr'
    · exact (hle r' hr').lt_or_eq.imp_right fun heq => ⟨heq, h.before.le⟩

/-- A strategy whose payload is strictly smaller than all before it is the cheapest. -/
theorem Cheapest.replace {s : State} {st : Strategy} {r : CompressionResult} (hr : Offers s st r)
    (hlt : ∀ st' r', tagOf st' < tagOf st → Offers s st' r' → payloadLen s.cfg st < payloadLen s.cfg st') :
    Cheapest s (tagOf st + 1) st r where
  offers := hr
  before := Nat.lt_succ_self _
  least u r' hu hr' := by
    rcases tagOf_lt_succ hu with hu | rfl
    · exact .inl (hlt u r' hu hr')
    · exact .inr ⟨rfl, le_rfl⟩

/-- The best-candidate registers hold `r` under the tag of `st` (R222). -/
structure BestIs (t : State) (st : Strategy) (r : CompressionResult) : Prop where
  valid : t.bestValid = true
  tag : t.bestTag = tagOf st
  payload : t.bestPayload = r.payload
  consumed : t.bestConsumed = r.consumed

/-- The best-candidate registers of `t` after the strategies with a tag below `n`: nothing was offered, or they hold the
cheapest offer. -/
def BestBelow (s : State) (n : Nat) (t : State) : Prop :=
  (t.bestValid = false ∧ ∀ st r, tagOf st < n → ¬ Offers s st r) ∨ ∃ st r, Cheapest s n st r ∧ BestIs t st r

theorem BestBelow.skip {s t : State} {st : Strategy} (h : BestBelow s (tagOf st) t) (hno : ∀ r, ¬ Offers s st r) :
    BestBelow s (tagOf st + 1) t := by
  rcases h with ⟨hvalid, hnone⟩ | ⟨best, r, hbest, his⟩
  · refine .inl ⟨hvalid, fun st' r' hst' => ?_⟩
    rcases tagOf_lt_succ hst' with hlt | rfl
    · exact hnone st' r' hlt
    · exact hno r'
  · exact .inr ⟨best, r, hbest.keep fun r' hr' => absurd hr' (hno r'), his⟩

/-- An offer is taken if it is the first or strictly cheaper, and then it is the cheapest. -/
theorem BestBelow.offer {s t : State} {st : Strategy} {r : CompressionResult} (h : BestBelow s (tagOf st) t)
    (hcfg : t.cfg = s.cfg) (hr : Offers s st r) : BestBelow s (tagOf st + 1) (offerBest (tagOf st) r t) := by
  have hnew (hlt : ∀ st' r', tagOf st' < tagOf st → Offers s st' r' → payloadLen s.cfg st < payloadLen s.cfg st')
      (heq : offerBest (tagOf st) r t
        = { t with bestValid := true, bestTag := tagOf st, bestPayload := r.payload, bestConsumed := r.consumed }) :
      BestBelow s (tagOf st + 1) (offerBest (tagOf st) r t) :=
    .inr ⟨st, r, .replace hr hlt, by rw [heq]; exact ⟨rfl, rfl, rfl, rfl⟩⟩
  have hlen (u : Strategy) : payloadLenAt t.cfg (tagOf u) = payloadLen s.cfg u := by rw [hcfg, payloadLenAt_tagOf]
  have hcases := offerBest_cases (tagOf st) r t
  rcases h with ⟨hvalid, hnone⟩ | ⟨best, r', hbest, his⟩
  · rcases hcases with ⟨-, heq⟩ | ⟨hvalid', -, -⟩
    · exact hnew (fun st' r' hst' hr' => absurd hr' (hnone st' r' hst')) heq
    · rw [hvalid] at hvalid'
      cases hvalid'
  · rw [his.tag, hlen, hlen, his.valid] at hcases
    rcases hcases with ⟨hfirst | hlt, heq⟩ | ⟨-, hle, heq⟩
    · cases hfirst
    · refine hnew (fun st' r' hst' hr' => ?_) heq
      rcases hbest.least st' r' hst' hr' with hless | ⟨hsame, -⟩ <;> omega
    · rw [heq]
      exact .inr ⟨best, r', hbest.keep fun _ _ => hle, his⟩

/-! ### The selection loop (R221, R222) -/

/-- What the loop has done after the strategies with a tag below `n`: what the others read is as in `s`, and the
best-candidate registers hold the cheapest offer. -/
structure Considered (s : State) (n : Nat) (t : State) : Prop where
  reads : ∀ st, n ≤ tagOf st → SameReads st s t
  best : BestBelow s n t

/-- An evaluation leaves the best-candidate registers (R161). -/
theorem BestBelow.evaluate {s t : State} {n : Nat} (h : BestBelow s n t) (st : Strategy) :
    BestBelow s n (evaluate st t).1 := by
  obtain ⟨v, x, heq⟩ := evaluate_writes_run st t
  rw [heq]
  exact h.imp_right fun ⟨best, r, hbest, his⟩ => ⟨best, r, hbest, { his with }⟩

/-- A strategy is evaluated on what it reads in `s`, and its result, if any, offered. -/
theorem Considered.turn {s t : State} {st : Strategy} (h : Considered s (tagOf st) t) :
    Considered s (tagOf st + 1) (consider t st) where
  reads st' hst' := (h.reads st' (Nat.le_of_succ_le hst')).consider (by rintro rfl; omega)
  best := by
    have hreads := h.reads st le_rfl
    have hresult := evaluate_result_eq hreads
    have hcfg : (evaluate st t).1.cfg = s.cfg := (evaluate_sameButSelector st t).cfg.trans hreads.cfg
    rcases consider_cases t st with ⟨hdis, heq⟩ | ⟨-, hnone, heq⟩ | ⟨r, hen, hsome, heq⟩ <;> rw [heq]
    · exact h.best.skip fun r hr => by rw [hreads.cfg, hr.1] at hdis; cases hdis
    · exact (h.best.evaluate st).skip fun r hr => by rw [hresult, hr.2] at hnone; cases hnone
    · exact (h.best.evaluate st).offer hcfg ⟨hreads.cfg ▸ hen, hresult ▸ hsome⟩

/-- The catalogue being in tag order, the rest of the loop goes on from the next tag. -/
theorem Considered.foldl {s : State} {rest : List Strategy} :
    ∀ {n : Nat} {t : State}, catalogue.drop n = rest → Considered s n t →
      Considered s (n + rest.length) (rest.foldl Machine.consider t) := by
  induction rest with
  | nil => exact fun _ h => h
  | cons st rest ih =>
    intro n t hdrop h
    obtain rfl := tagOf_of_drop hdrop
    have hrest : catalogue.drop (tagOf st + 1) = rest := by rw [← List.tail_drop, hdrop]; rfl
    rw [List.length_cons, ← Nat.add_assoc, Nat.add_right_comm]
    exact ih hrest h.turn

theorem select_considered (s : State) : Considered s catalogue.length (select s.popTick) := by
  have hstart : Considered s 0 (clearBest s.popTick) :=
    { reads := fun st _ => sameReads_clearBest_popTick st s, best := .inl ⟨rfl, fun _ _ h => absurd h (by omega)⟩ }
  simpa only [select, Nat.zero_add] using hstart.foldl (rest := catalogue) rfl

/-- A selection at a Line ends with the cheapest offer of all in the best-candidate registers (R222). -/
theorem select_cheapest {s : State} (hcfg : cfgValid s.cfg = true) (hpos : s.pos < s.nLines) :
    ∃ st r, Cheapest s catalogue.length st r ∧ BestIs (select s.popTick) st r := by
  have hvalid : (select s.popTick).bestValid = true := select_bestValid (s := s.popTick) hcfg hpos
  rcases (select_considered s).best with ⟨hnone, -⟩ | hbest
  · rw [hvalid] at hnone
    cases hnone
  · exact hbest

/-! ### Emission (R223, R224) -/

theorem encodeStep_of_line {s : State} (hcfg : cfgValid s.cfg = true) (hpos : s.pos < s.nLines) :
    encodeStep s = .next (emitBest (select s)) := by
  rw [encodeStep, if_pos hpos, if_pos (select_bestValid hcfg hpos)]

theorem emitBest_of_full {s : State} (h : s.cfg.maxLines = some s.nInstr) :
    emitBest s = raise .capacityExceeded s.pos s.bestTag s.nInstr s :=
  if_pos ((atCapacity_iff _ _).2 h)

theorem emitBest_of_room {s : State} (h : s.cfg.maxLines ≠ some s.nInstr) :
    emitBest s = { s with
      mem := { s.mem with iq := s.mem.iq ++ [⟨s.bestTag, s.bestPayload⟩] }
      pos := s.pos + s.bestConsumed } :=
  if_neg ((atCapacity_iff _ _).not.2 h)

/-- A state that a selection has left, with its registers written out. -/
theorem SameButSelector.eq_of_bestIs {s t : State} {st : Strategy} {r : CompressionResult} (h : SameButSelector s t)
    (his : BestIs t st r) :
    t = { s with
      rleValid := t.rleValid, rleLast := t.rleLast, bestValid := true
      bestTag := tagOf st, bestPayload := r.payload, bestConsumed := r.consumed } := by
  rw [SameButSelector, his.valid, his.tag, his.payload, his.consumed] at h
  exact h

/-- Settles O28: the loop ends with the cheapest offer, emission queues it, and RLE's turn alone writes the RunLength
memory. -/
theorem encodeStepPicksTheCheapest : Obligations.EncodeStepPicksTheCheapest := by
  intro s hphase hreset hcfg hpos
  obtain ⟨st, r, hbest, his⟩ := select_cheapest hcfg hpos
  have hstep : step s = .next (emitBest (select s.popTick)) := by
    rw [step_of_noReset hreset, phaseStep, popTick_phase, hphase]
    exact encodeStep_of_line (s := s.popTick) hcfg hpos
  have hselect := (select_sameButSelector s.popTick).eq_of_bestIs his
  refine ⟨st, r, hbest.offers.1, hbest.offers.2,
    fun st' r' hen hres => hbest.least st' r' (tagOf_lt_length st') ⟨hen, hres⟩, fun hfull => ?_, fun hroom => ?_⟩
  · rw [hstep, emitBest_of_full (by rw [hselect]; exact hfull), hselect]
    exact raises_raise _ _ _ _ rfl rfl
  · refine ⟨(select s.popTick).rleValid, (select s.popTick).rleLast, ?_, fun hen => ?_, fun hdis => ?_⟩
    · rw [hstep, emitBest_of_room (by rw [hselect]; exact hroom), hselect]
      rfl
    · exact Prod.ext_iff.1 (runMemory_select_of_enabled hen)
    · exact Prod.ext_iff.1 (runMemory_select_of_disabled hdis)

end Sys2Proof.Machine

/-! PROOFS. DISPATCH over all instructions (spec/43_decoder_dispatch.md, R241 and R242; spec/60_exceptions.md, R346): what
one instruction can answer, put together from the rules of `append`, `get` and the field checks. -/

namespace Sys2Proof.Machine

/-! ### The two answers of DISPATCH (R241, R346) -/

/-- Why an instruction of strategy `st` may raise the fault `k` with the third field `aux` in its record, in the state `s`
(R138, R162, R167, R173, R174, R182). -/
def DispatchFault (st : Strategy) (s : State) (k : FaultKind) (aux : Nat) : Prop :=
  (k = .noPriorLine ∧ st = .rle ∧ s.mem.omem = [])
  ∨ (k = .outOfRange ∧ 2 ≤ tagOf st ∧ s.dictSize ≤ aux)
  ∨ (k = .badField ∧ 3 ≤ tagOf st)
  ∨ (k = .capacityExceeded ∧ s.cfg.maxLines = some aux)

/-- `o` is `s` with `n` Lines put at the end of OMEM and nothing else changed, or a fault with its reason, at the cursor and
under the tag of `st`. -/
def Dispatched (n : Nat) (st : Strategy) (s : State) (o : Host.Outcome State Fault Refusal) : Prop :=
  (∃ ys : List Bits, ys.length = n ∧ o = .next (withLines s ys))
  ∨ ∃ k aux, Raises o k ⟨s.cur, tagOf st, aux⟩ s ∧ DispatchFault st s k aux

section
variable {n : Nat} {st : Strategy} {s : State}

/-! ### One answer for each shared operation -/

/-- A field that reaches past the Line (R173, R174, R182). -/
theorem dispatched_badField (hst : 3 ≤ tagOf st) (aux : Nat) :
    Dispatched n st s (.next (raise .badField s.cur (tagOf st) aux s)) :=
  .inr ⟨.badField, aux, raises_raise _ _ _ _ rfl rfl, .inr (.inr (.inl ⟨rfl, hst⟩))⟩

theorem dispatched_of_appendsOrOverflows {o : Host.Outcome State Fault Refusal} {y : Bits}
    (h : AppendsOrOverflows o (tagOf st) y s) : Dispatched 1 st s o := by
  obtain ⟨happends, hoverflows⟩ := h
  by_cases hfull : s.cfg.maxLines = some s.nOut
  · exact .inr ⟨.capacityExceeded, s.nOut, hoverflows hfull, .inr (.inr (.inr ⟨rfl, hfull⟩))⟩
  · exact .inl ⟨[y], rfl, happends hfull⟩

/-- `get`, then `append` of what `f` makes of the entry (R138, R162). -/
theorem withEntry_dispatched (hst : 2 ≤ tagOf st) (index : Nat) (f : Bits → Bits) :
    Dispatched 1 st s (.next (withEntry (tagOf st) index s fun e => append (tagOf st) (f e) s)) := by
  rcases Nat.lt_or_ge index s.dictSize with hentry | hmissing
  · exact dispatched_of_appendsOrOverflows (withEntry_appendsOrOverflows (List.getElem?_eq_getElem hentry) f)
  · exact .inr ⟨.outOfRange, index, withEntry_raises hmissing _, .inr (.inl ⟨rfl, hst, hmissing⟩)⟩

/-- `fm_decompress` (R174), for every `k`. -/
theorem execFm_dispatched (hst : 3 ≤ tagOf st) (k offset index : Nat) :
    Dispatched 1 st s (.next (execFm k (tagOf st) offset index s)) := by
  rcases Nat.lt_or_ge s.cfg.lineW (offset + k) with hpast | hfits
  · rw [execFm_of_past hpast]
    exact dispatched_badField hst offset
  · rw [execFm_of_fits hfits]
    exact withEntry_dispatched (Nat.le_of_succ_le hst) index _

end

/-! ### The instructions with an order of checks of their own -/

/-- RLE appends all its copies, or none has a Line to copy, or one of them finds OMEM full (R167). -/
theorem exec_rle_dispatched (count : Nat) (s : State) : Dispatched (count + 1) .rle s (exec (.rle count) s) := by
  obtain ⟨hempty, hlast⟩ := rleRepeatsTheLastLine count s
  cases hy : s.mem.omem.getLast? with
  | none =>
    have hnil := List.getLast?_eq_none_iff.1 hy
    exact .inr ⟨.noPriorLine, count, hempty hnil, .inl ⟨rfl, rfl, hnil⟩⟩
  | some y =>
    obtain ⟨happends, hoverflows⟩ := hlast y hy
    by_cases hfull : ∃ i, i ≤ count ∧ s.cfg.maxLines = some (s.nOut + i)
    · obtain ⟨i, hi, hcap⟩ := hfull
      exact .inr ⟨.capacityExceeded, s.nOut + i, hoverflows i hi hcap, .inr (.inr (.inr ⟨rfl, hcap⟩))⟩
    · exact .inl ⟨_, List.length_replicate, happends fun i hi hcap => hfull ⟨i, hi, hcap⟩⟩

theorem exec_bmd_dispatched (offset : Nat) (mask : Bits) (index : Nat) (s : State) :
    Dispatched 1 .bmd s (exec (.bmd offset mask index) s) := by
  rcases Nat.lt_or_ge s.cfg.lineW (offset + s.cfg.maskW) with hpast | hfits
  · rw [exec_bmd_of_past hpast]
    exact dispatched_badField (by decide) offset
  · rw [exec_bmd_of_fits hfits]
    exact withEntry_dispatched (by decide) index _

theorem exec_pmm_dispatched (pos1 pos2 index : Nat) (s : State) :
    Dispatched 1 .pmm s (exec (.pmm pos1 pos2 index) s) := by
  rcases Nat.lt_or_ge pos1 s.cfg.lineW with h1 | h1
  · rcases Nat.lt_or_ge pos2 s.cfg.lineW with h2 | h2
    · rw [exec_pmm_of_fits h1 h2]
      exact withEntry_dispatched (by decide) index fun e => flip (flip e pos1) pos2
    · rw [exec_pmm_of_past_second h1 h2]
      exact dispatched_badField (by decide) pos2
  · rw [exec_pmm_of_past_first h1]
    exact dispatched_badField (by decide) pos1

/-! ### All instructions -/

/-- Every instruction appends its Lines and does nothing else, or raises one of its faults (R241, R242, R346). -/
theorem exec_dispatched (i : Instr) (s : State) : Dispatched (linesOf i) i.strategy s (exec i s) := by
  cases i with
  | lit line => exact dispatched_of_appendsOrOverflows (litAppendsItsLine line s)
  | rle count => exact exec_rle_dispatched count s
  | dir index => exact withEntry_dispatched (st := .dir) (by decide) index id
  | bmd offset mask index => exact exec_bmd_dispatched offset mask index s
  | fm1 offset index => exact execFm_dispatched (st := .fm1) (by decide) 1 offset index
  | fm2 offset index => exact execFm_dispatched (st := .fm2) (by decide) 2 offset index
  | fm4 offset index => exact execFm_dispatched (st := .fm4) (by decide) 4 offset index
  | pmm pos1 pos2 index => exact exec_pmm_dispatched pos1 pos2 index s

/-- Settles O20: the Lines of an instruction are `linesOf`, its faults those of `DispatchFault`. -/
theorem dispatchWritesOutputOnly : Obligations.DispatchWritesOutputOnly := exec_dispatched

end Sys2Proof.Machine

/-! PROOFS. PACK (spec/44_bitstream_packer.md, R261 to R263): the rows in order are FLAT completed with zeros to a whole
number of rows (the inference of R265), because every row but the last is full. -/

namespace Sys2Proof.Machine

/-! ### Completing with zeros, piece by piece (R263) -/

/-- Two completed pieces in a row are one completed piece, if the first is full or the second is empty. -/
theorem padTo_append_padTo {a b : Bits} {j k : Nat} (ha : a.length ≤ j) (h : a.length = j ∨ b = []) :
    padTo j a ++ padTo k b = padTo (j + k) (a ++ b) := by
  rcases h with rfl | rfl
  · simp [padTo, zeros, Nat.add_sub_add_left]
  · simp [padTo, zeros, Nat.sub_add_comm ha]

/-- The first `k` rows together are the first `k * w` digits, completed with zeros where the digits end. -/
theorem flatten_padded_slices (w : Nat) (flat : Bits) (k : Nat) :
    ((List.range k).map fun r => padTo w (slice flat (r * w) w)).flatten = padTo (k * w) (slice flat 0 (k * w)) := by
  induction k with
  | zero => simp [padTo, slice, zeros]
  | succ k ih =>
    have hfull : (slice flat 0 (k * w)).length = k * w ∨ slice flat (k * w) w = [] := by
      rcases Nat.le_total (k * w) flat.length with hin | hpast
      · exact .inl (slice_length (by omega))
      · exact .inr (by simp [slice, List.drop_of_length_le hpast])
    rw [List.range_succ, List.map_append, List.flatten_append, ih, List.map_singleton, List.flatten_singleton,
      padTo_append_padTo (by simp [slice]) hfull, slice_append_slice, Nat.succ_mul]

/-! ### As many rows as needed (R262) -/

theorem ceilDiv_bounds (n : Nat) {w : Nat} (hw : 1 ≤ w) : n ≤ ceilDiv n w * w ∧ ceilDiv n w * w < n + w := by
  have hle : ceilDiv n w * w ≤ n + w - 1 := Nat.div_mul_le_self _ _
  have hlt : n + w - 1 < ceilDiv n w * w + w := Nat.lt_div_mul_add hw
  omega

theorem rowsOf_length (w : Nat) (flat : Bits) : (rowsOf w flat).length = ceilDiv flat.length w := by
  simp [rowsOf]

/-- The rows give the digits back, followed by fewer than `w` zeros (R265). -/
theorem rowsOf_flatten {w : Nat} (flat : Bits) (hw : 1 ≤ w) :
    ∃ pad, pad < w ∧ (rowsOf w flat).flatten = flat ++ zeros pad := by
  obtain ⟨hcovers, htight⟩ := ceilDiv_bounds flat.length hw
  refine ⟨ceilDiv flat.length w * w - flat.length, by omega, ?_⟩
  have hall : slice flat 0 (ceilDiv flat.length w * w) = flat := List.take_of_length_le hcovers
  rw [rowsOf, flatten_padded_slices, hall, padTo]

/-! ### The two outcomes of PACK (R262) -/

theorem pack_of_room {s : State} {flat : Bits} (hflat : concatInstrs s.cfg s.mem.iq = flat)
    (h : withinCap s.cfg.maxRows (ceilDiv flat.length s.cfg.rowW) = true) :
    pack s = { s with phase := .emit, mem := { s.mem with flat := flat, rmem := rowsOf s.cfg.rowW flat } } := by
  subst hflat
  exact if_neg (by simp [exceeds_eq_not_within, h])

theorem pack_of_overflow {s : State} {flat : Bits} (hflat : concatInstrs s.cfg s.mem.iq = flat)
    (h : withinCap s.cfg.maxRows (ceilDiv flat.length s.cfg.rowW) = false) :
    pack s = raise .capacityExceeded flat.length 0 (ceilDiv flat.length s.cfg.rowW)
      { s with mem := { s.mem with flat := flat } } := by
  subst hflat
  exact if_pos (by simp [exceeds_eq_not_within, h])

/-- The step of phase PACK is PACK (R304). -/
theorem step_of_pack {s : State} (hp : s.phase = .pack) (hr : noReset s) : step s = .next (pack s.popTick) := by
  simp [step_of_noReset hr, phaseStep, hp]

/-- Settles O33: with room RMEM is `rowsOf` of the queue's digits, of which `rowsOf_width`,
`rowsOf_length` and `rowsOf_flatten` give the width, the number and the content. -/
theorem packCutsAndPadsRows : Obligations.PackCutsAndPadsRows := by
  intro s flat n hphase hreset hw hflat hn
  have hqueue : concatInstrs s.popTick.cfg s.popTick.mem.iq = flat := hflat.symm
  obtain rfl : n = ceilDiv flat.length s.cfg.rowW := hn
  rw [step_of_pack hphase hreset]
  constructor
  · intro hroom
    obtain ⟨pad, hpad, hrows⟩ := rowsOf_flatten flat hw
    rw [pack_of_room hqueue hroom]
    exact ⟨_, pad, rfl, rfl, rfl, rowsOf_length _ _, hpad, hrows, fun _ hr => rowsOf_width hr, rfl⟩
  · intro hover
    rw [pack_of_overflow hqueue hover]
    exact raises_raise _ _ _ _ rfl rfl

end Sys2Proof.Machine

/-! PROOFS. The bitstream unpacker (spec/45_bitstream_unpacker.md): reassembly (R281), and one turn of the walk for each
thing the unpacker can find at its cursor (R282 to R285). -/

namespace Sys2Proof.Machine

/-! ### What is not an instruction (R282 to R284) -/

/-- An illegal tag is one past the catalogue or disabled (R104). -/
theorem legalEntry_eq_none_iff {c : Cfg} {t : Nat} : legalEntry c t = none ↔ 8 ≤ t ∨ c.enabled t = false := by
  cases hen : c.enabled t with
  | false => simp [legalEntry, hen]
  | true =>
    obtain ⟨st, rfl⟩ := exists_tagOf_of_enabled hen
    have hlt : tagOf st < 8 := tagOf_lt_length st
    simp [legalEntry_tagOf hen, hlt]

section
variable {s : State}

theorem fetch_of_short_tail (h : s.nBits - s.cur < s.cfg.tagW) : fetch s = .exhausted :=
  if_pos (List.length_drop.trans_lt h)

variable (htag : s.cfg.tagW ≤ s.nBits - s.cur)
include htag

theorem fetch_of_illegal_tag (h : legalEntry s.cfg (val (slice s.mem.flat s.cur s.cfg.tagW)) = none) :
    fetch s = .unknownTag (val (slice s.mem.flat s.cur s.cfg.tagW)) (s.nBits - s.cur - s.cfg.tagW) := by
  simp only [nBits_eq, slice] at *
  simp only [fetch, decode, List.length_drop, Nat.not_lt.2 htag, h, if_false]

theorem fetch_of_short_payload {st : Strategy} (hst : val (slice s.mem.flat s.cur s.cfg.tagW) = tagOf st)
    (hen : s.cfg.enabled (tagOf st) = true) (hshort : s.nBits - s.cur - s.cfg.tagW < payloadLen s.cfg st) :
    fetch s = if tagOf st = 0 then .padding else .truncated (tagOf st) (s.nBits - s.cur - s.cfg.tagW) := by
  simp only [nBits_eq, slice] at *
  simp only [fetch, decode, List.length_drop, Nat.not_lt.2 htag, hst, legalEntry_tagOf hen, hshort, if_true, if_false]

end

/-! ### One turn of the walk, by what is found at the cursor -/

section
variable {s : State} (hp : s.phase = .decode) (hr : noReset s)
include hp hr

/-- The end of the digits and row padding end the walk alike (R282, R284). -/
theorem step_of_walk_end (h : fetch s = .exhausted ∨ fetch s = .padding) :
    step s = .next { s with inputs := s.inputs.tail, phase := .emit } := by
  have hfetch : fetch s.popTick = .exhausted ∨ fetch s.popTick = .padding := h
  rw [step_of_decode hp hr]
  rcases hfetch with hfetch | hfetch <;> rw [unpackStep, hfetch] <;> rfl

/-- An illegal tag and a truncated payload raise the same fault (R283, R284). -/
theorem step_raises_streamCorruption {tag rem : Nat}
    (h : fetch s = .unknownTag tag rem ∨ fetch s = .truncated tag rem) :
    Raises (step s) .streamCorruption ⟨s.cur, tag, rem⟩ s := by
  have hfetch : fetch s.popTick = .unknownTag tag rem ∨ fetch s.popTick = .truncated tag rem := h
  rw [step_of_decode hp hr]
  rcases hfetch with hfetch | hfetch <;> rw [unpackStep, hfetch] <;> exact raises_raise _ _ _ _ rfl rfl

/-- An instruction is executed and the cursor moved past it (R285). -/
theorem step_of_fetched_instr {i : Instr} {rest : Bits} {t : State} (h : fetch s = .instr i rest)
    (hexec : exec i s.popTick = .next t) : step s = .next (advanceCur (instrLen s.cfg i) t) := by
  have hfetch : fetch s.popTick = .instr i rest := h
  simp [step_of_decode hp hr, unpackStep, hfetch, hexec, retire]

end

/-! ### The statements about a turn -/

/-- Settles O6: the turn of a fetched instruction, with the cursor's advance written out. -/
theorem stepRunsDecodedInstr : Obligations.StepRunsDecodedInstr := fun _ _ _ _ hp hr hfetch hexec =>
  step_of_fetched_instr hp hr hfetch hexec

/-- Settles O7: nothing but the end of the digits is found there. -/
theorem walkEndsOnShortTail : Obligations.WalkEndsOnShortTail := fun _ hp hr hshort =>
  step_of_walk_end hp hr (.inl (fetch_of_short_tail hshort))

/-- Settles O8: such a tag has no catalogue entry. -/
theorem unknownTagIsStreamCorruption : Obligations.UnknownTagIsStreamCorruption := by
  rintro s _ hp hr htag rfl hillegal
  exact step_raises_streamCorruption hp hr (.inl (fetch_of_illegal_tag htag (legalEntry_eq_none_iff.2 hillegal)))

/-- Settles O9: the tag has an entry whose payload does not fit, so padding is found if it is Literal's, a truncated
instruction otherwise. -/
theorem shortPayloadIsPaddingOrCorruption : Obligations.ShortPayloadIsPaddingOrCorruption := by
  intro s t hp hr htag ht _ hen hshort
  obtain ⟨st, rfl⟩ := exists_tagOf_of_enabled hen
  rw [payloadLenAt_tagOf] at hshort
  have hfetch := fetch_of_short_payload htag ht.symm hen hshort
  constructor
  · intro hzero
    exact step_of_walk_end hp hr (.inr (hfetch.trans (if_pos hzero)))
  · intro hne
    exact step_raises_streamCorruption hp hr (.inr (hfetch.trans (if_neg hne)))

/-! ### Rows of one width in a row (R66) -/

section
variable {w : Nat} {rows : List Bits}

theorem length_flatten_of_width (h : ∀ r ∈ rows, r.length = w) : rows.flatten.length = rows.length * w := by
  rw [List.length_flatten, List.map_congr_left h, List.map_const', List.sum_replicate, smul_eq_mul]

/-- Digit `q` of the rows together is digit `q % w` of row `q / w`: a digit past the first row is digit `q - w` of the
others. -/
theorem flatten_getElem?_of_width (hw : 0 < w) (h : ∀ r ∈ rows, r.length = w) (q : Nat) :
    rows.flatten[q]? = (rows[q / w]?).bind fun r => r[q % w]? := by
  induction rows generalizing q with
  | nil => simp
  | cons r rows ih =>
    obtain ⟨hr, hrows⟩ := List.forall_mem_cons.1 h
    rw [List.flatten_cons]
    rcases Nat.lt_or_ge q w with hlt | hge
    · rw [List.getElem?_append_left (hr.symm ▸ hlt), Nat.div_eq_of_lt hlt, Nat.mod_eq_of_lt hlt]
      rfl
    · rw [List.getElem?_append_right (hr.symm ▸ hge), hr, ih hrows, Nat.div_eq_sub_div hw hge,
        Nat.mod_eq_sub_mod hge, List.getElem?_cons_succ]

end

/-! ### Reassembly (R281) -/

/-- The END beat of the listing is counted and begins the walk (R308, R281). -/
theorem step_of_listing_end {s : State} {b : Beat} (hp : s.phase = .load) (hm : s.mode = .decompress)
    (hpart : s.loadPart = .listing) (hr : noReset s) (hb : s.tick.inBeat = some b) (hk : b.kind = .fin) :
    step s = .next { enterDecode s.popTick with beatsTaken := s.beatsTaken + 1 } := by
  have hrunning : (enterDecode s.popTick).phase ≠ .fault := nofun
  simp [step_of_noReset hr, phaseStep, hp, hb, loadStep, loadBeat, hm, loadDecompress, hpart, hk,
    countBeat_of_running hrunning]

/-- Settles O10: FLAT is the rows one after the other, and they all have the width `W`. -/
theorem flatDigitsAreRowDigits : Obligations.FlatDigitsAreRowDigits := by
  intro s b hp hm hpart hr hb hk hrows
  have hlen : s.mem.rmem.flatten.length = s.nRows * s.cfg.rowW := length_flatten_of_width hrows
  refine ⟨_, step_of_listing_end hp hm hpart hr hb hk, rfl, rfl, rfl, hlen, fun q hq => ?_⟩
  have hin : q < s.nRows * s.cfg.rowW := Nat.lt_of_lt_of_eq hq hlen
  exact flatten_getElem?_of_width (Nat.pos_of_mul_pos_left (Nat.zero_lt_of_lt hin)) hrows q

end Sys2Proof.Machine

/-! PROOFS. Commands and the phase graph (spec/46_pass_control.md, R301 to R303): what START does and which row of the
configuration check it names, and where one step may lead. A step that is not a transfer of EMIT sends nothing (R312,
R314), so the graph and the output stream are read off the same case analysis (`QuietEdge`). -/

namespace Sys2Proof.Machine

/-! ### The first violated row (R303) -/

/-- A configuration that fails the check violates the row it is refused for, and none before it. -/
theorem cfgViolation_first {c : Cfg} (h : cfgValid c = false) :
    1 ≤ cfgViolation c ∧ cfgViolation c ≤ 13 ∧ ¬ CfgConstraint c (cfgViolation c)
      ∧ ∀ j, 1 ≤ j → j < cfgViolation c → CfgConstraint c j := by
  have hmem : false ∈ cfgRows c := by simpa [cfgValid] using h
  have hlt : (cfgRows c).idxOf false < (cfgRows c).length := List.idxOf_lt_length_of_mem hmem
  have hlen : (cfgRows c).length = 13 := rfl
  have hk : cfgViolation c = (cfgRows c).idxOf false + 1 := rfl
  refine ⟨by omega, by omega, ?_, fun j h1 hj => ?_⟩
  · rw [← cfgRows_getElem?_iff c (by omega) (by omega), hk, Nat.add_sub_cancel, List.getElem?_eq_getElem hlt,
      List.getElem_idxOf]
    simp
  · have hbefore : j - 1 < (cfgRows c).idxOf false := by omega
    rw [← cfgRows_getElem?_iff c h1 (by omega), List.getElem?_eq_getElem (hbefore.trans hlt)]
    simpa using List.not_of_lt_findIdx hbefore

/-! ### START (R301, R303) -/

/-- The assignments of R301, all at once. -/
def beginPass (m : Mode) (c : Cfg) (s : State) : State :=
  { s with
    cfg := c, mode := m, mem := Memory.empty, pos := 0, cur := 0, rleValid := false, bestValid := false
    faultCode := .none, faultInfo := ⟨0, 0, 0⟩, loadPart := .rows, beatsTaken := 0, emitted := 0, phase := .load }

theorem start_of_valid {c : Cfg} (h : cfgValid c = true) (m : Mode) (s : State) : start m c s = beginPass m c s :=
  if_pos h

/-- A refused START has done the assignments of R301 before it faults (log 15). -/
theorem start_of_invalid {c : Cfg} (h : cfgValid c = false) (m : Mode) (s : State) :
    start m c s = raise .invalidConfig 0 0 (cfgViolation c) (beginPass m c s) :=
  if_neg (by simp [h])

/-- The step of IDLE or DONE with START on the command port accepts it (R301). -/
theorem step_of_start {s : State} {m : Mode} {c : Cfg} (hp : s.phase = .idle ∨ s.phase = .done) (hr : noReset s)
    (hc : s.tick.cmd = some (.start m c)) : step s = .next (start m c s.popTick) := by
  rcases hp with hp | hp <;> simp [step_of_noReset hr, phaseStep, hp, hc, command]

/-- Settles O35: with a valid configuration START makes the assignments of R301 and nothing else. -/
theorem startBeginsAPass : Obligations.StartBeginsAPass := by
  intro s m c hp hr hc hvalid
  rw [step_of_start hp hr hc, start_of_valid hvalid]
  rfl

/-- Settles O36: START faults for the first row that does not hold. -/
theorem startWithBadCfgFaults : Obligations.StartWithBadCfgFaults := by
  intro s m c hp hr hc hinvalid
  refine ⟨cfgViolation c, ?_, cfgViolation_first hinvalid⟩
  rw [step_of_start hp hr hc, start_of_invalid hinvalid]
  exact raises_raise _ _ _ _ rfl rfl

/-! ### Steps that send nothing (R302, R312) -/

/-- From `s` to `t` the phase goes along an edge of the phase graph (R302), and nothing is sent. -/
def QuietEdge (s t : State) : Prop := phaseEdge s.mode s.phase t.phase = true ∧ t.sent = s.sent

/-- Fault entry sends nothing (R340). -/
theorem quietEdge_raise {k : FaultKind} {loc tag aux : Nat} {s u : State} (hsent : u.sent = s.sent)
    (h : phaseEdge s.mode s.phase .fault = true) : QuietEdge s (raise k loc tag aux u) :=
  ⟨h, hsent⟩

@[simp] theorem countBeat_phase (s : State) : (countBeat s).phase = s.phase := by
  unfold countBeat
  split <;> rfl

@[simp] theorem countBeat_sent (s : State) : (countBeat s).sent = s.sent := by
  unfold countBeat
  split <;> rfl

/-- Counting the beat is no part of what the phase graph speaks of. -/
theorem QuietEdge.countBeat {s t : State} (h : QuietEdge s t) : QuietEdge s (countBeat t) := by
  simpa [QuietEdge] using h

theorem start_phase_sent (m : Mode) (c : Cfg) (s : State) :
    ((start m c s).phase = .load ∨ (start m c s).phase = .fault) ∧ (start m c s).sent = s.sent := by
  cases hc : cfgValid c with
  | true => rw [start_of_valid hc]; exact ⟨.inl rfl, rfl⟩
  | false => rw [start_of_invalid hc]; exact ⟨.inr rfl, rfl⟩

/-- START leaves IDLE and DONE, CLEAR leaves DONE and FAULT (R301, R302, R372). -/
theorem command_quietEdge (cmd : Option Command) {s : State}
    (hp : s.phase = .idle ∨ s.phase = .done ∨ s.phase = .fault) : QuietEdge s (command cmd s) := by
  have hstay : QuietEdge s s := ⟨by rcases hp with hp | hp | hp <;> rw [hp] <;> rfl, rfl⟩
  unfold command
  split
  · exact hstay
  · rename_i m c
    split
    · exact hstay
    · rename_i hnf
      obtain ⟨hphase, hsent⟩ := start_phase_sent m c s
      refine ⟨?_, hsent⟩
      rcases hp with hp | hp | hp
      case inr.inr => exact absurd hp hnf
      all_goals rcases hphase with h | h <;> rw [hp, h] <;> rfl
  · split
    · exact hstay
    · rename_i hni
      refine ⟨?_, rfl⟩
      rcases hp with hp | hp | hp
      case inl => exact absurd hp hni
      all_goals rw [hp]; rfl

section
variable {s : State} (hp : s.phase = .load)
include hp

theorem quietEdge_raise_of_load (k : FaultKind) (loc tag aux : Nat) : QuietEdge s (raise k loc tag aux s) :=
  quietEdge_raise rfl (by rw [hp]; rfl)

/-- A beat taken without a fault leaves LOAD as it is. -/
theorem quietEdge_of_load_stays {t : State} (ht : t.phase = s.phase) (hsent : t.sent = s.sent) : QuietEdge s t :=
  ⟨by rw [ht, hp]; rfl, hsent⟩

theorem loadCompress_quietEdge (hm : s.mode = .compress) (b : Beat) : QuietEdge s (loadCompress b s) := by
  unfold loadCompress
  split
  · split
    · exact quietEdge_raise_of_load hp _ _ _ _
    · exact quietEdge_of_load_stays hp rfl rfl
  · exact ⟨by rw [hp, hm]; rfl, rfl⟩
  all_goals exact quietEdge_raise_of_load hp _ _ _ _

theorem loadEntry_quietEdge (x : Bits) : QuietEdge s (loadEntry x s) := by
  unfold loadEntry
  split
  · exact quietEdge_raise_of_load hp _ _ _ _
  · exact quietEdge_of_load_stays hp rfl rfl

theorem loadDecompress_quietEdge (hm : s.mode = .decompress) (b : Beat) : QuietEdge s (loadDecompress b s) := by
  unfold loadDecompress
  split
  · split
    · exact quietEdge_raise_of_load hp _ _ _ _
    · exact quietEdge_of_load_stays hp rfl rfl
  · exact quietEdge_of_load_stays hp rfl rfl
  · exact loadEntry_quietEdge hp _
  · exact ⟨by rw [hp, hm]; rfl, rfl⟩
  all_goals exact quietEdge_raise_of_load hp _ _ _ _

theorem loadStep_quietEdge (ob : Option Beat) : QuietEdge s (loadStep ob s) := by
  cases ob with
  | none => exact quietEdge_of_load_stays hp rfl rfl
  | some b =>
    cases hm : s.mode with
    | compress => simpa only [loadStep, loadBeat, hm] using (loadCompress_quietEdge hp hm b).countBeat
    | decompress => simpa only [loadStep, loadBeat, hm] using (loadDecompress_quietEdge hp hm b).countBeat

end

theorem SameButSelector.phase {s t : State} (h : SameButSelector s t) : t.phase = s.phase := by rw [h]
theorem SameButSelector.sent {s t : State} (h : SameButSelector s t) : t.sent = s.sent := by rw [h]

theorem encodeStep_quietEdge {s t : State} (hp : s.phase = .encode) (h : encodeStep s = .next t) : QuietEdge s t := by
  have hselect := select_sameButSelector s
  unfold encodeStep at h
  split at h
  · split at h <;> cases h
    unfold emitBest
    split
    · exact quietEdge_raise hselect.sent (by rw [hp]; rfl)
    · exact ⟨by rw [hselect.phase, hp]; rfl, hselect.sent⟩
  · cases h
    exact ⟨by rw [hp]; rfl, rfl⟩

theorem pack_quietEdge {s : State} (hp : s.phase = .pack) : QuietEdge s (pack s) := by
  cases hroom : withinCap s.cfg.maxRows (ceilDiv (concatInstrs s.cfg s.mem.iq).length s.cfg.rowW) with
  | true => rw [pack_of_room rfl hroom]; exact ⟨by rw [hp]; rfl, rfl⟩
  | false => rw [pack_of_overflow rfl hroom]; exact quietEdge_raise rfl (by rw [hp]; rfl)

@[simp] theorem advanceCur_phase (len : Nat) (s : State) : (advanceCur len s).phase = s.phase := by
  unfold advanceCur
  split <;> rfl

@[simp] theorem advanceCur_sent (len : Nat) (s : State) : (advanceCur len s).sent = s.sent := by
  unfold advanceCur
  split <;> rfl

theorem unpackStep_quietEdge {s t : State} (hp : s.phase = .decode) (h : unpackStep s = .next t) :
    QuietEdge s t := by
  rcases unpackStep_cases s with h' | ⟨tag, rem, h'⟩ | ⟨i, rest, u, -, -, hu, h'⟩ <;> cases h'.symm.trans h
  · exact ⟨by rw [hp]; rfl, rfl⟩
  · exact quietEdge_raise rfl (by rw [hp]; rfl)
  · rw [QuietEdge, advanceCur_phase, advanceCur_sent]
    rcases hu with ⟨ys, rfl, -⟩ | ⟨k, tag, aux, ys, -, rfl⟩
    · exact ⟨by rw [putOut_phase, hp]; rfl, rfl⟩
    · exact ⟨by rw [raise_phase, hp]; rfl, rfl⟩

/-! ### EMIT (R312, R313) -/

/-- The next beat `b` is transferred: it is sent and counted, and the pass is done after END (R313). -/
def sendBeat (b : Beat) (s : State) : State :=
  { s with sent := s.sent ++ [b], emitted := s.emitted + 1, phase := if b.kind = .fin then .done else .emit }

theorem emitStep_of_ready {s : State} {b : Beat} (h : outBeat s = some b) : emitStep true s = sendBeat b s := by
  simp only [emitStep, h, sendBeat]

/-- A host that is not ready takes nothing. -/
theorem emitStep_of_not_ready (s : State) : emitStep false s = s := rfl

/-- EMIT holds its beat, or sends it to a ready host. -/
theorem emitStep_cases (ready : Bool) (s : State) :
    emitStep ready s = s ∨ ∃ b, ready = true ∧ outBeat s = some b ∧ emitStep ready s = sendBeat b s := by
  cases ready with
  | false => exact .inl (emitStep_of_not_ready s)
  | true =>
    cases h : outBeat s with
    | none => exact .inl (by simp only [emitStep, h])
    | some b => exact .inr ⟨b, rfl, rfl, emitStep_of_ready h⟩

theorem sendBeat_phase (b : Beat) (s : State) :
    (sendBeat b s).phase = .emit ∨ (sendBeat b s).phase = .done := by
  by_cases hk : b.kind = .fin
  · exact .inr (if_pos hk)
  · exact .inl (if_neg hk)

/-! ### Where a step leads (R302) -/

/-- A step without a reset goes along an edge of the phase graph and sends nothing, or it is a transfer of EMIT. -/
theorem phaseStep_cases {tk : Tick} {s t : State} (h : phaseStep tk s = .next t) :
    QuietEdge s t ∨ (s.phase = .emit ∧ tk.outReady = true ∧ ∃ b, outBeat s = some b ∧ t = sendBeat b s) := by
  cases hp : s.phase <;> simp only [phaseStep, hp, Host.Outcome.next.injEq] at h
  case idle | done | fault => subst h; exact .inl (command_quietEdge _ (by simp [hp]))
  case load => subst h; exact .inl (loadStep_quietEdge hp _)
  case build => subst h; exact .inl ⟨by rw [hp]; rfl, rfl⟩
  case encode => exact .inl (encodeStep_quietEdge hp h)
  case pack => subst h; exact .inl (pack_quietEdge hp)
  case decode => exact .inl (unpackStep_quietEdge hp h)
  case emit =>
    subst h
    rcases emitStep_cases tk.outReady s with hs | ⟨b, hready, hb, hs⟩ <;> rw [hs]
    · exact .inl ⟨by rw [hp]; rfl, rfl⟩
    · exact .inr ⟨rfl, hready, b, hb, rfl⟩

/-- Settles O43: a transfer of EMIT goes to EMIT or DONE, every other step along its own edge. -/
theorem stepsFollowThePhaseGraph : Obligations.StepsFollowThePhaseGraph := by
  intro s t hr h
  rw [step_of_noReset hr] at h
  rcases phaseStep_cases h with hquiet | ⟨hp, -, b, -, rfl⟩
  · exact hquiet.1
  · have hemit : s.phase = .emit := hp
    rw [hemit]
    rcases sendBeat_phase b s.popTick with hk | hk <;> rw [hk] <;> rfl

/-- Settles O47: a reset sends nothing, nor does any step but a transfer of EMIT. -/
theorem nothingIsSentOutsideEmit : Obligations.NothingIsSentOutsideEmit := by
  intro s t h
  cases hr : s.tick.rst with
  | true =>
    rw [step, if_pos hr] at h
    cases h
    exact .inl rfl
  | false =>
    rw [step_of_noReset hr] at h
    rcases phaseStep_cases h with hquiet | ⟨hp, hready, b, hb, rfl⟩
    · exact .inl hquiet.2
    · have hnf : (sendBeat b s.popTick).phase ≠ .fault := by
        rcases sendBeat_phase b s.popTick with hk | hk <;> rw [hk] <;> decide
      exact .inr ⟨hp, hready, rfl, hnf, b, hb, rfl⟩

end Sys2Proof.Machine

/-! PROOFS. The streams and the status port (spec/46_pass_control.md, R305, R308, R311 to R315): one beat of LOAD by its
kind, the whole of EMIT, the handshake, and the levels the host reads. -/

namespace Sys2Proof.Machine

/-! ### A beat of LOAD (R305, R308) -/

section
variable {s : State} {b : Beat} (hp : s.phase = .load) (hr : noReset s) (hb : s.tick.inBeat = some b)
include hp hr hb

theorem step_of_compress_beat (hm : s.mode = .compress) : step s = .next (countBeat (loadCompress b s.popTick)) := by
  simp [step_of_noReset hr, phaseStep, hp, hb, loadStep, loadBeat, hm]

theorem step_of_decompress_beat (hm : s.mode = .decompress) :
    step s = .next (countBeat (loadDecompress b s.popTick)) := by
  simp [step_of_noReset hr, phaseStep, hp, hb, loadStep, loadBeat, hm]

end

/-- A beat that faults is not counted (R305, R308). -/
theorem raises_countBeat_raise (k : FaultKind) (loc tag aux : Nat) (s : State) :
    Raises (.next (countBeat (raise k loc tag aux s.popTick))) k ⟨loc, tag, aux⟩ s := by
  rw [countBeat_of_fault rfl]
  exact raises_raise _ _ _ _ rfl rfl

section
variable {s : State} {b : Beat}

theorem loadCompress_line_of_room (hk : b.kind = .line) (hroom : s.cfg.maxLines ≠ some s.nLines) :
    loadCompress b s = { s with mem := { s.mem with lmem := s.mem.lmem ++ [busElement s.cfg.lineW b.data] } } := by
  simp only [loadCompress, hk]
  exact if_neg ((atCapacity_iff _ _).not.2 hroom)

theorem loadCompress_line_of_full (hk : b.kind = .line) (hfull : s.cfg.maxLines = some s.nLines) :
    loadCompress b s = raise .capacityExceeded s.nLines 0 0 s := by
  simp only [loadCompress, hk]
  exact if_pos ((atCapacity_iff _ _).2 hfull)

theorem loadCompress_fin (hk : b.kind = .fin) : loadCompress b s = { s with phase := .build } := by
  simp only [loadCompress, hk]

theorem loadCompress_badFraming (hk : b.kind = .row ∨ b.kind = .sep ∨ b.kind = .dict) :
    loadCompress b s = badFraming b s := by
  rcases hk with hk | hk | hk <;> simp only [loadCompress, hk]

theorem loadDecompress_row_of_room (hpart : s.loadPart = .rows) (hk : b.kind = .row)
    (hroom : s.cfg.maxRows ≠ some s.nRows) : loadDecompress b s
      = { s with mem := { s.mem with rmem := s.mem.rmem ++ [busElement s.cfg.rowW b.data] } } := by
  simp only [loadDecompress, hpart, hk]
  exact if_neg ((atCapacity_iff _ _).not.2 hroom)

theorem loadDecompress_row_of_full (hpart : s.loadPart = .rows) (hk : b.kind = .row)
    (hfull : s.cfg.maxRows = some s.nRows) : loadDecompress b s = raise .capacityExceeded s.nRows 0 1 s := by
  simp only [loadDecompress, hpart, hk]
  exact if_pos ((atCapacity_iff _ _).2 hfull)

theorem loadDecompress_sep (hpart : s.loadPart = .rows) (hk : b.kind = .sep) :
    loadDecompress b s = { s with loadPart := .listing } := by
  simp only [loadDecompress, hpart, hk]

theorem loadDecompress_dict (hpart : s.loadPart = .listing) (hk : b.kind = .dict) :
    loadDecompress b s = loadEntry (busElement s.cfg.lineW b.data) s := by
  simp only [loadDecompress, hpart, hk]

theorem loadEntry_of_room {x : Bits} (h : s.dictSize ≠ s.cfg.dictCap) :
    loadEntry x s = { s with mem := { s.mem with dmem := s.mem.dmem ++ [x] } } :=
  if_neg h

theorem loadEntry_of_full {x : Bits} (h : s.dictSize = s.cfg.dictCap) :
    loadEntry x s = raise .invalidConfig s.dictSize 0 0 s :=
  if_pos h

/-- The kinds that R308 allows in neither place. -/
theorem loadDecompress_badFraming
    (hk : (s.loadPart = .rows ∧ (b.kind = .line ∨ b.kind = .dict ∨ b.kind = .fin))
      ∨ (s.loadPart = .listing ∧ (b.kind = .line ∨ b.kind = .row ∨ b.kind = .sep))) :
    loadDecompress b s = badFraming b s := by
  rcases hk with ⟨hpart, hk | hk | hk⟩ | ⟨hpart, hk | hk | hk⟩ <;> simp only [loadDecompress, hpart, hk]

end

/-- Settles O44: the arms of the loop of R305. -/
theorem compressLoadTakesLines : Obligations.CompressLoadTakesLines := by
  intro s b hp hm hr hb
  have hrunning : s.popTick.phase ≠ .fault := by simp [hp]
  rw [step_of_compress_beat hp hr hb hm]
  refine ⟨fun hk hroom => ?_, fun hk hfull => ?_, fun hk => ?_, fun hk => ?_⟩
  · rw [loadCompress_line_of_room (s := s.popTick) hk hroom]
    exact congrArg _ (countBeat_of_running hrunning)
  · rw [loadCompress_line_of_full (s := s.popTick) hk hfull]
    exact raises_countBeat_raise ..
  · rw [loadCompress_fin hk]
    exact congrArg _ (countBeat_of_running nofun)
  · rw [loadCompress_badFraming hk]
    exact raises_countBeat_raise ..

/-- Settles O45: the arms of the loop of R308, with the lookup's LOAD step (R136) and the reassembly of END (R281). -/
theorem decompressLoadTakesRowsThenListing : Obligations.DecompressLoadTakesRowsThenListing := by
  intro s b hp hm hr hb
  have hrunning : s.popTick.phase ≠ .fault := by simp [hp]
  have hstep := step_of_decompress_beat hp hr hb hm
  refine ⟨fun hpart hk hroom => ?_, fun hpart hk hfull => ?_, fun hpart hk => ?_, fun hpart hk hroom => ?_,
    fun hpart hk hfull => ?_, fun hpart hk => step_of_listing_end hp hm hpart hr hb hk, fun hk => ?_⟩
  · rw [hstep, loadDecompress_row_of_room (s := s.popTick) hpart hk hroom]
    exact congrArg _ (countBeat_of_running hrunning)
  · rw [hstep, loadDecompress_row_of_full (s := s.popTick) hpart hk hfull]
    exact raises_countBeat_raise ..
  · rw [hstep, loadDecompress_sep (s := s.popTick) hpart hk]
    exact congrArg _ (countBeat_of_running hrunning)
  · rw [hstep, loadDecompress_dict (s := s.popTick) hpart hk, loadEntry_of_room (s := s.popTick) hroom]
    exact congrArg _ (countBeat_of_running hrunning)
  · rw [hstep, loadDecompress_dict (s := s.popTick) hpart hk, loadEntry_of_full (s := s.popTick) hfull]
    exact raises_countBeat_raise ..
  · rw [hstep, loadDecompress_badFraming (s := s.popTick) hk]
    exact raises_countBeat_raise ..

/-! ### The whole of EMIT (R313) -/

/-- END closes the output and occurs nowhere else in it (R313). -/
theorem outputBeats_fin_last (s : State) :
    ∃ body, outputBeats s = body ++ [busBeat s.cfg .fin []] ∧ ∀ b ∈ body, b.kind ≠ .fin := by
  cases hm : s.mode with
  | compress =>
    refine ⟨s.mem.rmem.map (busBeat s.cfg .row) ++ [busBeat s.cfg .sep []] ++ s.mem.dmem.map (busBeat s.cfg .dict),
      by simp only [outputBeats, hm], fun b hb => ?_⟩
    simp only [List.mem_append, List.mem_map, List.mem_singleton] at hb
    obtain (⟨x, -, rfl⟩ | rfl) | ⟨x, -, rfl⟩ := hb <;> exact nofun
  | decompress =>
    refine ⟨s.mem.omem.map (busBeat s.cfg .line), by simp only [outputBeats, hm], fun b hb => ?_⟩
    obtain ⟨x, -, rfl⟩ := List.mem_map.1 hb
    exact nofun

/-- A beat of the output is END exactly when none follows it. -/
theorem kind_eq_fin_iff_last {s : State} {pre rest : List Beat} {b : Beat} (h : outputBeats s = pre ++ b :: rest) :
    b.kind = .fin ↔ rest = [] := by
  obtain ⟨body, hbody, hkinds⟩ := outputBeats_fin_last s
  rw [hbody] at h
  rcases List.eq_nil_or_concat' rest with rfl | ⟨mid, last, rfl⟩
  · obtain ⟨-, hlast⟩ := List.append_inj' h rfl
    cases hlast
    exact iff_of_true rfl rfl
  · have hsplit : body ++ [busBeat s.cfg .fin []] = (pre ++ b :: mid) ++ [last] := by simpa using h
    obtain ⟨rfl, -⟩ := List.append_inj' hsplit rfl
    exact iff_of_false (hkinds b (by simp)) (by simp)

/-- The step of EMIT at a ready host transfers the next beat (R312). -/
theorem step_of_emit_ready {s : State} {b : Beat} (hp : s.phase = .emit) (hr : noReset s)
    (hready : s.tick.outReady = true) (hb : outBeat s = some b) : step s = .next (sendBeat b s.popTick) := by
  have hb' : outBeat s.popTick = some b := hb
  simp [step_of_noReset hr, phaseStep, hp, hready, emitStep_of_ready hb']

/-- From the point of EMIT where the beats `rest` are left, a host that takes every beat gets them in order, and the
pass is done with the last. -/
theorem run_emit {rest : List Beat} (hne : rest ≠ []) {s : State} {pre : List Beat} (hp : s.phase = .emit)
    (hout : outputBeats s = pre ++ rest) (hpre : s.emitted = pre.length)
    (hin : s.inputs = List.replicate rest.length { outReady := true }) :
    Sys2Proof.core.run rest.length s = .next { s with
      sent := s.sent ++ rest, emitted := s.emitted + rest.length, inputs := [], phase := .done } := by
  induction rest generalizing s pre with
  | nil => exact absurd rfl hne
  | cons b rest ih =>
    rw [List.length_cons, List.replicate_succ] at hin
    have htick := tick_cons s _ _ hin
    have hb : outBeat s = some b := by rw [outBeat, if_pos hp, hout, hpre]; simp
    have hstep := step_of_emit_ready hp (by rw [noReset, htick]) (by rw [htick]) hb
    have hkind := kind_eq_fin_iff_last hout
    rw [List.length_cons, run_of_step hstep]
    rcases eq_or_ne rest [] with rfl | hrest
    · simp [Host.Core.run, sendBeat, State.popTick, hkind.2 rfl, hin]
    · rw [ih hrest (pre := pre ++ [b]) (if_neg (hkind.not.2 hrest)) (by rw [List.append_assoc]; exact hout)
        (by simp [sendBeat, hpre]) (by simp [sendBeat, hin])]
      simp [sendBeat, State.popTick, Nat.add_assoc, Nat.add_comm 1]

/-- Settles O48: the output of a pass is the artifact after COMPRESS and the Lines after DECOMPRESS, and from its start
all of it is left. -/
theorem emitSendsTheWholeResult : Obligations.EmitSendsTheWholeResult := by
  intro s out hp hzero hcompress hdecompress hin
  have hout : outputBeats s = out := by
    cases hm : s.mode with
    | compress => simp only [outputBeats, hm, hcompress hm, artifactBeats]
    | decompress => simp only [outputBeats, hm, hdecompress hm, lineBeats]
  rw [run_emit (pre := []) (hout ▸ outputBeats_ne_nil s) hp hout hzero hin, hzero, Nat.zero_add]

/-! ### The handshake (R312) -/

/-- One step, with the tick of this step and the ticks after it named. -/
theorem step_of_inputs {s : State} {tk : Tick} {ts : List Tick} (h : s.inputs = tk :: ts) :
    step s = if tk.rst then .next (initialised { s with inputs := ts }) else phaseStep tk { s with inputs := ts } := by
  simp only [step, tick_cons s tk ts h, State.popTick, h, List.tail_cons]

/-- The input stream matters only in LOAD. -/
theorem phaseStep_inBeat {s : State} (hp : s.phase ≠ .load) (tk : Tick) (ob : Option Beat) :
    phaseStep { tk with inBeat := ob } s = phaseStep tk s := by
  cases h : s.phase
  case load => exact absurd h hp
  all_goals simp only [phaseStep, h]

/-- `out_ready` matters only in EMIT. -/
theorem phaseStep_outReady {s : State} (hp : s.phase ≠ .emit) (tk : Tick) (ready : Bool) :
    phaseStep { tk with outReady := ready } s = phaseStep tk s := by
  cases h : s.phase
  case emit => exact absurd h hp
  all_goals simp only [phaseStep, h]

/-- A step is the same for two ticks that agree on `rst` and between which the phase's work makes no difference. -/
theorem step_congr_tick {s : State} {tk tk' : Tick} {ts : List Tick} (h : s.inputs = tk :: ts) (hrst : tk'.rst = tk.rst)
    (hphase : ∀ u : State, u.phase = s.phase → phaseStep tk' u = phaseStep tk u) :
    step { s with inputs := tk' :: ts } = step s := by
  rw [step_of_inputs h, ← hrst, ← hphase { s with inputs := ts } rfl]
  rfl

theorem step_inBeat {s : State} {tk : Tick} {ts : List Tick} (h : s.inputs = tk :: ts) (hp : s.phase ≠ .load)
    (ob : Option Beat) : step { s with inputs := { tk with inBeat := ob } :: ts } = step s :=
  step_congr_tick h rfl fun _ hu => phaseStep_inBeat (hu ▸ hp) tk ob

theorem step_outReady {s : State} {tk : Tick} {ts : List Tick} (h : s.inputs = tk :: ts) (hp : s.phase ≠ .emit)
    (ready : Bool) : step { s with inputs := { tk with outReady := ready } :: ts } = step s :=
  step_congr_tick h rfl fun _ hu => phaseStep_outReady (hu ▸ hp) tk ready

/-- Settles O46: each port is read in its own phase only, and there a side that is not ready moves nothing. -/
theorem beatsMoveOnlyWhenReady : Obligations.BeatsMoveOnlyWhenReady := by
  intro s tk ts h
  refine ⟨fun b hp => step_inBeat h hp b, fun r hp => step_outReady h hp r, fun hp hr hready => ⟨?_, rfl⟩,
    fun hp hr hb => ?_⟩
  · simp [step_of_inputs h, hr, phaseStep, hp, hready, emitStep_of_not_ready]
  · simp [step_of_inputs h, hr, phaseStep, hp, hb, loadStep]

/-! ### The levels and the data of the ports (R311, R315) -/

/-- Settles O56: the levels are functions of the phase, and a reset leads to IDLE. -/
theorem portLevelsFollowThePhase : Obligations.PortLevelsFollowThePhase := by
  intro s
  have hready : inReady s = true ↔ s.phase = .load := decide_eq_true_iff
  refine ⟨hready, fun hp => if_neg hp, fun hp => if_pos hp, fun tk ts b h hlow => ?_, fun hr => ?_⟩
  · exact step_inBeat h (fun hp => by simp [hready.2 hp] at hlow) b
  · exact ⟨initialised s.popTick, if_pos hr, rfl, rfl⟩

/-- Settles O49: the port is a view of the registers and of the lengths of the memories. -/
theorem statusPortShowsTheState : Obligations.StatusPortShowsTheState := fun _ =>
  ⟨rfl, rfl, rfl, rfl, rfl, decide_eq_true_iff, decide_eq_true_iff⟩

/-- The digits after an element completed with zeros are 0 (R263, R311). -/
theorem padTo_getElem?_of_ge {k i : Nat} {ds : Bits} (hi : ds.length ≤ i) (hk : i < k) :
    (padTo k ds)[i]? = some false := by
  rw [padTo, List.getElem?_append_right hi, zeros, List.getElem?_replicate, if_pos (by omega)]

/-- A bus word that carries the whole element is cut to it. -/
theorem busElement_of_le {k : Nat} {word : Bits} (h : k ≤ word.length) : busElement k word = word.take k := by
  rw [busElement, padTo, List.take_append_of_le_length h]

/-- Settles O50: input is cut to its first digits, output is completed with zeros. -/
theorem busCarriesTheElementLeftmost : Obligations.BusCarriesTheElementLeftmost := by
  intro c k kind word elem
  refine ⟨busElement_of_le, fun hfits => ⟨rfl, ?_, List.take_left, fun i => padTo_getElem?_of_ge⟩⟩
  exact (padTo_length _ _).trans (Nat.max_eq_left hfits)

end Sys2Proof.Machine

/-! PROOFS. The phases without a pass, reset and the codes (spec/46_pass_control.md, R300 to R302, R311;
spec/60_exceptions.md, R331, R342, R351; spec/70_reset_and_hazards.md, R370, R372, R383): what a command does in IDLE, DONE
and FAULT, and that a running pass does not read the command port. -/

namespace Sys2Proof.Machine

/-! ### Commands outside a pass (R301, R302, R372) -/

section
variable {s : State} (hp : running s.phase = false) (hr : noReset s)
include hp hr

/-- The step of IDLE, DONE and FAULT is the command on the port. -/
theorem step_of_not_running : step s = .next (command s.tick.cmd s.popTick) := by
  rw [step_of_noReset hr]
  cases h : s.phase
  case idle | done | fault => simp only [phaseStep, popTick_phase, h]
  all_goals rw [h] at hp; cases hp

end

theorem command_none (s : State) : command none s = s := rfl

/-- CLEAR has no effect in IDLE (R302). -/
theorem command_clear_of_idle {s : State} (hp : s.phase = .idle) : command (some .clear) s = s := if_pos hp

theorem command_clear_of_not_idle {s : State} (hp : s.phase ≠ .idle) : command (some .clear) s = initialised s :=
  if_neg hp

/-- START is ignored in FAULT (R301). -/
theorem command_start_of_fault {s : State} (hp : s.phase = .fault) (m : Mode) (c : Cfg) :
    command (some (.start m c)) s = s :=
  if_pos hp

/-- The commands that FAULT takes: only CLEAR changes anything. -/
theorem command_of_fault {s : State} (hp : s.phase = .fault) (cmd : Option Command) :
    command cmd s = s ∨ (cmd = some .clear ∧ command cmd s = initialised s) := by
  rcases cmd with _ | ⟨m, c⟩ | _
  · exact .inl (command_none s)
  · exact .inl (command_start_of_fault hp m c)
  · exact .inr ⟨rfl, command_clear_of_not_idle (by simp [hp])⟩

/-- Settles O41: no command is on the port. -/
theorem nothingHappensWithoutACommand : Obligations.NothingHappensWithoutACommand := by
  intro s hp hr hcmd
  rw [step_of_not_running hp hr, hcmd, command_none]
  rfl

/-- Settles O38: the effects of CLEAR by the phase, and of START in FAULT. -/
theorem clearReinitialises : Obligations.ClearReinitialises := by
  intro s hr
  refine ⟨fun hp hcmd => ?_, fun hp hcmd => ?_, fun hp m c hcmd => ?_⟩
  · have hrun : running s.phase = false := by rcases hp with hp | hp <;> rw [hp] <;> rfl
    have hidle : s.popTick.phase ≠ .idle := by rcases hp with hp | hp <;> rw [popTick_phase, hp] <;> decide
    rw [step_of_not_running hrun hr, hcmd, command_clear_of_not_idle hidle]
    rfl
  · rw [step_of_not_running (by rw [hp]; rfl) hr, hcmd, command_clear_of_idle (s := s.popTick) hp]
    rfl
  · rw [step_of_not_running (by rw [hp]; rfl) hr, hcmd, command_start_of_fault (s := s.popTick) hp]
    rfl

/-! ### Reset (R370) and the way out of FAULT (R342) -/

theorem step_of_reset {s : State} (hr : s.tick.rst = true) : step s = .next (initialised s.popTick) := if_pos hr

/-- Settles O39: a sampled reset wins over the phase's work. -/
theorem resetAbandonsThePass : Obligations.ResetAbandonsThePass := fun _ hr => step_of_reset hr

/-- Settles O42: reset and CLEAR initialise the block, and every other step of FAULT stays there. -/
theorem faultIsLeftOnlyByClearOrReset : Obligations.FaultIsLeftOnlyByClearOrReset := by
  intro s t hp h hne
  by_cases hr : s.tick.rst = true
  · cases (step_of_reset hr).symm.trans h
    exact ⟨.inl hr, rfl, rfl, rfl⟩
  · cases (step_of_not_running (by rw [hp]; rfl) (by simpa [noReset] using hr)).symm.trans h
    rcases command_of_fault (s := s.popTick) hp s.tick.cmd with hstay | ⟨hcmd, hclear⟩
    · rw [hstay] at hne
      exact absurd hp hne
    · rw [hclear]
      exact ⟨.inr hcmd, rfl, rfl, rfl⟩

/-! ### The command port during a pass (R383) -/

/-- The phases of a running pass do not read the command port. -/
theorem phaseStep_cmd {s : State} (hp : running s.phase = true) (tk : Tick) (cmd : Option Command) :
    phaseStep { tk with cmd := cmd } s = phaseStep tk s := by
  cases h : s.phase
  case idle | done | fault => rw [h] at hp; cases hp
  all_goals simp only [phaseStep, h]

/-- Settles O37: two ticks that differ in the command only. -/
theorem commandsIgnoredDuringAPass : Obligations.CommandsIgnoredDuringAPass := fun _ tk _ cmd h hp =>
  step_congr_tick h rfl fun _ hu => phaseStep_cmd (hu ▸ hp) tk cmd

/-! ### Codes (R311, R331) and words (R90) -/

/-- Settles O55: the codes in the order of R331 and of R311. -/
theorem faultAndKindCodes : Obligations.FaultAndKindCodes :=
  ⟨⟨rfl, rfl, rfl, rfl, rfl, rfl, rfl, rfl, rfl⟩, rfl, rfl, rfl, rfl, rfl⟩

/-- Settles O5: each word is the encoding in `SMALL` of the instruction it stands for, so it decodes to it (R90). -/
theorem writtenWordsDecode : Obligations.WrittenWordsDecode :=
  ⟨decodeOfEncode Cfg.small (.dir 0) [] rfl, decodeOfEncode Cfg.small (.rle 1) [] rfl,
    decodeOfEncode Cfg.small (.bmd 5 [true, false, true, false] 0) [] rfl,
    decodeOfEncode Cfg.small (.fm1 15 0) [] rfl, decodeOfEncode Cfg.small (.pmm 2 13 0) [] rfl⟩

end Sys2Proof.Machine

/-! PROOFS. The end of the unpacker's walk (spec/45_bitstream_unpacker.md): row padding is no instruction (R286), and a valid
configuration has no instruction of fewer than two digits, so the cursor runs out of digits (R288). -/

namespace Sys2Proof.Machine

/-! ### Row padding (R286) -/

/-- Zero digits fewer than a tag and a Line are the end of the digits or padding: their tag is Literal's, and its payload does
not fit (R282, R284). -/
theorem decode_zeros {c : Cfg} {pad : Nat} (hlit : c.enabled 0 = true) (hpad : pad < c.tagW + c.lineW) :
    decode c (zeros pad) = .exhausted ∨ decode c (zeros pad) = .padding := by
  rcases Nat.lt_or_ge pad c.tagW with hshort | htag
  · exact .inl (if_pos (by simpa using hshort))
  · right
    have htake : (zeros pad).take c.tagW = zeros c.tagW := by
      rw [zeros, List.take_replicate, Nat.min_eq_left htag, zeros]
    have hentry : legalEntry c 0 = some .lit := legalEntry_tagOf (st := .lit) hlit
    have hbody : pad - c.tagW < c.lineW := by omega
    simp [decode, htake, hentry, payloadLen, hbody, Nat.not_lt.2 htag]

/-- Settles O12: a row is no longer than a tag and a Line (R6). -/
theorem paddingAppendsNoLine : Obligations.PaddingAppendsNoLine := by
  intro s pad hp hr hcfg hpad hzeros
  have hrow : CfgConstraint s.cfg 2 := (cfgValid_iff_constraints _).1 hcfg 2 (by decide) (by decide)
  have hlit : s.cfg.enabled 0 = true := ((cfgValid_iff_constraints _).1 hcfg 13 (by decide) le_rfl).1
  have hfetch : fetch s = decode s.cfg (zeros pad) := congrArg (decode s.cfg) hzeros
  exact step_of_walk_end hp hr (hfetch ▸ decode_zeros hlit (hpad.trans_le hrow.2))

/-! ### The walk ends (R288) -/

/-- A tag and a payload have a digit each at least (R6). -/
theorem two_le_instrLen {c : Cfg} (hcfg : cfgValid c = true) {i : Instr} (hen : c.enabled (tagOf i.strategy) = true) :
    2 ≤ instrLen c i := by
  obtain ⟨hN, -, -, hF, hB, -, hrle, -⟩ := (cfgValidIsItsConstraints c).1 hcfg
  have hpayload : 1 ≤ payloadLen c i.strategy := by
    cases hst : i.strategy <;> simp only [payloadLen]
    case lit => exact hN
    case rle => exact hrle (by rw [hst] at hen; exact hen)
    all_goals omega
  rw [instrLen]
  omega

/-- A fetched instruction has two digits at least, and its digits are there (R285). -/
theorem fetch_instr_len {s : State} (hcfg : cfgValid s.cfg = true) {i : Instr} {rest : Bits} (h : fetch s = .instr i rest) :
    2 ≤ instrLen s.cfg i ∧ instrLen s.cfg i ≤ s.nBits - s.cur := by
  obtain ⟨hwf, -⟩ := decodedInstrIsEncoded _ _ _ _ h
  exact ⟨two_le_instrLen hcfg ((wellFormed_iff _ _).1 hwf).1, by simpa [nBits_eq] using (decode_instr h).2⟩

/-- A turn ends the walk, takes a fault, or leaves two digits fewer. -/
theorem unpackStep_progress {s t : State} (hcfg : cfgValid s.cfg = true) (h : unpackStep s = .next t) :
    t.phase = .emit ∨ t.phase = .fault ∨ (t.phase = s.phase ∧ t.inputs = s.inputs ∧ s.cur + 2 ≤ t.cur
      ∧ t.nBits = s.nBits ∧ t.cur ≤ t.nBits) := by
  by_cases hne : t.phase = .fault
  · exact .inr (.inl hne)
  · rcases unpackStep_of_not_fault h hne with rfl | ⟨i, rest, ys, hf, -, rfl⟩
    · exact .inl rfl
    · obtain ⟨htwo, hin⟩ := fetch_instr_len hcfg hf
      exact .inr (.inr ⟨rfl, rfl, Nat.add_le_add_left htwo _, rfl, show s.cur + instrLen s.cfg i ≤ s.nBits by omega⟩)

/-- Each turn that goes on uses up two of the digits left. -/
theorem decode_ends (n : Nat) : ∀ s : State, Inv s → s.phase = .decode → s.inputs = [] → s.nBits - s.cur < 2 * n →
    ∃ k t, k ≤ n ∧ Sys2Proof.core.run k s = .next t ∧ (t.phase = .emit ∨ t.phase = .fault) := by
  induction n with
  | zero => intro s _ _ _ h; omega
  | succ n ih =>
    intro s hinv hp hin hleft
    obtain ⟨t, hstep, ht⟩ := everyStepKeepsTheInvariant s hinv
    have hr : noReset s := by rw [noReset, tick_popTick_nil s hin]; rfl
    have hcfg : cfgValid s.popTick.cfg = true := hinv.cfgOk (by rw [hp]; rfl)
    rcases unpackStep_progress hcfg ((step_of_decode hp hr).symm.trans hstep) with
      hdone | hdone | ⟨htp, htin, hcur, hbits, hle⟩
    · exact ⟨1, t, by omega, run_of_step hstep 0, .inl hdone⟩
    · exact ⟨1, t, by omega, run_of_step hstep 0, .inr hdone⟩
    · simp only [popTick_cur, popTick_phase, popTick_inputs] at hcur htp htin
      have hbits' : t.nBits = s.nBits := hbits
      obtain ⟨k, u, hk, hrun, hu⟩ := ih t ht (htp.trans hp) (by rw [htin, hin]; rfl) (by omega)
      exact ⟨k + 1, u, by omega, (run_of_step hstep k).trans hrun, hu⟩

/-- Settles O13: there are at most `n_bits` digits left. -/
theorem decodeWalkEnds : Obligations.DecodeWalkEnds := fun s hinv hp hin =>
  decode_ends (s.nBits / 2 + 1) s hinv hp hin (by omega)

end Sys2Proof.Machine

/-! PROOFS. The round trip of one instruction (spec/41_catalog_strategies.md, R184): what a compress half emits is the payload of
a well-formed instruction, and that instruction decompressed gives the Lines back. -/

namespace Sys2Proof.Machine

/-- `d` decodes with the configuration and the dictionary of `s`, has put out the Lines before `pos`, and has room for `k`
more. -/
structure DecodesAt (s d : State) (k : Nat) : Prop where
  cfg : d.cfg = s.cfg
  dmem : d.mem.dmem = s.mem.dmem
  omem : d.mem.omem = s.mem.lmem.take s.pos
  room : hasRoom d k = true

/-- The result `r` is the payload of the instruction `i` of strategy `st`, whose fields fit and which gives the next Lines
back. -/
structure RoundTrips (st : Strategy) (s : State) (r : CompressionResult) (i : Instr) : Prop where
  strategy : i.strategy = st
  fits : fieldsFit s.cfg i = true
  payload : r.payload = encodePayload s.cfg i
  gives : ∀ d, DecodesAt s d r.consumed → exec i d = .next (putOut ((s.mem.lmem.drop s.pos).take r.consumed) d)

/-- One Line at `pos`. -/
theorem take_one_drop_pos {s : State} {x : Bits} (hx : s.mem.lmem[s.pos]? = some x) :
    (s.mem.lmem.drop s.pos).take 1 = [x] := by
  rw [List.take_one, List.head?_drop, hx]
  rfl

/-! ### RLE (R165, R167) -/

/-- The look-back Line is the last one the decoder has put out. -/
theorem getLast?_take_pos {s : State} {x : Bits} (hpos : s.pos ≠ 0) (hx : s.mem.lmem[s.pos - 1]? = some x) :
    (s.mem.lmem.take s.pos).getLast? = some x := by
  obtain ⟨n, hn⟩ := Nat.exists_eq_succ_of_ne_zero hpos
  have hx' : s.mem.lmem[n]? = some x := by rwa [hn, Nat.succ_sub_one] at hx
  rw [hn, List.take_add_one, hx']
  simp

/-- The look-ahead of RLE counts copies of the Line at `pos` that follow it (R165). -/
theorem take_runCount {s : State} {x : Bits} (hx : s.mem.lmem[s.pos]? = some x) {n : Nat}
    (hrun : ∀ i, i < n → s.mem.lmem[s.pos + 1 + i]? = some x) :
    (s.mem.lmem.drop s.pos).take (n + 1) = List.replicate (n + 1) x := by
  apply List.ext_getElem?
  intro i
  rw [List.getElem?_take, List.getElem?_replicate, List.getElem?_drop]
  refine if_ctx_congr Iff.rfl (fun hi => ?_) fun _ => rfl
  rcases i with _ | i
  · exact hx
  · rw [← hrun i (by omega), Nat.add_assoc, Nat.add_comm 1]

theorem rle_roundTrips {s : State} {r : CompressionResult} (h : (compressRle s).2 = some r) :
    ∃ i, RoundTrips .rle s r i := by
  rcases hx : s.mem.lmem[s.pos]? with _ | x
  · simp [compressRle, hx] at h
  by_cases hback : s.pos = 0 ∨ s.mem.lmem[s.pos - 1]? ≠ some x
  · rw [compressRle_of_failed hx hback] at h
    cases h
  by_cases hrem : runRemembered x s = true
  · rw [compressRle_of_refused hx hback hrem] at h
    cases h
  rw [compressRle_of_run hx hback hrem] at h
  obtain ⟨hcap, -, hrun, -⟩ := runCount_cases x (2 ^ s.cfg.runW - 1) (s.mem.lmem.drop (s.pos + 1))
  generalize runCount x (2 ^ s.cfg.runW - 1) (s.mem.lmem.drop (s.pos + 1)) = n at h hcap hrun
  cases h
  simp only [List.getElem?_drop] at hrun
  obtain ⟨hpos, hlast⟩ := not_or.1 hback
  have hfit : n < 2 ^ s.cfg.runW := Nat.lt_of_le_sub_one (Nat.two_pow_pos _) hcap
  refine ⟨.rle n, rfl, by simpa [fieldsFit] using hfit, rfl, fun d hd => ?_⟩
  have hy : d.mem.omem.getLast? = some x := hd.omem ▸ getLast?_take_pos hpos (not_not.1 hlast)
  rw [exec_rle_of_getLast hy, appendCopies_of_room hd.room, take_runCount hx hrun]

/-! ### LIT and DIR (R163, R169) -/

theorem lit_roundTrips {s : State} {r : CompressionResult} (hwf : s.mem.wf s.cfg = true) (h : compressLit s = some r) :
    ∃ i, RoundTrips .lit s r i := by
  unfold compressLit at h
  split at h <;> cases h
  rename_i x hx
  have hlen : x.length = s.cfg.lineW := ((wf_iff _ _).1 hwf).1 x (List.mem_of_getElem? hx)
  refine ⟨.lit x, rfl, by simpa [fieldsFit] using hlen, rfl, fun d hd => ?_⟩
  rw [take_one_drop_pos hx, ← append_of_room hd.room]
  rfl

/-- Every index of the listing fits its field (R6, R27). -/
theorem index_fits {s : State} (hcfg : cfgValid s.cfg = true) (hwf : s.mem.wf s.cfg = true) {j : Nat} {e : Bits}
    (he : s.mem.dmem[j]? = some e) : j < 2 ^ s.cfg.idxW := by
  have hcap : CfgConstraint s.cfg 5 := (cfgValid_iff_constraints _).1 hcfg 5 (by decide) (by decide)
  obtain ⟨-, -, -, hsize, -⟩ := (wf_iff _ _).1 hwf
  exact (List.getElem?_eq_some_iff.1 he).1.trans_le (hsize.trans hcap)

/-- The lookup finds the encoder's entry, and what is made of it is appended. -/
theorem withEntry_roundTrips {s d : State} (hd : DecodesAt s d 1) {j : Nat} {e x : Bits} (he : s.mem.dmem[j]? = some e)
    (hx : s.mem.lmem[s.pos]? = some x) (t : Nat) {f : Bits → Bits} (hf : f e = x) :
    withEntry t j d (fun e => append t (f e) d) = putOut ((s.mem.lmem.drop s.pos).take 1) d := by
  rw [withEntry_of_some (hd.dmem ▸ he), append_of_room hd.room, hf, take_one_drop_pos hx]

theorem dir_roundTrips {s : State} {r : CompressionResult} (hcfg : cfgValid s.cfg = true) (hwf : s.mem.wf s.cfg = true)
    (h : compressDir s = some r) : ∃ i, RoundTrips .dir s r i := by
  unfold compressDir at h
  split at h
  · cases h
  · rename_i x hx
    split at h <;> cases h
    rename_i j hj
    have he := indexOf_some hj
    exact ⟨.dir j, rfl, by simpa [fieldsFit] using index_fits hcfg hwf he, rfl,
      fun d hd => congrArg _ (withEntry_roundTrips hd he hx _ (f := id) rfl)⟩

/-! ### BMD, FM1, FM2, FM4 and PMM (R171 to R182) -/

/-- What the scan of an entry finds: its result, and the entry it is found on. -/
theorem searchEntries_map_entry {α : Type} {dmem : List Bits} {scan : Bits → Option α} {payload : Nat → α → Bits}
    {r : CompressionResult} (h : searchEntries dmem (fun j e => (scan e).map fun a => ⟨payload j a, 1⟩) = some r) :
    ∃ j e a, dmem[j]? = some e ∧ scan e = some a ∧ r = ⟨payload j a, 1⟩ := by
  obtain ⟨j, e, he, hr⟩ := searchEntries_some h
  obtain ⟨a, ha, rfl⟩ := Option.map_eq_some_iff.1 hr
  exact ⟨j, e, a, he, ha, rfl⟩

/-- A mask found lies on the Line and changes the entry into it (R171). -/
theorem scanMasks_sound {c : Cfg} {x e : Bits} {sm : Nat × Bits} (h : scanMasks c x e = some sm) :
    sm.1 < c.lineW + 1 - c.maskW ∧ xorBits e (place c.lineW sm.1 sm.2) = x := by
  obtain ⟨m, -, hm⟩ := List.exists_of_findSome?_eq_some h
  obtain ⟨o, ho, hsm⟩ := List.exists_of_findSome?_eq_some hm
  split at hsm <;> cases hsm
  exact ⟨List.mem_range.1 ho, ‹_›⟩

/-- An offset found lies on the Line, and its digits change the entry into it (R174). -/
theorem scanOffsets_sound {c : Cfg} {k : Nat} {x e : Bits} {o : Nat} (h : scanOffsets c k x e = some o) :
    o < c.lineW + 1 - k ∧ xorBits e (place c.lineW o (ones k)) = x := by
  obtain ⟨o', ho, hsome⟩ := List.exists_of_findSome?_eq_some h
  split at hsome <;> cases hsome
  exact ⟨List.mem_range.1 ho, ‹_›⟩

/-- Two positions found lie on the Line and change the entry into it (R181). -/
theorem scanPairs_sound {c : Cfg} {x e : Bits} {p : Nat × Nat} (h : scanPairs c x e = some p) :
    p.1 < c.lineW ∧ p.2 < c.lineW ∧ flip (flip e p.1) p.2 = x := by
  obtain ⟨p1, hp1, h1⟩ := List.exists_of_findSome?_eq_some h
  obtain ⟨p2, hp2, hp⟩ := List.exists_of_findSome?_eq_some h1
  split at hp <;> cases hp
  rename_i hflip
  exact ⟨List.mem_range.1 hp1, List.mem_range.1 hp2, hflip.2⟩

section
variable {s : State} {r : CompressionResult} (hcfg : cfgValid s.cfg = true) (hwf : s.mem.wf s.cfg = true)
include hcfg hwf

theorem bmd_roundTrips (hen : s.cfg.enabled 3 = true) (h : compressBmd s = some r) : ∃ i, RoundTrips .bmd s r i := by
  have hoff : CfgConstraint s.cfg 7 := (cfgValid_iff_constraints _).1 hcfg 7 (by decide) (by decide)
  have hmask : CfgConstraint s.cfg 8 := (cfgValid_iff_constraints _).1 hcfg 8 (by decide) (by decide)
  specialize hoff hen
  obtain ⟨-, hmaskle⟩ := hmask hen
  unfold compressBmd at h
  split at h
  · cases h
  · rename_i x hx
    obtain ⟨j, e, sm, he, hsm, rfl⟩ := searchEntries_map_entry h
    obtain ⟨hlt, hxor⟩ := scanMasks_sound hsm
    refine ⟨.bmd sm.1 sm.2 j, rfl, ?_, rfl, fun d hd => ?_⟩
    · simp only [fieldsFit, Bool.and_eq_true, decide_eq_true_eq, beq_iff_eq]
      exact ⟨⟨by omega, scanMasks_length hsm⟩, index_fits hcfg hwf he⟩
    · rw [exec_bmd_of_fits (by rw [hd.cfg]; omega), hd.cfg]
      exact congrArg _ (withEntry_roundTrips hd he hx _ hxor)

/-- `fm_decompress` undoes `fm_compress`, for every `k` (R174): the fields of the payload fit, and give the Line back. -/
theorem execFm_roundTrips {k off : Nat} (hoff : s.cfg.lineW < k + 2 ^ off) (h : compressFm k off s = some r) :
    ∃ o j, (o < 2 ^ off ∧ j < 2 ^ s.cfg.idxW) ∧ r.payload = enc off o ++ enc s.cfg.idxW j
      ∧ ∀ t d, DecodesAt s d r.consumed →
        execFm k t o j d = putOut ((s.mem.lmem.drop s.pos).take r.consumed) d := by
  unfold compressFm at h
  split at h
  · cases h
  · rename_i x hx
    obtain ⟨j, e, o, he, ho, rfl⟩ := searchEntries_map_entry h
    obtain ⟨hlt, hxor⟩ := scanOffsets_sound ho
    refine ⟨o, j, ⟨by omega, index_fits hcfg hwf he⟩, rfl, fun t d hd => ?_⟩
    rw [execFm_of_fits (by rw [hd.cfg]; omega), hd.cfg]
    exact withEntry_roundTrips hd he hx t hxor

theorem pmm_roundTrips (hen : s.cfg.enabled 7 = true) (h : compressPmm s = some r) : ∃ i, RoundTrips .pmm s r i := by
  have hpos : CfgConstraint s.cfg 12 := (cfgValid_iff_constraints _).1 hcfg 12 (by decide) (by decide)
  obtain ⟨-, hlt⟩ := hpos hen
  unfold compressPmm at h
  split at h
  · cases h
  · rename_i x hx
    obtain ⟨j, e, p, he, hp, rfl⟩ := searchEntries_map_entry h
    obtain ⟨hp1, hp2, hflip⟩ := scanPairs_sound hp
    refine ⟨.pmm p.1 p.2 j, rfl, ?_, rfl, fun d hd => ?_⟩
    · simp only [fieldsFit, Bool.and_eq_true, decide_eq_true_eq]
      exact ⟨⟨by omega, by omega⟩, index_fits hcfg hwf he⟩
    · rw [exec_pmm_of_fits (by rwa [hd.cfg]) (by rwa [hd.cfg])]
      exact congrArg _ (withEntry_roundTrips hd he hx _ (f := fun e => flip (flip e p.1) p.2) hflip)

/-! ### All strategies (R184) -/

/-- The result of every enabled strategy is the payload of an instruction that gives its Lines back. -/
theorem evaluate_roundTrips {st : Strategy} (hen : s.cfg.enabled (tagOf st) = true) (h : (evaluate st s).2 = some r) :
    ∃ i, RoundTrips st s r i := by
  obtain ⟨-, -, -, -, -, -, -, -, hfm1, hfm2, hfm4, -⟩ := (cfgValidIsItsConstraints _).1 hcfg
  cases st with
  | lit => exact lit_roundTrips hwf h
  | rle => exact rle_roundTrips h
  | dir => exact dir_roundTrips hcfg hwf h
  | bmd => exact bmd_roundTrips hcfg hwf hen h
  | fm1 =>
    obtain ⟨o, j, hfit, hpayload, hgives⟩ := execFm_roundTrips hcfg hwf (hfm1 hen) h
    exact ⟨.fm1 o j, rfl, by simpa [fieldsFit] using hfit, hpayload, fun d hd => congrArg _ (hgives _ d hd)⟩
  | fm2 =>
    obtain ⟨o, j, hfit, hpayload, hgives⟩ := execFm_roundTrips hcfg hwf (hfm2 hen).2 h
    exact ⟨.fm2 o j, rfl, by simpa [fieldsFit] using hfit, hpayload, fun d hd => congrArg _ (hgives _ d hd)⟩
  | fm4 =>
    obtain ⟨o, j, hfit, hpayload, hgives⟩ := execFm_roundTrips hcfg hwf (hfm4 hen).2 h
    exact ⟨.fm4 o j, rfl, by simpa [fieldsFit] using hfit, hpayload, fun d hd => congrArg _ (hgives _ d hd)⟩
  | pmm => exact pmm_roundTrips hcfg hwf hen h

end

/-- Settles O27: the fields cut out of the payload are the instruction it was written from. -/
theorem decompressUndoesCompress : Obligations.DecompressUndoesCompress := by
  intro st s d r hcfg hen hwf _ hres hdcfg hdmem homem hroom
  obtain ⟨i, rfl, hfit, hpayload, hgives⟩ := evaluate_roundTrips hcfg hwf hen hres
  rw [hpayload, decodeFields_encodePayload hfit]
  exact hgives d ⟨hdcfg, hdmem, homem, hroom⟩

end Sys2Proof.Machine

/-! PROOFS. The whole of ENCODE (spec/42_encoder_selector.md, R220 to R227): a turn depends on nothing but what the compress
halves read and the queue, it always has room, and the turns end with every Line consumed. The same turns are made by the
loop `encodeLoop` in which R306 is said. -/

namespace Sys2Proof.Machine

/-! ### One turn that emits (R222 to R224) -/

/-- `t` is `s` but for the ticks to come, the phase, and what ENCODE writes. -/
def OnlyEncoded (s t : State) : Prop :=
  t = { s with
    inputs := t.inputs, phase := t.phase, mem := { s.mem with iq := t.mem.iq }, pos := t.pos
    rleValid := t.rleValid, rleLast := t.rleLast, bestValid := t.bestValid
    bestTag := t.bestTag, bestPayload := t.bestPayload, bestConsumed := t.bestConsumed }

theorem OnlyEncoded.trans {s t u : State} (hst : OnlyEncoded s t) (htu : OnlyEncoded t u) : OnlyEncoded s u :=
  Eq.trans htu (by rw [hst])

theorem OnlyEncoded.cfg {s t : State} (h : OnlyEncoded s t) : t.cfg = s.cfg := by rw [h]
theorem OnlyEncoded.lmem {s t : State} (h : OnlyEncoded s t) : t.mem.lmem = s.mem.lmem := by rw [h]
theorem OnlyEncoded.dmem {s t : State} (h : OnlyEncoded s t) : t.mem.dmem = s.mem.dmem := by rw [h]

/-- The step from `s` to `t` queues the result `r` of strategy `st` and moves past its Lines. -/
structure Emits (s : State) (st : Strategy) (r : CompressionResult) (t : State) : Prop where
  frame : OnlyEncoded s t
  iq : t.mem.iq = s.mem.iq ++ [⟨tagOf st, r.payload⟩]
  pos : t.pos = s.pos + r.consumed
  phase : t.phase = s.phase
  inputs : t.inputs = s.inputs.tail

/-- With room in the queue a selection at a Line emits the cheapest offer. -/
theorem emitBest_select_emits {s : State} (hcfg : cfgValid s.cfg = true) (hpos : s.pos < s.nLines)
    (hroom : s.cfg.maxLines ≠ some s.nInstr) :
    ∃ st r, Cheapest s catalogue.length st r ∧ Emits s st r (emitBest (select s.popTick))
      ∧ runMemory (emitBest (select s.popTick)) = runMemory (select s.popTick) := by
  obtain ⟨st, r, hbest, his⟩ := select_cheapest hcfg hpos
  have hselect := (select_sameButSelector s.popTick).eq_of_bestIs his
  have hemit := emitBest_of_room (s := select s.popTick) (by rw [hselect]; exact hroom)
  refine ⟨st, r, hbest, ?_, by rw [hemit]; rfl⟩
  rw [hemit, hselect]
  exact ⟨rfl, rfl, rfl, rfl, rfl⟩

/-! ### What a turn depends on (R161) -/

/-- `u` has in common with `s` what ENCODE reads. -/
structure SameEncoding (s u : State) : Prop where
  cfg : u.cfg = s.cfg
  lmem : u.mem.lmem = s.mem.lmem
  dmem : u.mem.dmem = s.mem.dmem
  iq : u.mem.iq = s.mem.iq
  pos : u.pos = s.pos
  run : runMemory u = runMemory s

theorem SameEncoding.refl (s : State) : SameEncoding s s := ⟨rfl, rfl, rfl, rfl, rfl, rfl⟩

theorem SameEncoding.reads {s u : State} (h : SameEncoding s u) (st : Strategy) : SameReads st s u :=
  ⟨h.cfg, h.lmem, h.dmem, h.pos, fun _ => Prod.ext_iff.1 h.run⟩

theorem SameEncoding.nLines {s u : State} (h : SameEncoding s u) : u.nLines = s.nLines := congrArg List.length h.lmem
theorem SameEncoding.nInstr {s u : State} (h : SameEncoding s u) : u.nInstr = s.nInstr := congrArg List.length h.iq

/-- There is one cheapest offer of all: the order of R222 is total. -/
theorem SameEncoding.cheapest_unique {s u : State} (h : SameEncoding s u) {st st' : Strategy} {r r' : CompressionResult}
    (hs : Cheapest s catalogue.length st r) (hu : Cheapest u catalogue.length st' r') : st' = st ∧ r' = r := by
  have hoffers (x : Strategy) (y : CompressionResult) : Offers u x y ↔ Offers s x y := by
    rw [Offers, Offers, h.cfg, evaluate_result_eq (h.reads x)]
  have hle := hs.least st' r' (tagOf_lt_length st') ((hoffers _ _).1 hu.offers)
  have hge := hu.least st r (tagOf_lt_length st) ((hoffers _ _).2 hs.offers)
  rw [h.cfg] at hge
  obtain rfl : st' = st := tagOf_injective (by omega)
  exact ⟨rfl, Option.some.inj (((hoffers _ _).1 hu.offers).2.symm.trans hs.offers.2)⟩

/-- A selection leaves the same RunLength memory in both. -/
theorem SameEncoding.runMemory_select {s u : State} (h : SameEncoding s u) :
    runMemory (select u.popTick) = runMemory (select s.popTick) := by
  cases hen : s.cfg.enabled 1 with
  | true =>
    rw [runMemory_select_of_enabled hen, runMemory_select_of_enabled (by rwa [h.cfg]),
      runMemory_compressRle_eq (h.reads .rle)]
  | false => rw [runMemory_select_of_disabled hen, runMemory_select_of_disabled (by rwa [h.cfg]), h.run]

/-- A turn keeps what both have in common. -/
theorem SameEncoding.turn {s u : State} (h : SameEncoding s u) (hcfg : cfgValid s.cfg = true) (hpos : s.pos < s.nLines)
    (hroom : s.cfg.maxLines ≠ some s.nInstr) :
    SameEncoding (emitBest (select s.popTick)) (emitBest (select u.popTick)) := by
  obtain ⟨st, r, hs, hes, hrs⟩ := emitBest_select_emits hcfg hpos hroom
  obtain ⟨st', r', hu, heu, hru⟩ := emitBest_select_emits (s := u) (by rwa [h.cfg]) (by rwa [h.pos, h.nLines])
    (by rwa [h.cfg, h.nInstr])
  obtain ⟨rfl, rfl⟩ := h.cheapest_unique hs hu
  exact
    { cfg := by rw [hes.frame.cfg, heu.frame.cfg, h.cfg]
      lmem := by rw [hes.frame.lmem, heu.frame.lmem, h.lmem]
      dmem := by rw [hes.frame.dmem, heu.frame.dmem, h.dmem]
      iq := by rw [hes.iq, heu.iq, h.iq]
      pos := by rw [hes.pos, heu.pos, h.pos]
      run := by rw [hrs, hru, h.runMemory_select] }

/-! ### The loop (R225) -/

theorem encodeLoop_of_end {u : State} (h : u.nLines ≤ u.pos) (n : Nat) : encodeLoop n u = u := by
  cases n with
  | zero => rfl
  | succ n => exact if_neg (Nat.not_lt.2 h)

theorem encodeLoop_of_line {u : State} (h : u.pos < u.nLines) (n : Nat) :
    encodeLoop (n + 1) u = encodeLoop n (emitBest (select u)) :=
  if_pos h

/-- Every state is left over when a tick is used up. -/
theorem exists_popTick_eq (u : State) : ∃ v : State, v.popTick = u :=
  ⟨{ u with inputs := Tick.idle :: u.inputs }, rfl⟩

/-- The queue has room for the record of every turn: there are no more records than Lines consumed (R227). -/
theorem queue_room {s : State} (h : PassOk s) (hpos : s.pos < s.nLines) : s.cfg.maxLines ≠ some s.nInstr := by
  intro hcap
  have hlines := (withinCap_iff _ _).1 h.linesCap _ hcap
  have hqueue := h.queueLe
  omega

/-- A step of ENCODE at a Line is a turn that emits, and ENCODE goes on. -/
theorem step_of_encode_line {s : State} (h : InPhase .encode s) (hr : noReset s) (hpos : s.pos < s.nLines) :
    ∃ st r, Offers s st r ∧ step s = .next (emitBest (select s.popTick)) ∧ Emits s st r (emitBest (select s.popTick))
      ∧ InPhase .encode (emitBest (select s.popTick)) ∧ 1 ≤ r.consumed := by
  have hcfg : cfgValid s.cfg = true := h.ok.1.1
  obtain ⟨st, r, hbest, hemits, -⟩ := emitBest_select_emits hcfg hpos (queue_room h.pass hpos)
  have hstep : step s = .next (emitBest (select s.popTick)) := by
    rw [step_of_noReset hr, phaseStep, popTick_phase, h.phase]
    exact encodeStep_of_line (s := s.popTick) hcfg hpos
  obtain ⟨t, hstep', hinv⟩ := everyStepKeepsTheInvariant s h.inv
  cases hstep.symm.trans hstep'
  have hphase := hemits.phase.trans h.phase
  have hin := hinv.inPhase (by rw [hphase]; decide)
  rw [hphase] at hin
  exact ⟨st, r, hbest.offers, hstep, hemits, hin, (evaluate_result h.pass.memWf hbest.offers.2).2.1⟩

/-- After the last Line ENCODE is left for PACK (R225). -/
theorem step_of_encode_end {s : State} (hp : s.phase = .encode) (hr : noReset s) (hpos : s.nLines ≤ s.pos) :
    step s = .next { s.popTick with phase := .pack } := by
  rw [step_of_noReset hr, phaseStep, popTick_phase, hp]
  exact if_neg (Nat.not_lt.2 hpos)

/-- A host that never resets. -/
def NeverResets (s : State) : Prop := ∀ tk ∈ s.inputs, tk.rst = false

theorem NeverResets.noReset {s : State} (h : NeverResets s) : noReset s := by
  cases hin : s.inputs with
  | nil => rw [Machine.noReset, tick_popTick_nil s hin]; rfl
  | cons tk ts => rw [Machine.noReset, tick_cons s tk ts hin]; exact h tk (by simp [hin])

/-- `t` is where ENCODE from `s` ends after `j` turns: every Line is consumed, and each turn has queued one record. -/
structure EncodedIn (j : Nat) (s t : State) : Prop where
  run : Sys2Proof.core.run (j + 1) s = .next t
  turns : j ≤ s.nLines - s.pos
  phase : t.phase = .pack
  frame : OnlyEncoded s t
  inputs : t.inputs = s.inputs.drop (j + 1)
  queue : t.nInstr = s.nInstr + j
  consumed : t.pos = t.nLines

theorem encodedIn_of_end {s : State} (h : InPhase .encode s) (hr : noReset s) (hend : s.nLines ≤ s.pos) :
    EncodedIn 0 s { s.popTick with phase := .pack } where
  run := run_of_step (step_of_encode_end h.phase hr hend) 0
  turns := Nat.zero_le _
  phase := rfl
  frame := rfl
  inputs := by simp
  queue := rfl
  consumed := h.pass.posLe.antisymm hend

/-- One turn before the others. -/
theorem EncodedIn.cons {j : Nat} {s s' t : State} {st : Strategy} {r : CompressionResult} (h : EncodedIn j s' t)
    (hstep : step s = .next s') (hemits : Emits s st r s') (hone : 1 ≤ r.consumed) (hle : s'.pos ≤ s'.nLines) :
    EncodedIn (j + 1) s t where
  run := (run_of_step hstep (j + 1)).trans h.run
  turns := by
    have hturns := h.turns
    have hlines : s'.nLines = s.nLines := congrArg List.length hemits.frame.lmem
    rw [hlines, hemits.pos] at hturns hle
    omega
  phase := h.phase
  frame := hemits.frame.trans h.frame
  inputs := by rw [h.inputs, hemits.inputs, ← List.drop_one, List.drop_drop, Nat.add_comm 1]
  queue := by rw [h.queue, nInstr_eq, hemits.iq, nInstr_eq, List.length_append, List.length_singleton]; omega
  consumed := h.consumed

/-- ENCODE ends, with the queue that the loop of R225 leaves from a state with the same Lines, dictionary and registers. -/
theorem encode_ends (n : Nat) : ∀ {s u : State}, InPhase .encode s → SameEncoding s u → NeverResets s →
    s.nLines - s.pos ≤ n → ∃ j t, EncodedIn j s t ∧ t.mem.iq = (encodeLoop n u).mem.iq := by
  induction n with
  | zero =>
    intro s u h hsame hhost hn
    exact ⟨0, _, encodedIn_of_end h hhost.noReset (by omega), hsame.iq.symm⟩
  | succ n ih =>
    intro s u h hsame hhost hn
    rcases Nat.lt_or_ge s.pos s.nLines with hpos | hend
    · obtain ⟨v, rfl⟩ := exists_popTick_eq u
      have hv : SameEncoding s v := { hsame with }
      obtain ⟨st, r, -, hstep, hemits, hin, hone⟩ := step_of_encode_line h hhost.noReset hpos
      have hsame' := hv.turn h.ok.1.1 hpos (queue_room h.pass hpos)
      rw [encodeLoop_of_line (by rwa [hsame.pos, hsame.nLines])]
      generalize emitBest (select s.popTick) = s' at *
      have hlines : s'.nLines = s.nLines := congrArg List.length hemits.frame.lmem
      obtain ⟨j, t, hj, hiq⟩ := ih hin hsame' (fun tk htk => hhost tk (List.mem_of_mem_tail (hemits.inputs ▸ htk)))
        (by rw [hlines, hemits.pos]; omega)
      exact ⟨j + 1, t, hj.cons hstep hemits hone hin.pass.posLe, hiq⟩
    · rw [encodeLoop_of_end (by rwa [hsame.pos, hsame.nLines]), hsame.iq]
      exact ⟨0, _, encodedIn_of_end h hhost.noReset hend, rfl⟩

/-- Settles O29: each turn consumes a Line at least and queues one record. -/
theorem encodeWalkEnds : Obligations.EncodeWalkEnds := by
  intro s hinv hp hin
  have h : InPhase .encode s := hp ▸ hinv.inPhase (by rw [hp]; decide)
  obtain ⟨j, t, ht, -⟩ := encode_ends (s.nLines - s.pos) h (.refl s) (by simp [NeverResets, hin]) le_rfl
  have hlines : t.nLines = s.nLines := congrArg List.length ht.frame.lmem
  have hturns := ht.turns
  have hqueue := ht.queue
  have hle := h.pass.queueLe
  have hpos := h.pass.posLe
  exact ⟨j + 1, t, by omega, ht.run, ht.phase, ht.frame.lmem, ht.consumed, by omega⟩

end Sys2Proof.Machine

/-! PROOFS. A COMPRESS pass from its START (spec/46_pass_control.md, R304 to R306): with a valid configuration and unbounded
capacities LOAD takes every Line, and BUILD, ENCODE, PACK and EMIT follow, none of which can fault. -/

namespace Sys2Proof.Machine

/-! ### Runs -/

/-- A run that has not stopped has taken its first step, and goes on from there. -/
theorem step_of_run {k : Nat} {s t : State} (h : Sys2Proof.core.run (k + 1) s = .next t) :
    ∃ s', step s = .next s' ∧ Sys2Proof.core.run k s' = .next t := by
  cases hstep : Sys2Proof.core.step s <;> simp only [Host.Core.run, hstep] at h
  case next s' => exact ⟨s', hstep, h⟩
  all_goals cases h

/-- A run goes on from where its first part has led. -/
theorem run_add {a : Nat} {s t : State} (h : Sys2Proof.core.run a s = .next t) (b : Nat) :
    Sys2Proof.core.run (a + b) s = Sys2Proof.core.run b t := by
  induction a generalizing s with
  | zero => cases h; rw [Nat.zero_add]
  | succ a ih =>
    obtain ⟨s', hstep, hrun⟩ := step_of_run h
    rw [Nat.succ_add, Nat.succ_eq_add_one, run_of_step hstep, ih hrun]

/-- What every step keeps, every run keeps. -/
theorem run_induction {P : State → Prop} (hstep : ∀ s t, P s → step s = .next t → P t) {k : Nat} {s t : State}
    (hs : P s) (h : Sys2Proof.core.run k s = .next t) : P t := by
  induction k generalizing s with
  | zero => cases h; exact hs
  | succ k ih =>
    obtain ⟨s', hs', hrun⟩ := step_of_run h
    exact ih (hstep s s' hs hs') hrun

/-- The invariant holds all along a run (R351). -/
theorem inv_of_run {k : Nat} {s t : State} (hs : Inv s) (h : Sys2Proof.core.run k s = .next t) : Inv t := by
  refine run_induction (fun s t hs hstep => ?_) hs h
  obtain ⟨t', hstep', ht⟩ := everyStepKeepsTheInvariant s hs
  cases hstep.symm.trans hstep'
  exact ht

theorem neverResets_of_ready {s : State} {n : Nat} (h : s.inputs = List.replicate n { outReady := true }) :
    NeverResets s := fun tk htk => by
  rw [h] at htk
  rw [List.eq_of_mem_replicate htk]

/-! ### LOAD, beat by beat (R305, R308) -/

/-- The host offers the beat `b`. -/
def offering (b : Beat) : Tick := { inBeat := some b }

/-- A pass of mode `m` in LOAD, with `taken` beats taken into the memories `mem` and the ticks `ts` to come. -/
def inLoad (m : Mode) (c : Cfg) (part : LoadPart) (mem : Memory) (taken : Nat) (ts : List Tick) : State :=
  { beginPass m c State.reset with loadPart := part, mem := mem, beatsTaken := taken, inputs := ts }

/-- A loop over the elements `all`, each of which is taken by the step that finds its tick: `after` is the state by the
elements taken so far and the ticks to come. -/
theorem run_loop {α : Type} {tick : α → Tick} {after : List α → List Tick → State} {all : List α}
    (hstep : ∀ pre x post ts, all = pre ++ x :: post → step (after pre (tick x :: ts)) = .next (after (pre ++ [x]) ts))
    (ts : List Tick) : Sys2Proof.core.run all.length (after [] (all.map tick ++ ts)) = .next (after all ts) := by
  suffices hall : ∀ rest pre, all = pre ++ rest →
      Sys2Proof.core.run rest.length (after pre (rest.map tick ++ ts)) = .next (after all ts) from hall all [] rfl
  intro rest
  induction rest with
  | nil => intro pre hpre; rw [hpre, List.append_nil]; rfl
  | cons x rest ih =>
    intro pre hpre
    exact (run_of_step (hstep pre x rest _ hpre) rest.length).trans (ih (pre ++ [x]) (by simp [hpre]))

section
variable {c : Cfg} {mem : Memory} {taken : Nat} {ts : List Tick}

/-- The START of `hostPass` is accepted (R301). -/
theorem step_hostPass (hcfg : cfgValid c = true) (m : Mode) (beats : List Beat) (n : Nat) :
    step (hostPass c m beats n)
      = .next (inLoad m c .rows Memory.empty 0 (beats.map offering ++ List.replicate n { outReady := true })) := by
  have hstart := step_of_start (s := hostPass c m beats n) (m := m) (c := c) (.inl rfl) rfl rfl
  rw [start_of_valid hcfg] at hstart
  exact hstart

/-- The bus carries a Line and a row unchanged (R311). -/
theorem busElement_busBeat {k : Nat} {x : Bits} (kind : BeatKind) (hx : x.length = k) (hk : k ≤ busWidth c) :
    busElement k (busBeat c kind x).data = x :=
  busElement_padTo hx hk

theorem step_load_line {x : Bits} (hx : x.length = c.lineW) (hroom : c.maxLines ≠ some mem.lmem.length) :
    step (inLoad .compress c .rows mem taken (offering (busBeat c .line x) :: ts))
      = .next (inLoad .compress c .rows { mem with lmem := mem.lmem ++ [x] } (taken + 1) ts) := by
  have h := (compressLoadTakesLines (inLoad .compress c .rows mem taken (offering (busBeat c .line x) :: ts))
    (busBeat c .line x) rfl rfl rfl rfl).1 rfl hroom
  exact h.trans (congrArg
    (fun y => Host.Outcome.next (inLoad .compress c .rows { mem with lmem := mem.lmem ++ [y] } (taken + 1) ts))
    (busElement_busBeat .line hx (Nat.le_max_left ..)))

/-- The END beat of the input begins BUILD (R305). -/
theorem step_load_end :
    step (inLoad .compress c .rows mem taken (offering (busBeat c .fin []) :: ts))
      = .next { inLoad .compress c .rows mem (taken + 1) ts with phase := .build } :=
  (compressLoadTakesLines (inLoad .compress c .rows mem taken (offering (busBeat c .fin []) :: ts))
    (busBeat c .fin []) rfl rfl rfl rfl).2.2.1 rfl

end

/-- A COMPRESS pass that has taken all its Lines and END. -/
def loaded (c : Cfg) (lines : List Bits) (ts : List Tick) : State :=
  { inLoad .compress c .rows { Memory.empty with lmem := lines } (lines.length + 1) ts with phase := .build }

/-- LOAD of a COMPRESS pass takes the Lines and the END beat. -/
theorem run_load_lines {c : Cfg} {lines : List Bits} (hlines : ∀ x ∈ lines, x.length = c.lineW) (hcap : c.maxLines = none)
    (ts : List Tick) :
    Sys2Proof.core.run (lines.length + 1) (inLoad .compress c .rows Memory.empty 0 ((lineBeats c lines).map offering ++ ts))
      = .next (loaded c lines ts) := by
  have hloop := run_loop (tick := fun x => offering (busBeat c .line x))
    (after := fun xs ts => inLoad .compress c .rows { Memory.empty with lmem := xs } xs.length ts) (all := lines)
    (fun pre x post ts hall => by
      rw [step_load_line (hlines x (by simp [hall])) (by simp [hcap]), List.length_append]
      rfl) (offering (busBeat c .fin []) :: ts)
  have hticks : (lineBeats c lines).map offering ++ ts
      = lines.map (fun x => offering (busBeat c .line x)) ++ offering (busBeat c .fin []) :: ts := by
    simp [lineBeats]
  rw [hticks]
  exact (run_add hloop 1).trans (run_of_step step_load_end 0)

/-! ### BUILD to DONE -/

/-- PACK with room for the rows, and EMIT to a host that takes every beat (R304). -/
theorem run_pack_emit {s : State} {out : List Beat} (hp : s.phase = .pack) (hm : s.mode = .compress) (hzero : s.emitted = 0)
    (hroom : s.cfg.maxRows = none)
    (hout : out = artifactBeats s.cfg (rowsOf s.cfg.rowW (concatInstrs s.cfg s.mem.iq)) s.mem.dmem)
    (hin : s.inputs = List.replicate (out.length + 1) { outReady := true }) :
    ∃ t, Sys2Proof.core.run (out.length + 1) s = .next t ∧ t.phase = .done ∧ t.sent = s.sent ++ out := by
  have hpack := step_of_pack hp (neverResets_of_ready hin).noReset
  have heq := pack_of_room (s := s.popTick) (flat := concatInstrs s.cfg s.mem.iq) rfl
    (by rw [popTick_cfg, hroom]; exact (withinCap_iff _ _).2 nofun)
  have hemit := emitSendsTheWholeResult (pack s.popTick) out (by rw [heq]) (by rw [heq]; exact hzero)
    (fun _ => by rw [heq]; exact hout) (fun hd => by rw [heq] at hd; cases hm.symm.trans hd) (by rw [heq]; simp [hin])
  exact ⟨_, (run_of_step hpack _).trans hemit, rfl, by rw [heq]; rfl⟩

theorem OnlyEncoded.mode {s t : State} (h : OnlyEncoded s t) : t.mode = s.mode := by rw [h]
theorem OnlyEncoded.emitted {s t : State} (h : OnlyEncoded s t) : t.emitted = s.emitted := by rw [h]
theorem OnlyEncoded.sent {s t : State} (h : OnlyEncoded s t) : t.sent = s.sent := by rw [h]

/-- ENCODE, PACK and EMIT of a pass that has just built its dictionary, with as many ready ticks as they take (R304, R306). -/
theorem run_encode_emit {s : State} {iq : List EncInstr} {out : List Beat} (h : InPhase .encode s)
    (hrows : s.cfg.maxRows = none) (hempty : s.mem.iq = []) (hpos : s.pos = 0) (hrun : s.rleValid = false ∧ s.rleLast = [])
    (hiq : iq = encodeQueue s.cfg s.mem.dmem s.mem.lmem)
    (hout : out = artifactBeats s.cfg (rowsOf s.cfg.rowW (concatInstrs s.cfg iq)) s.mem.dmem)
    (hin : s.inputs = List.replicate (iq.length + 1 + (out.length + 1)) { outReady := true }) :
    ∃ k t, Sys2Proof.core.run k s = .next t ∧ t.phase = .done ∧ t.sent = s.sent ++ out := by
  have hsame : SameEncoding s
      { State.reset with cfg := s.cfg, mem := { Memory.empty with lmem := s.mem.lmem, dmem := s.mem.dmem } } :=
    { cfg := rfl, lmem := rfl, dmem := rfl, iq := hempty.symm, pos := hpos.symm
      run := Prod.ext hrun.1.symm hrun.2.symm }
  obtain ⟨j, t, ht, hqueue⟩ := encode_ends s.mem.lmem.length h hsame (neverResets_of_ready hin) (Nat.sub_le _ _)
  have htq : t.mem.iq = iq := hqueue.trans hiq.symm
  have hj : j = iq.length := by
    have hcount := ht.queue
    rw [nInstr_eq, nInstr_eq, htq, hempty] at hcount
    simpa using hcount.symm
  obtain ⟨u, hu, hdone, hsent⟩ := run_pack_emit (s := t) (out := out) ht.phase (ht.frame.mode.trans h.ok.2)
    (ht.frame.emitted.trans h.ok.1.2.2) (by rw [ht.frame.cfg, hrows]) (by rw [ht.frame.cfg, ht.frame.dmem, htq, hout])
    (by rw [ht.inputs, hin, hj]; simp)
  exact ⟨_, u, (run_add ht.run _).trans hu, hdone, by rw [hsent, ht.frame.sent]⟩

/-! ### The whole pass (R306) -/

theorem inv_hostPass (c : Cfg) (m : Mode) (beats : List Beat) (n : Nat) : Inv (hostPass c m beats n) :=
  inv_initialised (hostPass c m beats n)

/-- START, LOAD and BUILD, to a host that is ready for `n` steps after them (R301, R304, R305). -/
theorem run_start_load_build {c : Cfg} {lines : List Bits} (hcfg : cfgValid c = true)
    (hlines : ∀ x ∈ lines, x.length = c.lineW) (hcap : c.maxLines = none) (n : Nat) :
    Sys2Proof.core.run (lines.length + 1 + 1 + 1) (hostPass c .compress (lineBeats c lines) (n + 1))
      = .next (build (loaded c lines (List.replicate n { outReady := true }))) := by
  have hload : Sys2Proof.core.run (lines.length + 1 + 1) (hostPass c .compress (lineBeats c lines) (n + 1))
      = .next (loaded c lines (List.replicate (n + 1) { outReady := true })) :=
    (run_of_step (step_hostPass hcfg _ _ _) _).trans (run_load_lines hlines hcap _)
  exact (run_add hload 1).trans
    (run_of_step (step_of_build (s := loaded c lines (List.replicate (n + 1) { outReady := true })) rfl rfl) 0)

/-- Settles O53: BUILD leads to the state from which R306 takes the queue, and the host has as many ready ticks as the
phases after it take. -/
theorem compressPassCompletes : Obligations.CompressPassCompletes := by
  intro c lines hcfg hlines hcap hrows
  obtain ⟨iq, hiq⟩ : ∃ iq, iq = encodeQueue c (listingOf c lines) lines := ⟨_, rfl⟩
  obtain ⟨out, hout⟩ : ∃ out, out = artifactBeats c (rowsOf c.rowW (concatInstrs c iq)) (listingOf c lines) :=
    ⟨_, rfl⟩
  have hbuild := run_start_load_build hcfg hlines hcap (iq.length + 1 + (out.length + 1))
  obtain ⟨k, t, hrun, hdone, hsent⟩ := run_encode_emit ((inv_of_run (inv_hostPass ..) hbuild).inPhase nofun) hrows rfl rfl
    ⟨rfl, rfl⟩ hiq hout rfl
  exact ⟨_, _, t, (run_add hbuild k).trans hrun, hdone, by rw [hsent, hout, hiq]; rfl⟩

end Sys2Proof.Machine

/-! PROOFS. What a COMPRESS pass leaves (spec/46_pass_control.md, R304 to R306, R313): in whatever state of the pass, every
record that ENCODE has queued is an instruction that gives its Lines back (`Spells`), and what is sent are the rows of such
records and the listing. -/

namespace Sys2Proof.Machine

/-! ### A queue that gives Lines back (R184, R223) -/

/-- The records `iq` are, one after the other, instructions that give the first `p` of the Lines back in a decoder with the
dictionary `dict`. -/
inductive Spells (c : Cfg) (dict lines : List Bits) : List EncInstr → Nat → Prop where
  | nil : Spells c dict lines [] 0
  | snoc {iq : List EncInstr} {p : Nat} (hiq : Spells c dict lines iq p) (e : EncInstr) (i : Instr) (k : Nat)
      (hwf : wellFormed c i = true) (hdigits : encode c i = enc c.tagW e.tag ++ e.payload) (hle : p + k ≤ lines.length)
      (hgives : ∀ d : State, d.cfg = c → d.mem.dmem = dict → d.mem.omem = lines.take p → hasRoom d k = true →
        exec i d = .next (putOut ((lines.drop p).take k) d)) :
      Spells c dict lines (iq ++ [e]) (p + k)

/-- A turn of ENCODE puts such an instruction at the end of the queue. -/
theorem Spells.emits {s t : State} {st : Strategy} {r : CompressionResult}
    (h : Spells s.cfg s.mem.dmem s.mem.lmem s.mem.iq s.pos) (hin : InPhase .encode s) (hoffers : Offers s st r) (hemits : Emits s st r t) :
    Spells s.cfg s.mem.dmem s.mem.lmem t.mem.iq t.pos := by
  have hcfg : cfgValid s.cfg = true := hin.ok.1.1
  obtain ⟨hen, hres⟩ := hoffers
  obtain ⟨i, rfl, hfit, hpayload, hgives⟩ := evaluate_roundTrips hcfg hin.pass.memWf hen hres
  have htag : tagOf i.strategy < 2 ^ s.cfg.tagW := ((cfgValid_iff_constraints _).1 hcfg 13 (by decide) le_rfl).2 _ hen
  rw [hemits.iq, hemits.pos]
  exact h.snoc _ i _ ((wellFormed_iff _ _).2 ⟨hen, htag, hfit⟩) (by rw [hpayload]; rfl)
    (evaluate_result hin.pass.memWf hres).2.2 fun d hc hd ho hroom => hgives d ⟨hc, hd, ho, hroom⟩

/-! ### Where a COMPRESS pass can be (R304, R305) -/

/-- A host that resets nothing and commands nothing. -/
def Quiet (s : State) : Prop := ∀ tk ∈ s.inputs, tk.rst = false ∧ tk.cmd = none

/-- A host that has given its input and takes output, as long as it does anything. -/
def Ready (s : State) : Prop := ∃ n, s.inputs = List.replicate n { outReady := true }

theorem Ready.quiet {s : State} (h : Ready s) : Quiet s := by
  obtain ⟨n, hn⟩ := h
  intro tk htk
  rw [hn] at htk
  rw [List.eq_of_mem_replicate htk]
  exact ⟨rfl, rfl⟩

theorem Ready.tail {s t : State} (h : Ready s) (ht : t.inputs = s.inputs.tail) : Ready t := by
  obtain ⟨n, hn⟩ := h
  exact ⟨n - 1, by rw [ht, hn, List.tail_replicate]⟩

theorem Quiet.noReset {s : State} (h : Quiet s) : noReset s :=
  NeverResets.noReset fun tk htk => (h tk htk).1

theorem Quiet.cmd {s : State} (h : Quiet s) : s.tick.cmd = none := by
  cases hin : s.inputs with
  | nil => rw [tick_popTick_nil s hin]; rfl
  | cons tk ts => rw [tick_cons s tk ts hin]; exact (h tk (by simp [hin])).2

theorem Quiet.tail {s t : State} (h : Quiet s) (ht : t.inputs = s.inputs.tail) : Quiet t := fun tk htk =>
  h tk (List.mem_of_mem_tail (ht ▸ htk))

/-- A COMPRESS pass of `lines` that is in phase `p`, after LOAD. -/
structure Compressing (c : Cfg) (lines : List Bits) (p : Phase) (s : State) : Prop where
  phase : s.phase = p
  cfg : s.cfg = c
  mode : s.mode = .compress
  lmem : s.mem.lmem = lines
  ready : Ready s

/-- The rows in RMEM are those of a queue that gives all the Lines back. -/
def RowsSpell (c : Cfg) (lines : List Bits) (s : State) : Prop :=
  ∃ iq, s.mem.rmem = rowsOf c.rowW (concatInstrs c iq) ∧ Spells c s.mem.dmem lines iq lines.length

/-- The states a COMPRESS pass of `lines` can be in, phase by phase. -/
inductive CompressPass (c : Cfg) (lines : List Bits) : State → Prop where
  | start (n : Nat) : CompressPass c lines (hostPass c .compress (lineBeats c lines) n)
  | load (pre rest : List Bits) (taken n : Nat) (hlines : lines = pre ++ rest) :
      CompressPass c lines (inLoad .compress c .rows { Memory.empty with lmem := pre } taken
        ((lineBeats c rest).map offering ++ List.replicate n { outReady := true }))
  | build {s : State} (h : Compressing c lines .build s) (hsent : s.sent = []) (hiq : s.mem.iq = []) (hpos : s.pos = 0) :
      CompressPass c lines s
  | encode {s : State} (h : Compressing c lines .encode s) (hsent : s.sent = [])
      (hiq : Spells c s.mem.dmem lines s.mem.iq s.pos) : CompressPass c lines s
  | pack {s : State} (h : Compressing c lines .pack s) (hsent : s.sent = [])
      (hiq : Spells c s.mem.dmem lines s.mem.iq lines.length) : CompressPass c lines s
  | emit {s : State} (h : Compressing c lines .emit s) (hsent : s.sent = (outputBeats s).take s.emitted)
      (hrows : RowsSpell c lines s) : CompressPass c lines s
  | done {s : State} (h : Compressing c lines .done s) (hsent : s.sent = outputBeats s) (hrows : RowsSpell c lines s) :
      CompressPass c lines s
  | fault {s : State} (hp : s.phase = .fault) (hquiet : Quiet s) : CompressPass c lines s

section
variable {c : Cfg} {lines : List Bits} {s t : State}

/-- A host that has beats to give and takes output then is quiet. -/
theorem quiet_ticks {beats : List Beat} {n : Nat} :
    ∀ tk ∈ beats.map offering ++ List.replicate n { outReady := true }, tk.rst = false ∧ tk.cmd = none := by
  intro tk htk
  rcases List.mem_append.1 htk with htk | htk
  · obtain ⟨b, -, rfl⟩ := List.mem_map.1 htk
    exact ⟨rfl, rfl⟩
  · rw [List.eq_of_mem_replicate htk]
    exact ⟨rfl, rfl⟩

/-- A Line for which there is no room is a fault (R305). -/
theorem step_load_line_full {mem : Memory} {taken : Nat} {ts : List Tick} {x : Bits}
    (hfull : c.maxLines = some mem.lmem.length) :
    step (inLoad .compress c .rows mem taken (offering (busBeat c .line x) :: ts))
      = .next (raise .capacityExceeded mem.lmem.length 0 0 (inLoad .compress c .rows mem taken ts)) := by
  have h := step_of_compress_beat (s := inLoad .compress c .rows mem taken (offering (busBeat c .line x) :: ts))
    (b := busBeat c .line x) rfl rfl rfl rfl
  rw [loadCompress_line_of_full rfl hfull, countBeat_of_fault rfl] at h
  exact h

/-- LOAD takes the next beat: a Line, for which there may be no room, or END (R305). -/
theorem compressPass_of_load (hwidth : ∀ x ∈ lines, x.length = c.lineW) {pre rest : List Bits} {taken n : Nat}
    (hlines : lines = pre ++ rest)
    (h : step (inLoad .compress c .rows { Memory.empty with lmem := pre } taken
      ((lineBeats c rest).map offering ++ List.replicate n { outReady := true })) = .next t) :
    CompressPass c lines t := by
  cases rest with
  | nil =>
    cases (step_load_end (ts := List.replicate n { outReady := true })).symm.trans h
    exact .build ⟨rfl, rfl, rfl, by rw [hlines, List.append_nil]; rfl, n, rfl⟩ rfl rfl rfl
  | cons x rest =>
    by_cases hcap : c.maxLines = some pre.length
    · cases (step_load_line_full (mem := { Memory.empty with lmem := pre }) hcap).symm.trans h
      exact .fault rfl quiet_ticks
    · cases (step_load_line (mem := { Memory.empty with lmem := pre }) (hwidth x (by simp [hlines])) hcap).symm.trans h
      exact .load (pre ++ [x]) rest (taken + 1) n (by simp [hlines])

theorem Compressing.next {p q : Phase} (h : Compressing c lines p s) (hphase : t.phase = q) (hcfg : t.cfg = s.cfg)
    (hmode : t.mode = s.mode) (hlmem : t.mem.lmem = s.mem.lmem) (hin : t.inputs = s.inputs.tail) :
    Compressing c lines q t :=
  ⟨hphase, hcfg.trans h.cfg, hmode.trans h.mode, hlmem.trans h.lmem, h.ready.tail hin⟩

theorem compressPass_of_build (h : Compressing c lines .build s) (hsent : s.sent = []) (hiq : s.mem.iq = [])
    (hpos : s.pos = 0) (hstep : step s = .next t) : CompressPass c lines t := by
  cases (step_of_build h.phase h.ready.quiet.noReset).symm.trans hstep
  refine .encode (h.next rfl rfl rfl rfl rfl) hsent ?_
  have hq : (build s.popTick).mem.iq = [] := hiq
  have hp : (build s.popTick).pos = 0 := hpos
  rw [hq, hp]
  exact .nil

theorem compressPass_of_encode (hinv : Inv s) (h : Compressing c lines .encode s) (hsent : s.sent = [])
    (hiq : Spells c s.mem.dmem lines s.mem.iq s.pos) (hstep : step s = .next t) : CompressPass c lines t := by
  have hin : InPhase .encode s := h.phase ▸ hinv.inPhase (by rw [h.phase]; decide)
  have hr := h.ready.quiet.noReset
  rcases Nat.lt_or_ge s.pos s.nLines with hpos | hend
  · obtain ⟨st, r, hoffers, hs, hemits, -, -⟩ := step_of_encode_line hin hr hpos
    cases hs.symm.trans hstep
    rw [← h.cfg, ← h.lmem] at hiq
    have hq := hiq.emits hin hoffers hemits
    rw [h.cfg, h.lmem, ← hemits.frame.dmem] at hq
    exact .encode (h.next (hemits.phase.trans h.phase) hemits.frame.cfg hemits.frame.mode hemits.frame.lmem hemits.inputs)
      (hemits.frame.sent.trans hsent) hq
  · cases (step_of_encode_end h.phase hr hend).symm.trans hstep
    have hpos : s.pos = lines.length := by
      have := hin.pass.posLe
      rw [nLines_eq, h.lmem] at this hend
      exact this.antisymm hend
    exact .pack (h.next rfl rfl rfl rfl rfl) hsent (hpos ▸ hiq)

theorem compressPass_of_pack (h : Compressing c lines .pack s) (hsent : s.sent = []) (hzero : s.emitted = 0)
    (hiq : Spells c s.mem.dmem lines s.mem.iq lines.length) (hstep : step s = .next t) : CompressPass c lines t := by
  have hquiet := h.ready.quiet
  cases (step_of_pack h.phase hquiet.noReset).symm.trans hstep
  have hflat : concatInstrs s.popTick.cfg s.popTick.mem.iq = concatInstrs c s.mem.iq := by rw [← h.cfg]; rfl
  cases hroom : withinCap s.popTick.cfg.maxRows (ceilDiv (concatInstrs c s.mem.iq).length s.popTick.cfg.rowW) with
  | true =>
    rw [pack_of_room hflat hroom]
    refine .emit (h.next rfl rfl rfl rfl rfl) ?_ ⟨s.mem.iq, congrArg (rowsOf ·.rowW _) h.cfg, hiq⟩
    simp [hsent, hzero]
  | false =>
    rw [pack_of_overflow hflat hroom]
    exact .fault rfl (hquiet.tail rfl)

/-- EMIT transfers the next beat, if the host takes it; the pass is done after END (R313). -/
theorem compressPass_of_emit (h : Compressing c lines .emit s) (hsent : s.sent = (outputBeats s).take s.emitted)
    (hrows : RowsSpell c lines s) (hstep : step s = .next t) : CompressPass c lines t := by
  have hs : step s = .next (emitStep s.tick.outReady s.popTick) := by
    simp [step_of_noReset h.ready.quiet.noReset, phaseStep, h.phase]
  cases hs.symm.trans hstep
  rcases emitStep_cases s.tick.outReady s.popTick with hstay | ⟨b, -, hb, hsend⟩
  · rw [hstay]
    exact .emit (h.next h.phase rfl rfl rfl rfl) hsent hrows
  · have hget : (outputBeats s)[s.emitted]? = some b := by
      rwa [outBeat, if_pos (show s.popTick.phase = .emit from h.phase)] at hb
    have hsplit : outputBeats s = (outputBeats s).take s.emitted ++ b :: (outputBeats s).drop (s.emitted + 1) := by
      obtain ⟨hlt, rfl⟩ := List.getElem?_eq_some_iff.1 hget
      rw [List.getElem_cons_drop, List.take_append_drop]
    have hlast := kind_eq_fin_iff_last hsplit
    have hsent' : (sendBeat b s.popTick).sent = (outputBeats s).take s.emitted ++ [b] := congrArg (· ++ [b]) hsent
    rw [hsend]
    by_cases hk : b.kind = .fin
    · refine .done (h.next (if_pos hk) rfl rfl rfl rfl) ?_ hrows
      rw [hlast.1 hk] at hsplit
      exact hsent'.trans hsplit.symm
    · refine .emit (h.next (if_neg hk) rfl rfl rfl rfl) (hsent'.trans ?_) hrows
      have htake : (outputBeats s).take (s.emitted + 1) = (outputBeats s).take s.emitted ++ [b] := by
        rw [List.take_add_one, hget, Option.toList_some]
      exact htake.symm

/-- Every step of a COMPRESS pass leads to a state that such a pass can be in. -/
theorem compressPass_step (hcfg : cfgValid c = true) (hwidth : ∀ x ∈ lines, x.length = c.lineW) (hinv : Inv s)
    (h : CompressPass c lines s) (hstep : step s = .next t) : CompressPass c lines t := by
  cases h with
  | start n =>
    cases (step_hostPass hcfg _ _ _).symm.trans hstep
    exact .load [] lines 0 n rfl
  | load pre rest taken n hlines => exact compressPass_of_load hwidth hlines hstep
  | build h hsent hiq hpos => exact compressPass_of_build h hsent hiq hpos hstep
  | encode h hsent hiq => exact compressPass_of_encode hinv h hsent hiq hstep
  | pack h hsent hiq =>
    have hin : InPhase .pack s := h.phase ▸ hinv.inPhase (by rw [h.phase]; decide)
    exact compressPass_of_pack h hsent hin.ok.1.2.2 hiq hstep
  | emit h hsent hrows => exact compressPass_of_emit h hsent hrows hstep
  | done h hsent hrows =>
    have hquiet := h.ready.quiet
    cases (nothingHappensWithoutACommand s (by rw [h.phase]; rfl) hquiet.noReset hquiet.cmd).symm.trans hstep
    exact .done (h.next h.phase rfl rfl rfl rfl) hsent hrows
  | fault hp hquiet =>
    cases (nothingHappensWithoutACommand s (by rw [hp]; rfl) hquiet.noReset hquiet.cmd).symm.trans hstep
    exact .fault hp (hquiet.tail rfl)

end

/-- What a COMPRESS pass has sent when it is done: the rows of a queue that gives all the Lines back, and its dictionary,
within the capacities of the configuration (R27, R306). -/
theorem sent_of_done {c : Cfg} {lines : List Bits} {n k : Nat} {t : State} (hcfg : cfgValid c = true)
    (hwidth : ∀ x ∈ lines, x.length = c.lineW)
    (hrun : Sys2Proof.core.run k (hostPass c .compress (lineBeats c lines) n) = .next t) (hdone : t.phase = .done) :
    t.sent = artifactBeats c t.mem.rmem t.mem.dmem ∧ RowsSpell c lines t ∧ t.mem.wf c = true
      ∧ withinCap c.maxRows t.mem.rmem.length = true ∧ withinCap c.maxLines lines.length = true := by
  obtain ⟨hpass, hinv⟩ : CompressPass c lines t ∧ Inv t := by
    refine run_induction (P := fun s => CompressPass c lines s ∧ Inv s) (fun s u ⟨hpass, hinv⟩ hstep => ?_)
      ⟨.start n, inv_hostPass ..⟩ hrun
    exact ⟨compressPass_step hcfg hwidth hinv hpass hstep, inv_of_run hinv (run_of_step hstep 0)⟩
  cases hpass with
  | start | load => cases hdone
  | build h | encode h | pack h | emit h => cases h.phase.symm.trans hdone
  | fault hp => cases hp.symm.trans hdone
  | done h hsent hrows =>
    obtain ⟨hlines, -, hrowcap⟩ := hinv.capacity (by rw [hdone]; decide)
    have hwf := hinv.memWf (by rw [hdone]; decide)
    rw [h.cfg, nLines_eq, h.lmem] at hlines
    rw [h.cfg] at hwf hrowcap
    exact ⟨by rw [hsent, outputBeats, h.mode, h.cfg]; rfl, hrows, hwf, hrowcap, hlines⟩

end Sys2Proof.Machine

/-! PROOFS. The round trip of a whole pass (spec/46_pass_control.md, R309): a DECOMPRESS pass of what a COMPRESS pass has sent
takes it whole (R308), walks through the instructions of its queue (R285), and ends the walk at the padding (R286). -/

namespace Sys2Proof.Machine

/-! ### LOAD of a DECOMPRESS pass (R308) -/

section
variable {c : Cfg} {mem : Memory} {taken : Nat} {ts : List Tick} {x : Bits}

theorem step_load_row (hx : x.length = c.rowW) (hroom : c.maxRows ≠ some mem.rmem.length) :
    step (inLoad .decompress c .rows mem taken (offering (busBeat c .row x) :: ts))
      = .next (inLoad .decompress c .rows { mem with rmem := mem.rmem ++ [x] } (taken + 1) ts) := by
  have h := (decompressLoadTakesRowsThenListing
    (inLoad .decompress c .rows mem taken (offering (busBeat c .row x) :: ts)) _ rfl rfl rfl rfl).1 rfl rfl hroom
  exact h.trans (congrArg
    (fun y => Host.Outcome.next (inLoad .decompress c .rows { mem with rmem := mem.rmem ++ [y] } (taken + 1) ts))
    (busElement_busBeat .row hx (Nat.le_max_right ..)))

theorem step_load_sep :
    step (inLoad .decompress c .rows mem taken (offering (busBeat c .sep []) :: ts))
      = .next (inLoad .decompress c .listing mem (taken + 1) ts) :=
  (decompressLoadTakesRowsThenListing
    (inLoad .decompress c .rows mem taken (offering (busBeat c .sep []) :: ts)) _ rfl rfl rfl rfl).2.2.1 rfl rfl

theorem step_load_dict (hx : x.length = c.lineW) (hroom : mem.dmem.length ≠ c.dictCap) :
    step (inLoad .decompress c .listing mem taken (offering (busBeat c .dict x) :: ts))
      = .next (inLoad .decompress c .listing { mem with dmem := mem.dmem ++ [x] } (taken + 1) ts) := by
  have h := (decompressLoadTakesRowsThenListing
    (inLoad .decompress c .listing mem taken (offering (busBeat c .dict x) :: ts)) _ rfl rfl rfl rfl).2.2.2.1 rfl rfl hroom
  exact h.trans (congrArg
    (fun y => Host.Outcome.next (inLoad .decompress c .listing { mem with dmem := mem.dmem ++ [y] } (taken + 1) ts))
    (busElement_busBeat .dict hx (Nat.le_max_left ..)))

/-- A DECOMPRESS pass that begins its walk over the rows of `mem`. -/
def walking (c : Cfg) (mem : Memory) (taken : Nat) (ts : List Tick) : State :=
  enterDecode (inLoad .decompress c .listing mem taken ts)

theorem step_load_listing_end :
    step (inLoad .decompress c .listing mem taken (offering (busBeat c .fin []) :: ts))
      = .next (walking c mem (taken + 1) ts) :=
  step_of_listing_end (s := inLoad .decompress c .listing mem taken (offering (busBeat c .fin []) :: ts))
    rfl rfl rfl rfl rfl rfl

end

/-- LOAD of a DECOMPRESS pass takes an artifact that is within its capacities. -/
theorem run_load_artifact {c : Cfg} {rows dict : List Bits} (hrows : ∀ x ∈ rows, x.length = c.rowW)
    (hrowcap : withinCap c.maxRows rows.length = true) (hdict : ∀ x ∈ dict, x.length = c.lineW)
    (hdictcap : dict.length ≤ c.dictCap) (ts : List Tick) :
    Sys2Proof.core.run (rows.length + 1 + dict.length + 1)
        (inLoad .decompress c .rows Memory.empty 0 ((artifactBeats c rows dict).map offering ++ ts))
      = .next (walking c { Memory.empty with rmem := rows, dmem := dict } (rows.length + 1 + dict.length + 1) ts) := by
  have hticks : (artifactBeats c rows dict).map offering ++ ts
      = rows.map (fun x => offering (busBeat c .row x)) ++ offering (busBeat c .sep []) ::
        (dict.map (fun x => offering (busBeat c .dict x)) ++ offering (busBeat c .fin []) :: ts) := by
    simp [artifactBeats, Function.comp_def]
  have hrowloop := run_loop (tick := fun x => offering (busBeat c .row x))
    (after := fun xs ts => inLoad .decompress c .rows { Memory.empty with rmem := xs } xs.length ts) (all := rows)
    (fun pre x post ts hall => by
      have hroom : c.maxRows ≠ some pre.length := fun hcap => by
        have := (withinCap_iff _ _).1 hrowcap _ hcap
        simp [hall] at this
      rw [step_load_row (hrows x (by simp [hall])) hroom, List.length_append]
      rfl) (offering (busBeat c .sep []) ::
        (dict.map (fun x => offering (busBeat c .dict x)) ++ offering (busBeat c .fin []) :: ts))
  have hdictloop := run_loop (tick := fun x => offering (busBeat c .dict x))
    (after := fun xs ts =>
      inLoad .decompress c .listing { Memory.empty with rmem := rows, dmem := xs } (rows.length + 1 + xs.length) ts)
    (all := dict)
    (fun pre x post ts hall => by
      have hroom : pre.length ≠ c.dictCap := by rw [hall] at hdictcap; simp at hdictcap; omega
      rw [step_load_dict (hdict x (by simp [hall])) hroom, List.length_append]
      rfl) (offering (busBeat c .fin []) :: ts)
  rw [hticks]
  have hsep := (run_add hrowloop 1).trans (run_of_step step_load_sep 0)
  have hlisting := (run_add hsep dict.length).trans hdictloop
  exact (run_add hlisting 1).trans (run_of_step step_load_listing_end 0)

/-! ### The walk through a queue (R285, R309) -/

/-- A turn of the walk at an instruction that appends its Lines. -/
theorem step_of_instr_gives {s : State} {i : Instr} {rest : Bits} {ys : List Bits} (hp : s.phase = .decode) (hr : noReset s)
    (hfetch : s.mem.flat.drop s.cur = encode s.cfg i ++ rest) (hwf : wellFormed s.cfg i = true)
    (hgives : exec i s.popTick = .next (putOut ys s.popTick)) :
    step s = .next { putOut ys s.popTick with cur := s.cur + (encode s.cfg i).length } := by
  have hf : fetch s = .instr i rest := by rw [fetch, hfetch]; exact decodeOfEncode _ _ _ hwf
  have hne : (putOut ys s.popTick).phase ≠ .fault := by simp [hp]
  rw [step_of_fetched_instr hp hr hf hgives, advanceCur_of_running hne, encode_length hwf]
  rfl

/-- `s` after `turns` turns of the walk, with the cursor at `cur` and the Lines `ys` put out. -/
def walked (s : State) (turns cur : Nat) (ys : List Bits) : State :=
  { s with inputs := s.inputs.drop turns, cur := cur, mem := { s.mem with omem := ys } }

theorem NeverResets.walked {s : State} (h : NeverResets s) (turns cur : Nat) (ys : List Bits) :
    NeverResets (walked s turns cur ys) :=
  fun tk htk => h tk (List.mem_of_mem_drop htk)

/-- The walk over the digits of a queue that gives the first `p` Lines back puts out these Lines, in one turn per record. -/
theorem run_walk {c : Cfg} {dict lines : List Bits} (hcap : withinCap c.maxLines lines.length = true) {s : State}
    (hp : s.phase = .decode) (hc : s.cfg = c) (hdict : s.mem.dmem = dict) (hhost : NeverResets s)
    {iq : List EncInstr} {p : Nat} (hiq : Spells c dict lines iq p) : ∀ {rest : Bits}, s.mem.flat = concatInstrs c iq ++ rest →
      Sys2Proof.core.run iq.length (walked s 0 0 [])
        = .next (walked s iq.length (concatInstrs c iq).length (lines.take p)) := by
  induction hiq with
  | nil => exact fun _ => rfl
  | @snoc iq p _ e i k hwf hdigits hle hgives ih =>
    intro rest hflat
    have hsnoc : concatInstrs c (iq ++ [e]) = concatInstrs c iq ++ encode c i := by simp [concatInstrs, hdigits]
    rw [hsnoc, List.append_assoc] at hflat
    subst hc
    have hr := (hhost.walked iq.length (concatInstrs s.cfg iq).length (lines.take p)).noReset
    have hdrop : s.mem.flat.drop (concatInstrs s.cfg iq).length = encode s.cfg i ++ rest := by
      rw [hflat, List.drop_left]
    have hroom : withinCap s.cfg.maxLines ((lines.take p).length + k) = true :=
      withinCap_mono hcap (by rw [List.length_take]; omega)
    have hstep := step_of_instr_gives (s := walked s iq.length (concatInstrs s.cfg iq).length (lines.take p)) hp hr hdrop hwf
      (hgives _ rfl hdict rfl hroom)
    rw [List.length_append, List.length_singleton, hsnoc, List.length_append, List.take_add]
    refine (run_add (ih hflat) 1).trans ((run_of_step hstep 0).trans ?_)
    simp [walked, putOut, State.popTick, Host.Core.run]

/-! ### The whole pass (R309) -/

/-- The walk over the rows of a queue that gives all the Lines back ends at the padding, with all the Lines put out. -/
theorem run_walk_end {c : Cfg} {lines : List Bits} {iq : List EncInstr} {s : State} (hcfg : cfgValid s.cfg = true)
    (hcap : withinCap s.cfg.maxLines lines.length = true) (hc : s.cfg = c) (hp : s.phase = .decode)
    (hflat : s.mem.flat = (rowsOf c.rowW (concatInstrs c iq)).flatten) (hhost : NeverResets s)
    (hiq : Spells c s.mem.dmem lines iq lines.length) :
    Sys2Proof.core.run (iq.length + 1) (walked s 0 0 [])
      = .next { walked s (iq.length + 1) (concatInstrs c iq).length lines with phase := .emit } := by
  subst hc
  obtain ⟨-, hW, -⟩ := (cfgValidIsItsConstraints _).1 hcfg
  obtain ⟨pad, hpad, hrows⟩ := rowsOf_flatten (concatInstrs s.cfg iq) hW
  rw [hrows] at hflat
  have hwalk := run_walk hcap hp rfl rfl hhost hiq hflat
  rw [List.take_length] at hwalk
  have hr := (hhost.walked iq.length (concatInstrs s.cfg iq).length lines).noReset
  have hend := paddingAppendsNoLine (walked s iq.length (concatInstrs s.cfg iq).length lines) pad hp hr hcfg hpad
    (by rw [walked, hflat, List.drop_left])
  refine (run_add hwalk 1).trans ((run_of_step hend 0).trans ?_)
  simp [walked, Host.Core.run]

/-- A DECOMPRESS pass of an artifact whose rows are those of a queue that gives all the Lines back sends these Lines. -/
theorem run_decompress {c : Cfg} {lines dict : List Bits} {iq : List EncInstr} (hcfg : cfgValid c = true)
    (hcap : withinCap c.maxLines lines.length = true)
    (hrowcap : withinCap c.maxRows (rowsOf c.rowW (concatInstrs c iq)).length = true)
    (hdict : ∀ x ∈ dict, x.length = c.lineW) (hdictcap : dict.length ≤ c.dictCap)
    (hiq : Spells c dict lines iq lines.length) :
    ∃ n k t, Sys2Proof.core.run k
        (hostPass c .decompress (artifactBeats c (rowsOf c.rowW (concatInstrs c iq)) dict) n) = .next t
      ∧ t.phase = .done ∧ t.sent = lineBeats c lines := by
  obtain ⟨n, hn⟩ : ∃ n, n = iq.length + 1 + (lineBeats c lines).length := ⟨_, rfl⟩
  have hload := (run_of_step (step_hostPass hcfg .decompress _ n) _).trans
    (run_load_artifact (fun _ => rowsOf_width (flat := concatInstrs c iq)) hrowcap hdict hdictcap
      (List.replicate n { outReady := true }))
  generalize (rowsOf c.rowW (concatInstrs c iq)).length + 1 + dict.length + 1 = taken at hload
  have hwalk := run_walk_end (s := walking c { Memory.empty with rmem := rowsOf c.rowW (concatInstrs c iq), dmem := dict }
    taken (List.replicate n { outReady := true })) hcfg hcap rfl rfl rfl (neverResets_of_ready rfl) hiq
  have hemit := emitSendsTheWholeResult
    { walked (walking c { Memory.empty with rmem := rowsOf c.rowW (concatInstrs c iq), dmem := dict } taken
        (List.replicate n { outReady := true })) (iq.length + 1) (concatInstrs c iq).length lines with phase := .emit }
    (lineBeats c lines) rfl rfl nofun (fun _ => rfl) (by simp [walked, walking, inLoad, enterDecode, hn])
  exact ⟨n, _, _, (run_add hload _).trans ((run_add hwalk _).trans hemit), rfl, rfl⟩

/-- Settles O54: the COMPRESS pass has sent the rows of such a queue, with the dictionary that it was made with. -/
theorem decompressOfCompressIsIdentity : Obligations.DecompressOfCompressIsIdentity := by
  intro c lines n k t hcfg hwidth hrun hdone
  obtain ⟨hsent, ⟨iq, hrows, hiq⟩, hwf, hrowcap, hcap⟩ := sent_of_done hcfg hwidth hrun hdone
  obtain ⟨-, -, hdict, hdictcap, -⟩ := (wf_iff _ _).1 hwf
  rw [hrows] at hsent hrowcap
  rw [hsent]
  exact run_decompress hcfg hcap hrowcap hdict hdictcap hiq

end Sys2Proof.Machine
